-- ==== Sys2Proof/Word.lean ====
section
/-! DEFINITION. Word.lean: the byte (00_scope.md R9), the one width this hardware moves (20_memory.md R79). -/

namespace Sys2Proof

/-- A byte is 8 bits; its arithmetic is unsigned and modulo 256 (00_scope.md R9, R10). -/
abbrev Byte := BitVec 8

end Sys2Proof
end

