-- ==== Sys2Proof/Config.lean ====
section
/-! DEFINITION. Config.lean: the parameters of 00_scope.md R7, and the free values: constants without a
body, of which nothing can be proved. -/

namespace Sys2Proof.Config

/-- `PREAMBLE` (00_scope.md R7). -/
def preamble : Byte := 0x00
/-- `START1` (00_scope.md R7). -/
def start1 : Byte := 0x00
/-- `START2` (00_scope.md R7). -/
def start2 : Byte := 0xFF
/-- `POSTAMBLE` (00_scope.md R7). -/
def postamble : Byte := 0x00
/-- `DIR_H2D`, host to device (00_scope.md R7, 30_encoding.md R96). -/
def dirH2d : Byte := 0xD4
/-- `DIR_D2H`, device to host (00_scope.md R7, 30_encoding.md R96). -/
def dirD2h : Byte := 0xD5
/-- `M_WRITE`, the data-write marker (00_scope.md R7, 30_encoding.md R102). -/
def mWrite : Byte := 0x01
/-- `M_STATUS`, the status-read marker (00_scope.md R7, 30_encoding.md R102). -/
def mStatus : Byte := 0x02
/-- `M_READ`, the data-read marker (00_scope.md R7, 30_encoding.md R102). -/
def mRead : Byte := 0x03
/-- `FILL`, the byte sent while reading (00_scope.md R7, 20_memory.md R68). -/
def fill : Byte := 0x00
/-- `ACK_PATTERN` (00_scope.md R7, 30_encoding.md R101). -/
def ackPattern : List Byte := [0x00, 0x00, 0xFF, 0x00, 0xFF, 0x00]
/-- `POLL_INTERVAL`, in ticks (00_scope.md R7). -/
def pollInterval : Nat := 10
/-- `ACK_TIMEOUT_DEFAULT`, in ticks: what the host writes before AWAIT_ACK (00_scope.md R7). -/
def ackTimeout : BitVec 16 := 10
/-- `RESP_TIMEOUT_DEFAULT`, in ticks: what the host writes before RECEIVE (00_scope.md R7). -/
def respTimeout : BitVec 16 := 1000
/-- `ID_MAX`, the longest identifier of a target (00_scope.md R7). -/
def idMax : Nat := 7
/-- `CMD_MAX`, the capacity of `CBUF` (00_scope.md R7). -/
def cmdMax : Nat := 254
/-- `RXCAP`, the capacity of `PBUF` (00_scope.md R7). -/
def rxCap : Nat := 254
/-- The size of `ABUF` (10_state.md R37). -/
def ackSize : Nat := 6
/-- `SAM_MODE_NORMAL`, the default of the host's parameter (00_scope.md R7, 45_command_session.md R207). -/
def samModeNormal : Byte := 0x01
/-- `SAM_IRQ_ON`, the default of the host's parameter (00_scope.md R7, 45_command_session.md R207). -/
def samIrqOn : Byte := 0x01
/-- The device-side timeout byte of the security-module command, 20 units (45_command_session.md R207). -/
def samTimeout : Byte := 0x14

/-- What the device answers in byte exchange number `n` when no answer is scripted: any byte
(20_memory.md R66; log 2). A free value. -/
opaque deviceByte : Nat → Byte
/-- What the `n`-th read of a value the spec leaves unspecified yields (10_state.md R47; log 6). A free value. -/
opaque freeByte : Nat → Byte
/-- `TICK`, the length of a time unit, OPEN in 00_scope.md R7; no rule depends on it (log 24). A free value. -/
opaque tick : Nat
/-- `T_SETTLE`, OPEN in 00_scope.md R7; no rule depends on it (log 24). A free value. -/
opaque tSettle : Nat

end Sys2Proof.Config
end

