-- ==== Sys2Proof/Syntax.lean ====
section
/-! DEFINITION. Syntax.lean: the sixteen rows of spec/opcode_table.json, one constructor each, and the five
formats of 30_encoding.md R90 in which their words are read. -/

namespace Sys2Proof

/-- The interfaces at which an instruction word stands (30_encoding.md R90): the host port, the head of a bus
transaction, an information frame, an acknowledgment frame, the first payload byte. -/
inductive Format where
  | op | marker | frame | ack | cmd
deriving DecidableEq, Repr

/-- One constructor per row of spec/opcode_table.json. Operands of `OP` and `CMD` rows are registers of the block
or of the host, "not in the code" (30_encoding.md R103, R90). -/
inductive Instr where
  /-- `OPSEL = 00` (41_ready_poller.md R131). -/
  | waitReady
  /-- `OPSEL = 01` (42_frame_encoder.md R141). -/
  | encodeSend
  /-- `OPSEL = 10` (43_ack_handshake.md R156). -/
  | awaitAck
  /-- `OPSEL = 11` (44_frame_decoder.md R171). -/
  | receive
  /-- Marker 0x01 (20_memory.md R73). -/
  | markerDataWrite
  /-- Marker 0x02 (20_memory.md R72). -/
  | markerStatusRead
  /-- Marker 0x03 (20_memory.md R74). -/
  | markerDataRead
  /-- A host-to-device frame as it stands on the wire (30_encoding.md R91): `LEN`, `LCS` and the bytes after `DIR` as
  given, conforming or not. -/
  | frameH2d (len lcs : Byte) (body : List Byte)
  /-- A device-to-host frame as it stands on the wire (44_frame_decoder.md R171, 30_encoding.md R106). -/
  | frameD2h (len lcs : Byte) (body : List Byte)
  /-- The acknowledgment frame (30_encoding.md R101). -/
  | ack
  /-- Command 0x02 (45_command_session.md R204). -/
  | getFirmwareVersion
  /-- Command 0x14 (45_command_session.md R207). -/
  | configureSecurityModule
  /-- Command 0x4A (45_command_session.md R208). -/
  | enumeratePassiveTarget
  /-- Response 0x03 (45_command_session.md R206). -/
  | respFirmwareVersion
  /-- Response 0x15 (30_encoding.md R104). -/
  | respConfigureSecurityModule
  /-- Response 0x4B (45_command_session.md R209). -/
  | respEnumeratePassiveTarget
deriving DecidableEq, Repr

/-- The format of a row, as the opcode table's column "format" gives it. -/
def Instr.format : Instr → Format
  | .waitReady | .encodeSend | .awaitAck | .receive => .op
  | .markerDataWrite | .markerStatusRead | .markerDataRead => .marker
  | .frameH2d _ _ _ | .frameD2h _ _ _ => .frame
  | .ack => .ack
  | .getFirmwareVersion | .configureSecurityModule | .enumeratePassiveTarget => .cmd
  | .respFirmwareVersion | .respConfigureSecurityModule | .respEnumeratePassiveTarget => .cmd

end Sys2Proof
end

