-- ==== Sys2Proof/WellFormed.lean ====
section
/-! DEFINITION. WellFormed.lean: the instructions an encoding exists for. Two rows carry operands; one check
serves both. -/

namespace Sys2Proof

/-- How many bytes of a frame stand after `DIR`: payload, `DCS`, `POSTAMBLE`, that is `n + 2` with
`LEN = n + 1` (30_encoding.md R91); a header with `LEN = 0` announces none (44_frame_decoder.md R178). -/
def bodyLength (len : Byte) : Nat := if len = 0 then 0 else len.toNat + 1

/-- Check of `FRAME_H2D` and `FRAME_D2H`: the bytes after `DIR` are as many as `LEN` announces (30_encoding.md R91,
R100). -/
def wfBody (len : Byte) (body : List Byte) : Bool := decide (body.length = bodyLength len)

/-- An instruction is well formed when its operands fit its encoding. -/
def Instr.wellFormed : Instr → Bool
  | .frameH2d len _ body => wfBody len body
  | .frameD2h len _ body => wfBody len body
  | .waitReady | .encodeSend | .awaitAck | .receive => true
  | .markerDataWrite | .markerStatusRead | .markerDataRead | .ack => true
  | .getFirmwareVersion | .configureSecurityModule | .enumeratePassiveTarget => true
  | .respFirmwareVersion | .respConfigureSecurityModule | .respEnumeratePassiveTarget => true

end Sys2Proof
end

