-- ==== Sys2Proof/Decode.lean ====
section
/-! DEFINITION. Decode.lean: checksum arithmetic, the decoder (total on any bytes, rejecting by name), and after
it the encoder, both from the tables of 30_encoding.md and the match and mask columns of spec/opcode_table.json. -/

namespace Sys2Proof

/-- `neg8(a)`, the two's complement "`(~length + 1) mod 256`" (00_scope.md R10). -/
def neg8 (a : Byte) : Byte := ~~~a + 1

/-- `sum8(s)`, the sum of the bytes of `s` modulo 256; `sum8` of no bytes is 0 (00_scope.md R10). -/
def sum8 : List Byte → Byte
  | [] => 0
  | b :: bs => b + sum8 bs

/-- `LCS` of a length byte (30_encoding.md R95, R105 b). -/
def lcsOf (len : Byte) : Byte := neg8 len

/-- `DCS` of a direction byte and a payload (30_encoding.md R98, R105 c). -/
def dcsOf (dir : Byte) (payload : List Byte) : Byte := neg8 (dir + sum8 payload)

/-- `LEN` of a payload: the direction byte and the payload, counted together (30_encoding.md R94, R105 a). -/
def lenOf (payload : List Byte) : Byte := BitVec.ofNat 8 (payload.length + 1)

/-- The law of the length checksum: `LEN +8 LCS = 0` (00_scope.md R11). -/
def lengthLaw (len lcs : Byte) : Bool := decide (len + lcs = 0)

/-- The law of the data checksum on the sum of direction and payload: `sum +8 DCS = 0` (00_scope.md R11). -/
def dataLaw (sum dcs : Byte) : Bool := decide (sum + dcs = 0)

/-- Why a word is no instruction of its format. -/
inductive Reject where
  /-- There are not enough bytes for the format. -/
  | truncated
  /-- The first byte names nothing in the `MARKER` or `CMD` format, or has bits above `OPSEL` set in `OP`. -/
  | code
  /-- The bytes at `PREAMBLE`, `START1`, `START2` are not `00 00 FF` (30_encoding.md R93). -/
  | header
  /-- `DIR` is neither 0xD4 nor 0xD5 (30_encoding.md R96). -/
  | direction
  /-- Six bytes that are not `00 00 FF 00 FF 00` (30_encoding.md R101). -/
  | ackPattern
deriving DecidableEq, Repr

/-- `OPSEL`, all four codes used (30_encoding.md R103). -/
def opOfCode (code : BitVec 2) : Instr :=
  if code = 0 then .waitReady else if code = 1 then .encodeSend else if code = 2 then .awaitAck else .receive

/-- An `OP` word as one byte: the two bits of `OPSEL`, the six above them 0. -/
def decodeOp (b : Byte) : Except Reject Instr :=
  if b.toNat < 4 then .ok (opOfCode (b.setWidth 2)) else .error .code

/-- The three marker bytes (30_encoding.md R102). -/
def decodeMarker (b : Byte) : Except Reject Instr :=
  if b = Config.mWrite then .ok .markerDataWrite
  else if b = Config.mStatus then .ok .markerStatusRead
  else if b = Config.mRead then .ok .markerDataRead
  else .error .code

/-- The three command codes and the three response codes (30_encoding.md R104). -/
def decodeCmd (b : Byte) : Except Reject Instr :=
  if b = 0x02 then .ok .getFirmwareVersion
  else if b = 0x14 then .ok .configureSecurityModule
  else if b = 0x4A then .ok .enumeratePassiveTarget
  else if b = 0x03 then .ok .respFirmwareVersion
  else if b = 0x15 then .ok .respConfigureSecurityModule
  else if b = 0x4B then .ok .respEnumeratePassiveTarget
  else .error .code

/-- What follows `DIR`: as many bytes as `LEN` announces, taken as they are; judging them is RECEIVE's
(30_encoding.md R100, R106). -/
def decodeBody (make : Byte → Byte → List Byte → Instr) (len lcs : Byte) (rest : List Byte) : Except Reject Instr :=
  if rest.length < bodyLength len then .error .truncated
  else .ok (make len lcs (rest.take (bodyLength len)))

/-- The six header bytes of a `FRAME` row, offset 0 first (30_encoding.md R91, R113). -/
def decodeFrame : List Byte → Except Reject Instr
  | pre :: start1 :: start2 :: len :: lcs :: dir :: rest =>
    if pre ≠ Config.preamble ∨ start1 ≠ Config.start1 ∨ start2 ≠ Config.start2 then .error .header
    else if dir = Config.dirH2d then decodeBody .frameH2d len lcs rest
    else if dir = Config.dirD2h then decodeBody .frameD2h len lcs rest
    else .error .direction
  | _ => .error .truncated

/-- The acknowledgment frame (30_encoding.md R101). -/
def decodeAck (bytes : List Byte) : Except Reject Instr :=
  if bytes.length < Config.ackPattern.length then .error .truncated
  else if bytes.take Config.ackPattern.length = Config.ackPattern then .ok .ack
  else .error .ackPattern

/-- A one-byte word. -/
def decodeFirst (decodeByte : Byte → Except Reject Instr) : List Byte → Except Reject Instr
  | [] => .error .truncated
  | b :: _ => decodeByte b

/-- The instruction a word begins with, read in its format. Bytes after the instruction's own are not looked at. -/
def decode : Format → List Byte → Except Reject Instr
  | .op, bytes => decodeFirst decodeOp bytes
  | .marker, bytes => decodeFirst decodeMarker bytes
  | .frame, bytes => decodeFrame bytes
  | .ack, bytes => decodeAck bytes
  | .cmd, bytes => decodeFirst decodeCmd bytes

/-! The encoder. -/

/-- The first six bytes of a frame (30_encoding.md R91). -/
def frameHeader (len lcs dir : Byte) : List Byte :=
  [Config.preamble, Config.start1, Config.start2, len, lcs, dir]

/-- `F(D, P)`: the frame of 30_encoding.md R91 with direction `dir` and the given payload (44_frame_decoder.md R187). -/
def frameBytes (dir : Byte) (payload : List Byte) : List Byte :=
  frameHeader (lenOf payload) (lcsOf (lenOf payload)) dir ++ payload ++ [dcsOf dir payload, Config.postamble]

/-- The payload of a host-to-device frame that follows the layout and both checksum laws; `none` for one that no
encoder sends (30_encoding.md R91, R94, R95, R98, R99). -/
def hostPayload (len lcs : Byte) (body : List Byte) : Option (List Byte) :=
  let payload := body.take (len.toNat - 1)
  if frameHeader len lcs Config.dirH2d ++ body = frameBytes Config.dirH2d payload then some payload else none

/-- The word of an instruction, from the tables of 30_encoding.md R91 and R101 to R104. -/
def encode : Instr → List Byte
  | .waitReady => [0x00]
  | .encodeSend => [0x01]
  | .awaitAck => [0x02]
  | .receive => [0x03]
  | .markerDataWrite => [0x01]
  | .markerStatusRead => [0x02]
  | .markerDataRead => [0x03]
  | .frameH2d len lcs body => frameHeader len lcs Config.dirH2d ++ body
  | .frameD2h len lcs body => frameHeader len lcs Config.dirD2h ++ body
  | .ack => [0x00, 0x00, 0xFF, 0x00, 0xFF, 0x00]
  | .getFirmwareVersion => [0x02]
  | .configureSecurityModule => [0x14]
  | .enumeratePassiveTarget => [0x4A]
  | .respFirmwareVersion => [0x03]
  | .respConfigureSecurityModule => [0x15]
  | .respEnumeratePassiveTarget => [0x4B]

/-! The host's words, numbered as spec/opcode_table.json numbers them (log 17, log 18). -/

/-- Bits `8k+7` to `8k` of `w`. -/
def byteAt (w k : Nat) : Byte := BitVec.ofNat 8 (w / 2 ^ (8 * k))

/-- The six bytes of a 48-bit table number, "the byte at offset 0 most significant" (30_encoding.md R113). -/
def sixBytes (w : Nat) : List Byte := [byteAt w 5, byteAt w 4, byteAt w 3, byteAt w 2, byteAt w 1, byteAt w 0]

/-- A table word of one byte. The `OP`, `MARKER` and `CMD` rows share the codes 0x01, 0x02 and 0x03: of these the
`OP` reading is given, the block's own instruction (log 17). -/
def decodeByteWord (b : Byte) : Except Reject Instr :=
  match decodeOp b with
  | .ok i => .ok i
  | .error _ => decodeCmd b

/-- A table word of six bytes, the operand bytes after it 0: an acknowledgment or a frame. -/
def decodeSixBytes (w : Nat) : Except Reject Instr :=
  match decodeAck (sixBytes w) with
  | .ok i => .ok i
  | .error _ => decodeFrame (sixBytes w ++ List.replicate 256 0)

/-- The instruction the decoder reads from a word of the opcode table. -/
def decodeTableWord (nbits w : Nat) : Option Instr :=
  if nbits ≤ 8 then
    (if w < 256 then (decodeByteWord (BitVec.ofNat 8 w)).toOption else none)
  else if nbits = 48 then
    (if w < 2 ^ 48 then (decodeSixBytes w).toOption else none)
  else none

end Sys2Proof
end

