-- ==== Sys2Proof/Machine/State.lean ====
section
/-! DEFINITION. Machine/State.lean: everything spec/ gives the machine, as plain data, and the state after reset
(10_state.md R20 to R48). INVENTORY.md lists every field with its rule and its reset value. -/

namespace Sys2Proof.Machine

/-- The four operations a request starts (10_state.md R30). -/
inductive Operation where
  | waitReady | encodeSend | awaitAck | receive
deriving DecidableEq, Repr

/-- The error kinds of `ERR` (10_state.md R35); codes 6 and 7 are reserved and never written (log 31). -/
inductive ErrKind where
  | none | timeout | checksumMismatch | unexpectedDirection | bufferTooSmall | handshakeMismatch
deriving DecidableEq, Repr

/-- The events of the bus trace (00_scope.md R13). -/
inductive Event where
  /-- `CS-`: chip-select goes to its asserted (low) level. -/
  | csAssert
  /-- `CS+`: chip-select goes to its released (high) level. -/
  | csRelease
  /-- `S`: the settle delay. -/
  | settle
  /-- `W xx`: the block sends `xx` and discards what it receives. -/
  | write (b : Byte)
  /-- `R xx`: the block sends `FILL` and receives `xx`. -/
  | read (b : Byte)
  /-- `D n`: a delay of `n` ticks. -/
  | delay (ticks : Nat)
deriving DecidableEq, Repr

/-- Steps 1 to 7 of the subroutine `WaitReady` (41_ready_poller.md R131); step 2 runs `StatusProbe()`, four events, one
value for each: the step of one event is the finest grain (10_state.md R41, 20_memory.md R72; log 19). -/
inductive PollStep where
  | p1 | p2a | p2b | p2c | p2d | p3 | p4 | p5 | p6 | p7
deriving DecidableEq, Repr

/-- Steps 1 to 17 of ENCODE_SEND (42_frame_encoder.md R141). -/
inductive EncodeStep where
  | e1 | e2 | e3 | e4 | e5 | e6 | e7 | e8 | e9 | e10 | e11 | e12 | e13 | e14 | e15 | e16 | e17
deriving DecidableEq, Repr

/-- Steps 3 to 10 of AWAIT_ACK (43_ack_handshake.md R156). -/
inductive AckStep where
  | a3 | a4 | a5 | a6 | a7 | a8 | a9 | a10
deriving DecidableEq, Repr

/-- Steps 3 to 21 of RECEIVE (44_frame_decoder.md R171); step 17 carries the byte `c` that step 16 read (log 29). -/
inductive ReceiveStep where
  | r3 | r4 | r5a | r5b | r5c | r6 | r7 | r8 | r9 | r10 | r11 | r12 | r13 | r14 | r15 | r16
  | r17 (c : Byte)
  | r18 | r19 | r20 | r21
deriving DecidableEq, Repr

/-- The three operations that begin with the poller (10_state.md R42). -/
inductive Poller where
  | waitReady | awaitAck | receive
deriving DecidableEq, Repr

/-- `PHASE` (10_state.md R40, R41): `IDLE`, or the numbered step that comes next. -/
inductive Phase where
  /-- `IDLE`. -/
  | idle
  /-- `<operation>.1.<k>`: step `k` of the poller, run by `p` (10_state.md R42). -/
  | poll (p : Poller) (k : PollStep)
  /-- `<operation>.2`, with the boolean `r` the poller returned (log 29). -/
  | polled (p : Poller) (r : Bool)
  /-- `WAIT_READY.3`. -/
  | waitReady3
  /-- `ENCODE_SEND.<k>`. -/
  | encode (k : EncodeStep)
  /-- `AWAIT_ACK.<k>`. -/
  | ack (k : AckStep)
  /-- `RECEIVE.<k>`. -/
  | receive (k : ReceiveStep)
deriving DecidableEq, Repr

/-- A buffer's contents: (index, byte) pairs, indices strictly rising; an index not listed holds no value the spec
fixes (10_state.md R47; log 6). -/
abbrev Memory := List Host.Cell

/-- What the host does with a failed handshake (45_command_session.md R202). -/
inductive AckPolicy where
  | continue | abort
deriving DecidableEq, Repr

/-- The parameters and arguments the host passes to its sequences (45_command_session.md R202, R203, R207, R208). -/
structure Params where
  ackPolicy : AckPolicy
  maxlenFw : BitVec 8
  maxlenSam : BitVec 8
  maxlenEnum : BitVec 8
  samMode : Byte
  samIrq : Byte
  cardType : Byte
deriving DecidableEq, Repr

/-- The host layer's own data: "not state of the block, but of the host" (10_state.md R46). -/
structure Session where
  params : Params
  /-- Result of `query_firmware_version` (45_command_session.md R205, R206). -/
  version : BitVec 32
  /-- Result of `configure_security_module` (45_command_session.md R207). -/
  samOk : Bool
  /-- Result of `enumerate_passive_target` (45_command_session.md R210). -/
  found : Bool
  /-- `out_identifier` (45_command_session.md R209). -/
  ident : List Byte
  /-- `out_identifier_length` (45_command_session.md R209). -/
  identLen : Byte
  /-- What the host's last read of a register or of `PBUF` returned (10_state.md R21). -/
  readData : Byte
deriving DecidableEq, Repr

/-- The operand registers and buffer the host writes (10_state.md R21, R29). -/
inductive HostWrite where
  | opsel (v : BitVec 2)
  | timeout (v : BitVec 16)
  | maxlen (v : BitVec 8)
  | clen (v : BitVec 8)
  | cbuf (i : Nat) (v : Byte)
deriving DecidableEq, Repr

/-- The registers and buffer the host reads (10_state.md R21, R34). -/
inductive HostRead where
  | busy | ok | err | plen
  | pbuf (i : Nat)
deriving DecidableEq, Repr

/-- An entry of the schedule: whose turn it is, and what the host does (10_state.md R46; log 19, log 22). -/
inductive Input where
  /-- The block's turn: one numbered step. -/
  | pass
  /-- The host waits for `BUSY = 0` (30_encoding.md R111). -/
  | awaitIdle
  /-- An instruction word at its interface, run to its end (log 1). -/
  | word (fmt : Format) (bytes : List Byte)
  /-- A request for the operation `OPSEL` names, accepted in one step (10_state.md R43). -/
  | request
  /-- The host writes an operand register or a byte of `CBUF`. -/
  | write (w : HostWrite)
  /-- The host reads a result register or a byte of `PBUF`. -/
  | read (r : HostRead)
  /-- The host chooses the parameters of its sequences. -/
  | setParams (p : Params)
  /-- Reset (10_state.md R49). -/
  | reset
deriving DecidableEq, Repr

/-- The machine. -/
@[ext]
structure State where
  /-- `OPSEL`, 2 bits (10_state.md R29). -/
  opsel : BitVec 2
  /-- `TIMEOUT`, 16 bits, in ticks (10_state.md R31). -/
  timeout : BitVec 16
  /-- `MAXLEN`, 8 bits (10_state.md R32). -/
  maxlen : BitVec 8
  /-- `CLEN`, 8 bits (10_state.md R33). -/
  clen : BitVec 8
  /-- `BUSY` (10_state.md R34). -/
  busy : Bool
  /-- `OK` (10_state.md R34). -/
  ok : Bool
  /-- `ERR` (10_state.md R35). -/
  err : ErrKind
  /-- `PLEN`, 8 bits (10_state.md R34). -/
  plen : BitVec 8
  /-- `CS`: true is asserted, the pin low (10_state.md R28). -/
  cs : Bool
  /-- `CSUM`, 8 bits (10_state.md R23). -/
  csum : BitVec 8
  /-- `LEN`, 8 bits (10_state.md R24). -/
  len : BitVec 8
  /-- `LCSR`, 8 bits (10_state.md R22). -/
  lcsr : BitVec 8
  /-- `DIRR`, 8 bits (10_state.md R22). -/
  dirr : BitVec 8
  /-- `STATB`, 8 bits (10_state.md R27). -/
  statb : BitVec 8
  /-- `IDX`, 8 bits (10_state.md R26). -/
  idx : BitVec 8
  /-- `ELAPSED`, 17 bits (10_state.md R25). -/
  elapsed : BitVec 17
  /-- `PHASE` (10_state.md R40). -/
  phase : Phase
  /-- `CBUF` (10_state.md R37). -/
  cbuf : Memory
  /-- `PBUF` (10_state.md R37). -/
  pbuf : Memory
  /-- `ABUF` (10_state.md R37). -/
  abuf : Memory
  /-- The device's next answers, oldest first (20_memory.md R66; log 2). -/
  rx : List Byte
  /-- Byte exchanges made so far; indexes the device's unscripted answers (log 2). -/
  xfers : Nat
  /-- Free values drawn so far (log 6). -/
  draws : Nat
  /-- The bus event trace, oldest first (20_memory.md R85). -/
  trace : List Event
  /-- The host layer. -/
  host : Session
  /-- The host's schedule, next entry first (10_state.md R46). -/
  inbox : List Input
deriving DecidableEq, Repr

/-- The machine stops with a fault. Both reasons are the host's own sequences': "this spec gives no meaning to a
run in which `L > 7`, in which `7 + L > PLEN`, or in which a sequence reads `P[i]` with `i >= PLEN`: a model should
fault such a run" (45_command_session.md R211). The block itself never faults. -/
inductive Fault where
  /-- Raised by the readers of a firmware or enumeration response at `P[i]` with `i >= PLEN`. Safe. -/
  | readBeyondPayload
  /-- Raised by the reader of an enumeration response when `P[6] > 7`. Safe. -/
  | identifierTooLong
deriving DecidableEq, Repr

/-- A request to which the spec gives no meaning. -/
inductive Refusal where
  /-- Raised by an arm of `exec` whose instruction has no meaning yet. Safe. -/
  | notModelled (mnemonic : String)
  /-- Raised by every meaning and by a request while `BUSY = 1` (10_state.md R43). Safe. -/
  | requestWhileBusy
  /-- Raised where `CLEN > CMD_MAX` would be read (10_state.md R43). Safe. -/
  | clenOutOfRange
  /-- Raised where `MAXLEN > RXCAP` would be read (10_state.md R43). Safe. -/
  | maxlenOutOfRange
  /-- Raised by a host write while `BUSY = 1` (10_state.md R21, 70_reset_and_hazards.md R275). Safe. -/
  | writeWhileBusy
  /-- Raised by a host access to a buffer at an index outside it, which "has no meaning" (20_memory.md R62). Safe. -/
  | indexOutsideBuffer
  /-- Raised by `step` on a word that is no instruction of its format. Safe. -/
  | undecodable (why : Reject)
deriving DecidableEq, Repr

/-- The parameters the host starts with: `ACK_POLICY`, `SAM_MODE_NORMAL`, `SAM_IRQ_ON` as in 00_scope.md R7, the
others chosen (log 14). -/
def Params.reset : Params :=
  { ackPolicy := .continue, maxlenFw := 5, maxlenSam := 1, maxlenEnum := 14
    samMode := Config.samModeNormal, samIrq := Config.samIrqOn, cardType := 0 }

/-- The host layer before anything has run (log 25). -/
def Session.reset : Session :=
  { params := Params.reset, version := 0, samOk := false, found := false, ident := [], identLen := 0, readData := 0 }

/-- The machine right after reset: the table of 10_state.md R48. Operand registers (log 4) and working registers
(log 5) are unspecified there and 0 here; no buffer byte is listed (log 6). -/
def State.reset : State :=
  { opsel := 0, timeout := 0, maxlen := 0, clen := 0
    busy := false, ok := false, err := .none, plen := 0
    cs := false
    csum := 0, len := 0, lcsr := 0, dirr := 0, statb := 0, idx := 0, elapsed := 0
    phase := .idle
    cbuf := [], pbuf := [], abuf := []
    rx := [], xfers := 0, draws := 0, trace := []
    host := Session.reset, inbox := [] }

end Sys2Proof.Machine
end

