-- ==== Sys2Proof/Machine/Ops.lean ====
section
/-! DEFINITION. Machine/Ops.lean: the primitives of 00_scope.md R12 over buffers, chip-select and the bus, the
acceptance and completion of an operation, and the failure exit. -/

namespace Sys2Proof.Machine

/-! Buffers (20_memory.md R62). -/

/-- What index `i` holds; `none` where the spec fixes no value (10_state.md R47). -/
def Memory.read : Memory → Nat → Option Byte
  | [], _ => none
  | (k, b) :: m, i => if i = k then some b else Memory.read m i

/-- `MemWrite(B+i, 1, v)`, keeping indices strictly rising (20_memory.md R62). -/
def Memory.write : Memory → Nat → Byte → Memory
  | [], i, v => [(i, v)]
  | (k, b) :: m, i, v =>
    if i < k then (i, v) :: (k, b) :: m
    else if i = k then (k, v) :: m
    else (k, b) :: Memory.write m i v

/-- Every index of `m` is at least `lo` and they rise strictly. -/
def Memory.rising : Nat → Memory → Bool
  | _, [] => true
  | lo, (k, _) :: m => decide (lo ≤ k) && Memory.rising (k + 1) m

/-- Every index of `m` lies inside a buffer of `cap` bytes. -/
def Memory.within (cap : Nat) (m : Memory) : Bool := m.all fun c => decide (c.1 < cap)

/-- The canonical form of a buffer of `cap` bytes: indices strictly rising and inside it. No entry equals what an
unlisted index holds, since that is no value. -/
def Memory.wf (cap : Nat) (m : Memory) : Bool := Memory.rising 0 m && Memory.within cap m

/-- The host writes `bytes` to a buffer from index `i` on. -/
def Memory.writeAll : Memory → Nat → List Byte → Memory
  | m, _, [] => m
  | m, i, b :: bs => Memory.writeAll (Memory.write m i b) (i + 1) bs

/-- A free value, for what the spec leaves unspecified (10_state.md R47; log 6). -/
def freeDraw (s : State) : Byte × State := (Config.freeByte s.draws, { s with draws := s.draws + 1 })

/-- `MemRead(B+i, 1)` of the buffer contents `m`; a free value where nothing is listed (20_memory.md R62, 10_state.md R47). -/
def memRead (m : Memory) (i : Nat) (s : State) : Byte × State :=
  match Memory.read m i with
  | some b => (b, s)
  | none => freeDraw s

/-! Chip-select and the bus (20_memory.md R64 to R70). -/

/-- Append an event to the trace (20_memory.md R85). -/
def emit (e : Event) (s : State) : State := { s with trace := s.trace ++ [e] }

/-- `CsAssert()` (20_memory.md R64). -/
def csAssert (s : State) : State := emit .csAssert { s with cs := true }

/-- `CsRelease()` (20_memory.md R65). -/
def csRelease (s : State) : State := emit .csRelease { s with cs := false }

/-- `CsRelease()` if chip-select is asserted (60_exceptions.md R236). -/
def csReleaseIfAsserted (s : State) : State := if s.cs then csRelease s else s

/-- The byte the device answers in the next exchange (20_memory.md R66; log 2). -/
def deviceAnswer (s : State) : Byte :=
  match s.rx with
  | b :: _ => b
  | [] => Config.deviceByte s.xfers

/-- `BusXfer`: one exchange is made and its answer is used up (20_memory.md R66). -/
def exchanged (s : State) : State := { s with rx := s.rx.tail, xfers := s.xfers + 1 }

/-- `BusWrite(b)`: the byte received is thrown away (20_memory.md R67). -/
def busWrite (b : Byte) (s : State) : State := emit (.write b) (exchanged s)

/-- `BusRead()`: `FILL` is sent and the answer returned (20_memory.md R68). -/
def busRead (s : State) : Byte × State := (deviceAnswer s, emit (.read (deviceAnswer s)) (exchanged s))

/-- The byte the block sends in the exchange of an event, if it is one: `FILL` in a read (20_memory.md R67, R68). -/
def Event.sent : Event → Option Byte
  | .write b => some b
  | .read _ => some Config.fill
  | .csAssert | .csRelease | .settle | .delay _ => none

/-- `Settle()` (20_memory.md R69). -/
def settle (s : State) : State := emit .settle s

/-- `Delay(n)` (20_memory.md R70). -/
def delay (n : Nat) (s : State) : State := emit (.delay n) s

/-- `STATB <- BusRead()` (20_memory.md R72). -/
def readStatus (s : State) : State := { (busRead s).2 with statb := (busRead s).1 }

/-- `StatusProbe()`: `CS- W 02 R ss CS+` (20_memory.md R72). -/
def statusProbe (s : State) : State := csRelease (readStatus (busWrite Config.mStatus (csAssert s)))

/-- The counted loops over `CBUF`, `ABUF` and `PBUF` (60_exceptions.md R238). -/
def iter : Nat → (State → State) → State → State
  | 0, _, s => s
  | n + 1, f, s => iter n f (f s)

/-! Acceptance, completion, and the failure exit (10_state.md R43, R44, 60_exceptions.md R236). -/

/-- `<operation>.1` (10_state.md R43): the poller's first step where the operation begins with it (R42). -/
def Operation.entry : Operation → Phase
  | .waitReady => .poll .waitReady .p1
  | .encodeSend => .encode .e1
  | .awaitAck => .poll .awaitAck .p1
  | .receive => .poll .receive .p1

/-- Acceptance of a request: `BUSY <- 1`, `PHASE <- <operation>.1` (10_state.md R43). -/
def accept (op : Operation) (s : State) : State := { s with busy := true, phase := op.entry }

/-- `OK <- 1; ERR <- NONE` (10_state.md R36). -/
def succeed (s : State) : State := { s with ok := true, err := .none }

/-- `OK <- 0; ERR <- E` (10_state.md R36). -/
def fail (e : ErrKind) (s : State) : State := { s with ok := false, err := e }

/-- What is unspecified once AWAIT_ACK has ended: all of `ABUF` (10_state.md R39; log 7). -/
def forgetAck (op : Operation) (s : State) : State := if op = .awaitAck then { s with abuf := [] } else s

/-- Completion: `PHASE <- IDLE`, `BUSY <- 0` (10_state.md R44). -/
def complete (op : Operation) (s : State) : State := { forgetAck op s with phase := .idle, busy := false }

/-- What a failed RECEIVE adds: `PLEN <- 0` and `PBUF` unspecified (60_exceptions.md R236; log 7). -/
def failReceive (op : Operation) (s : State) : State := if op = .receive then { s with plen := 0, pbuf := [] } else s

/-- The failure exit `raise E` of an operation (60_exceptions.md R236). There is no return from it: the block is
idle and takes the next request (60_exceptions.md R242). -/
def raise (op : Operation) (e : ErrKind) (s : State) : State :=
  complete op (failReceive op (fail e (csReleaseIfAsserted s)))

/-- Reset at any moment: the state of 10_state.md R48, chip-select released, no bus exchange (R49, R270). What lies
outside the block goes on: the trace, the device, the host layer and its schedule (log 20). -/
def resetBlock (s : State) : State :=
  { State.reset with
    trace := (csReleaseIfAsserted s).trace, rx := s.rx, xfers := s.xfers, draws := s.draws
    host := s.host, inbox := s.inbox }

end Sys2Proof.Machine
end

