-- ==== Sys2Proof/Machine/Operands.lean ====
section
/-! DEFINITION. Machine/Operands.lean: the operand registers: which operation `OPSEL` names, which operand values
are legal, and how a meaning is guarded by them (10_state.md R29 to R33, R43). -/

namespace Sys2Proof.Machine

/-- The code of an operation (10_state.md R30). -/
def Operation.code : Operation → BitVec 2
  | .waitReady => 0
  | .encodeSend => 1
  | .awaitAck => 2
  | .receive => 3

/-- The operation `OPSEL` names; all four codes are used (10_state.md R30). -/
def Operation.ofCode (c : BitVec 2) : Operation :=
  if c = 0 then .waitReady else if c = 1 then .encodeSend else if c = 2 then .awaitAck else .receive

/-- The operation an instruction is, if it is a row of the `OP` format (30_encoding.md R103). -/
def operationOf : Instr → Option Operation
  | .waitReady => some .waitReady
  | .encodeSend => some .encodeSend
  | .awaitAck => some .awaitAck
  | .receive => some .receive
  | .markerDataWrite | .markerStatusRead | .markerDataRead => none
  | .frameH2d _ _ _ | .frameD2h _ _ _ | .ack => none
  | .getFirmwareVersion | .configureSecurityModule | .enumeratePassiveTarget => none
  | .respFirmwareVersion | .respConfigureSecurityModule | .respEnumeratePassiveTarget => none

/-- The instruction of an operation. -/
def Operation.instr : Operation → Instr
  | .waitReady => .waitReady
  | .encodeSend => .encodeSend
  | .awaitAck => .awaitAck
  | .receive => .receive

/-- `CLEN` is legal: 0 to `CMD_MAX` (10_state.md R33). -/
def clenLegal (s : State) : Bool := decide (s.clen.toNat ≤ Config.cmdMax)

/-- `MAXLEN` is legal: 0 to `RXCAP` (10_state.md R32). -/
def maxlenLegal (s : State) : Bool := decide (s.maxlen.toNat ≤ Config.rxCap)

/-- The operands of an operation are legal (10_state.md R43). -/
def operandsLegal : Operation → State → Bool
  | .waitReady, _ => true
  | .encodeSend, s => clenLegal s
  | .awaitAck, _ => true
  | .receive, s => maxlenLegal s

/-- The three cases in which a request is refused (10_state.md R43); otherwise `k`. -/
def whenIdle (s : State) (k : Host.Outcome State Fault Refusal) : Host.Outcome State Fault Refusal :=
  if s.busy then .refused .requestWhileBusy else k

/-- `k` if `CLEN` is legal (10_state.md R43). -/
def whenClenLegal (s : State) (k : Host.Outcome State Fault Refusal) : Host.Outcome State Fault Refusal :=
  if clenLegal s then k else .refused .clenOutOfRange

/-- `k` if `MAXLEN` is legal (10_state.md R43). -/
def whenMaxlenLegal (s : State) (k : Host.Outcome State Fault Refusal) : Host.Outcome State Fault Refusal :=
  if maxlenLegal s then k else .refused .maxlenOutOfRange

/-- Acceptance of the operation `OPSEL` names, in one step, or its refusal (10_state.md R43). -/
def request (s : State) : Host.Outcome State Fault Refusal :=
  whenIdle s <|
    match Operation.ofCode s.opsel with
    | .waitReady => .next (accept .waitReady s)
    | .encodeSend => whenClenLegal s (.next (accept .encodeSend s))
    | .awaitAck => .next (accept .awaitAck s)
    | .receive => whenMaxlenLegal s (.next (accept .receive s))

end Sys2Proof.Machine
end

