-- ==== Sys2Proof/Machine/Flags.lean ====
section
/-! DEFINITION. Machine/Flags.lean: the one-bit conditions an operation tests, and the code of `ERR`. There are no
condition codes and no arithmetic flags (10_state.md R27). -/

namespace Sys2Proof.Machine

/-- The ready flag of a status byte: bit 0, the least significant (00_scope.md R9, 10_state.md R27). -/
def readyBit (status : Byte) : Bool := status.getLsbD 0

/-- `STATB[0] = 1` (41_ready_poller.md R131 step 3). -/
def ready (s : State) : Bool := readyBit s.statb

/-- `ELAPSED > zext_17(TIMEOUT)` (41_ready_poller.md R131 step 5). -/
def timedOut (s : State) : Bool := decide (s.timeout.setWidth 17 < s.elapsed)

/-- `LEN +8 LCSR = 0` (44_frame_decoder.md R171 step 8). -/
def headerLaw (s : State) : Bool := lengthLaw s.len s.lcsr

/-- `DIRR = DIR_D2H` (44_frame_decoder.md R171 step 10). -/
def fromDevice (s : State) : Bool := decide (s.dirr = Config.dirD2h)

/-- `LEN > MAXLEN` (44_frame_decoder.md R171 step 13). -/
def overCapacity (s : State) : Bool := decide (s.maxlen < s.len)

/-- `CSUM +8 c = 0` (44_frame_decoder.md R171 step 17). -/
def payloadLaw (c : Byte) (s : State) : Bool := dataLaw s.csum c

/-- `ABUF[0..5] = ACK_PATTERN`, all six bytes (43_ack_handshake.md R158). -/
def ackMatches (s : State) : Bool :=
  decide ((List.range Config.ackSize).map (Memory.read s.abuf) = Config.ackPattern.map some)

/-- The code of an error kind in `ERR` (10_state.md R35). -/
def ErrKind.code : ErrKind → BitVec 3
  | .none => 0
  | .timeout => 1
  | .checksumMismatch => 2
  | .unexpectedDirection => 3
  | .bufferTooSmall => 4
  | .handshakeMismatch => 5

end Sys2Proof.Machine
end

