-- ==== Sys2Proof/Machine/Encoder.lean ====
section
/-! DEFINITION. Machine/Encoder.lean: the data-write transaction and the operation ENCODE_SEND (42_frame_encoder.md). -/

namespace Sys2Proof.Machine

/-- Step 1: `LEN`. -/
def setLen (len : Byte) (s : State) : State := { s with len := len }

/-- Step 9: `BusWrite(neg8(LEN))`. -/
def writeLcs (s : State) : State := busWrite (lcsOf s.len) s

/-- Step 10: `BusWrite(DIR_H2D); CSUM <- DIR_H2D`. -/
def writeDir (s : State) : State := { busWrite Config.dirH2d s with csum := Config.dirH2d }

/-- `IDX <- 0`. -/
def clearIdx (s : State) : State := { s with idx := 0 }

/-- The rest of a pass of step 12: `BusWrite(b)`, `CSUM <- CSUM +8 b`, `IDX <- IDX + 1`. -/
def sendByte (b : Byte) (s : State) : State := { busWrite b s with csum := s.csum + b, idx := s.idx + 1 }

/-- A pass of step 12: `b <- MemRead(CBUF+IDX, 1)` and the rest. -/
def sendFromCbuf (s : State) : State :=
  let x := memRead s.cbuf s.idx.toNat s
  sendByte x.1 x.2

/-- Step 13: `BusWrite(neg8(CSUM))`. -/
def writeDcs (s : State) : State := busWrite (neg8 s.csum) s

/-- Steps 2 to 4: a data-write transaction opens with its settle delay and its marker (20_memory.md R73). -/
def openWrite (s : State) : State := busWrite Config.mWrite (settle (csAssert s))

/-- Steps 5 to 8: preamble, start code, `LEN`. -/
def writeStart (s : State) : State :=
  busWrite s.len (busWrite Config.start2 (busWrite Config.start1 (busWrite Config.preamble s)))

/-- Steps 1 to 11 for a frame whose length byte is `len`. -/
def startFrame (len : Byte) (s : State) : State :=
  clearIdx (writeDir (writeLcs (writeStart (openWrite (setLen len s)))))

/-- Steps 13 to 15: the data checksum, the postamble, chip-select released. -/
def endFrame (s : State) : State := csRelease (busWrite Config.postamble (writeDcs s))

/-- Step 12 for bytes already in hand. -/
def sendBytes : List Byte → State → State
  | [], s => s
  | b :: bs, s => sendBytes bs (sendByte b s)

/-- The data-write transaction that carries the frame of `payload` (20_memory.md R73, 30_encoding.md R91). -/
def sendFrame (payload : List Byte) (s : State) : State := endFrame (sendBytes payload (startFrame (lenOf payload) s))

/-- The data-write transaction that carries the frame of `CBUF[0..CLEN-1]`: steps 1 to 15. -/
def sendCommand (s : State) : State := endFrame (iter s.clen.toNat sendFromCbuf (startFrame (s.clen + 1) s))

/-- ENCODE_SEND, from request to completion (42_frame_encoder.md R141). -/
def encodeSend (s : State) : State := complete .encodeSend (succeed (sendCommand s))

/-- ENCODE_SEND. -/
def execEncodeSend (s : State) : Host.Outcome State Fault Refusal :=
  whenIdle s (whenClenLegal s (.next (encodeSend s)))

end Sys2Proof.Machine
end

