-- ==== Sys2Proof/Machine/Poller.lean ====
section
/-! DEFINITION. Machine/Poller.lean: the subroutine `WaitReady` and the operation WAIT_READY (41_ready_poller.md). -/

namespace Sys2Proof.Machine

/-- Step 1: `ELAPSED <- 0`. -/
def clearElapsed (s : State) : State := { s with elapsed := 0 }

/-- Step 4: `ELAPSED <- ELAPSED + POLL_INTERVAL`, 17 bits. -/
def addInterval (s : State) : State := { s with elapsed := s.elapsed + BitVec.ofNat 17 Config.pollInterval }

/-- The most probes one wait can make: `floor(TIMEOUT / 10) + 1` (41_ready_poller.md R133). -/
def probeBudget (s : State) : Nat := s.timeout.toNat / Config.pollInterval + 1

/-- Steps 2 to 7: the loop of `WaitReady`, at most `n` probes; the boolean is its answer (41_ready_poller.md R131). -/
def pollLoop : Nat → State → Bool × State
  | 0, s => (false, s)
  | n + 1, s =>
    let probed := statusProbe s
    if ready probed then (true, probed)
    else
      let counted := addInterval probed
      if timedOut counted then (false, counted) else pollLoop n (delay Config.pollInterval counted)

/-- `WaitReady(TIMEOUT)` (41_ready_poller.md R131). The budget of R133 never cuts the loop short. -/
def pollReady (s : State) : Bool × State := pollLoop (probeBudget s) (clearElapsed s)

/-- Step 2 of WAIT_READY: both outcomes are written directly, neither is a failure exit (41_ready_poller.md R132). -/
def recordPoll (r : Bool) (s : State) : State := if r then succeed s else fail .timeout s

/-- WAIT_READY, from request to completion (41_ready_poller.md R131). -/
def waitReady (s : State) : State := complete .waitReady (recordPoll (pollReady s).1 (pollReady s).2)

/-- WAIT_READY. -/
def execWaitReady (s : State) : Host.Outcome State Fault Refusal := whenIdle s (.next (waitReady s))

end Sys2Proof.Machine
end

