-- ==== Sys2Proof/Machine/Handshake.lean ====
section
/-! DEFINITION. Machine/Handshake.lean: the acknowledgment's read transaction and the operation AWAIT_ACK
(43_ack_handshake.md). -/

namespace Sys2Proof.Machine

/-- A data-read transaction opens with its marker and no settle delay (20_memory.md R74). -/
def openRead (s : State) : State := busWrite Config.mRead (csAssert s)

/-- A pass of step 6: `MemWrite(ABUF+IDX, 1, BusRead())`, `IDX <- IDX + 1`. -/
def readAckByte (s : State) : State :=
  let x := busRead s
  { x.2 with abuf := Memory.write s.abuf s.idx.toNat x.1, idx := s.idx + 1 }

/-- Steps 3 to 7: all six bytes are read whatever the first ones are (43_ack_handshake.md R158). -/
def readAck (s : State) : State := csRelease (iter Config.ackSize readAckByte (clearIdx (openRead s)))

/-- Steps 8 to 10: the comparison, made after the transaction is closed (43_ack_handshake.md R158). -/
def judgeAck (s : State) : State :=
  if ackMatches s then complete .awaitAck (succeed s) else raise .awaitAck .handshakeMismatch s

/-- AWAIT_ACK, from request to completion (43_ack_handshake.md R156). -/
def awaitAck (s : State) : State :=
  let r := pollReady s
  if r.1 then judgeAck (readAck r.2) else raise .awaitAck .timeout r.2

/-- AWAIT_ACK. -/
def execAwaitAck (s : State) : Host.Outcome State Fault Refusal := whenIdle s (.next (awaitAck s))

end Sys2Proof.Machine
end

