-- ==== Sys2Proof/Machine/Decoder.lean ====
section
/-! DEFINITION. Machine/Decoder.lean: the response frame's read transaction and the operation RECEIVE
(44_frame_decoder.md). -/

namespace Sys2Proof.Machine

/-- One of the three reads of step 5, and the read of step 18: the byte is dropped (44_frame_decoder.md R175, R182). -/
def skipByte (s : State) : State := (busRead s).2

/-- Step 6: `LEN <- BusRead()`. -/
def readLen (s : State) : State := { (busRead s).2 with len := (busRead s).1 }

/-- Step 7: `LCSR <- BusRead()`. -/
def readLcs (s : State) : State := { (busRead s).2 with lcsr := (busRead s).1 }

/-- Step 9: `DIRR <- BusRead()`. -/
def readDir (s : State) : State := { (busRead s).2 with dirr := (busRead s).1 }

/-- Step 12: `LEN <- LEN - 1`. -/
def dropDir (s : State) : State := { s with len := s.len - 1 }

/-- Step 14: `CSUM <- DIR_D2H; IDX <- 0`. -/
def seedPayload (s : State) : State := { s with csum := Config.dirD2h, idx := 0 }

/-- A pass of step 15. -/
def readPayloadByte (s : State) : State :=
  let x := busRead s
  { x.2 with pbuf := Memory.write s.pbuf s.idx.toNat x.1, csum := s.csum + x.1, idx := s.idx + 1 }

/-- Steps 15 to 19 inside the transaction; an error kind where step 17 fails (44_frame_decoder.md R180 to R182). -/
def readBody (s : State) : Option ErrKind × State :=
  let loaded := iter s.len.toNat readPayloadByte s
  let x := busRead loaded
  if payloadLaw x.1 x.2 then (none, csRelease (skipByte x.2)) else (some .checksumMismatch, x.2)

/-- Steps 11 to 19 (44_frame_decoder.md R178, R179). -/
def readCounted (s : State) : Option ErrKind × State :=
  if s.len = 0 then (some .bufferTooSmall, s)
  else if overCapacity (dropDir s) then (some .bufferTooSmall, dropDir s)
  else readBody (seedPayload (dropDir s))

/-- Steps 9 to 19 (44_frame_decoder.md R177). -/
def readDirected (s : State) : Option ErrKind × State :=
  let s := readDir s
  if fromDevice s then readCounted s else (some .unexpectedDirection, s)

/-- Steps 3 to 19: the checks in their order, the first that fails ends the reading with its kind
(44_frame_decoder.md R184). Chip-select is released on success and still asserted on failure. -/
def readFrame (s : State) : Option ErrKind × State :=
  let s := readLcs (readLen (skipByte (skipByte (skipByte (openRead s)))))
  if headerLaw s then readDirected s else (some .checksumMismatch, s)

/-- Steps 20 and 21, or the failure exit (44_frame_decoder.md R172). -/
def judgeFrame (x : Option ErrKind × State) : State :=
  match x.1 with
  | none => complete .receive (succeed { x.2 with plen := x.2.len })
  | some e => raise .receive e x.2

/-- RECEIVE, from request to completion (44_frame_decoder.md R171). -/
def receive (s : State) : State :=
  let r := pollReady s
  if r.1 then judgeFrame (readFrame r.2) else raise .receive .timeout r.2

/-- RECEIVE. -/
def execReceive (s : State) : Host.Outcome State Fault Refusal :=
  whenIdle s (whenMaxlenLegal s (.next (receive s)))

end Sys2Proof.Machine
end

