-- ==== Sys2Proof/Machine/Sequencer.lean ====
section
/-! DEFINITION. Machine/Sequencer.lean: the sequencer, one numbered step at a time (10_state.md R40 to R44): what
runs while `BUSY = 1` after a request. Each step's effect is the one the whole operation is made of; here only the
moves of `PHASE` are added. -/

namespace Sys2Proof.Machine

/-- `PHASE <- p` (00_scope.md R12). -/
def goTo (p : Phase) (s : State) : State := { s with phase := p }

/-- A step of the poller (41_ready_poller.md R131). -/
def pollStep (p : Poller) : PollStep → State → State
  | .p1, s => goTo (.poll p .p2a) (clearElapsed s)
  | .p2a, s => goTo (.poll p .p2b) (csAssert s)
  | .p2b, s => goTo (.poll p .p2c) (busWrite Config.mStatus s)
  | .p2c, s => goTo (.poll p .p2d) (readStatus s)
  | .p2d, s => goTo (.poll p .p3) (csRelease s)
  | .p3, s => goTo (if ready s then .polled p true else .poll p .p4) s
  | .p4, s => goTo (.poll p .p5) (addInterval s)
  | .p5, s => goTo (if timedOut s then .polled p false else .poll p .p6) s
  | .p6, s => goTo (.poll p .p7) (delay Config.pollInterval s)
  | .p7, s => goTo (.poll p .p2a) s

/-- Step 2 of the three operations that poll (R131, 43_ack_handshake.md R156, 44_frame_decoder.md R171). -/
def polledStep : Poller → Bool → State → State
  | .waitReady, r, s => goTo .waitReady3 (recordPoll r s)
  | .awaitAck, true, s => goTo (.ack .a3) s
  | .awaitAck, false, s => raise .awaitAck .timeout s
  | .receive, true, s => goTo (.receive .r3) s
  | .receive, false, s => raise .receive .timeout s

/-- A step of ENCODE_SEND (42_frame_encoder.md R141); each pass of step 12 is one value of `PHASE`. -/
def encodeStep : EncodeStep → State → State
  | .e1, s => goTo (.encode .e2) (setLen (s.clen + 1) s)
  | .e2, s => goTo (.encode .e3) (csAssert s)
  | .e3, s => goTo (.encode .e4) (settle s)
  | .e4, s => goTo (.encode .e5) (busWrite Config.mWrite s)
  | .e5, s => goTo (.encode .e6) (busWrite Config.preamble s)
  | .e6, s => goTo (.encode .e7) (busWrite Config.start1 s)
  | .e7, s => goTo (.encode .e8) (busWrite Config.start2 s)
  | .e8, s => goTo (.encode .e9) (busWrite s.len s)
  | .e9, s => goTo (.encode .e10) (writeLcs s)
  | .e10, s => goTo (.encode .e11) (writeDir s)
  | .e11, s => goTo (.encode .e12) (clearIdx s)
  | .e12, s => if s.idx < s.clen then goTo (.encode .e12) (sendFromCbuf s) else goTo (.encode .e13) s
  | .e13, s => goTo (.encode .e14) (writeDcs s)
  | .e14, s => goTo (.encode .e15) (busWrite Config.postamble s)
  | .e15, s => goTo (.encode .e16) (csRelease s)
  | .e16, s => goTo (.encode .e17) (succeed s)
  | .e17, s => complete .encodeSend s

/-- A step of AWAIT_ACK (43_ack_handshake.md R156). -/
def ackStep : AckStep → State → State
  | .a3, s => goTo (.ack .a4) (csAssert s)
  | .a4, s => goTo (.ack .a5) (busWrite Config.mRead s)
  | .a5, s => goTo (.ack .a6) (clearIdx s)
  | .a6, s => if s.idx.toNat < Config.ackSize then goTo (.ack .a6) (readAckByte s) else goTo (.ack .a7) s
  | .a7, s => goTo (.ack .a8) (csRelease s)
  | .a8, s => if ackMatches s then goTo (.ack .a9) s else raise .awaitAck .handshakeMismatch s
  | .a9, s => goTo (.ack .a10) (succeed s)
  | .a10, s => complete .awaitAck s

/-- A step of RECEIVE (44_frame_decoder.md R171). -/
def receiveStep : ReceiveStep → State → State
  | .r3, s => goTo (.receive .r4) (csAssert s)
  | .r4, s => goTo (.receive .r5a) (busWrite Config.mRead s)
  | .r5a, s => goTo (.receive .r5b) (skipByte s)
  | .r5b, s => goTo (.receive .r5c) (skipByte s)
  | .r5c, s => goTo (.receive .r6) (skipByte s)
  | .r6, s => goTo (.receive .r7) (readLen s)
  | .r7, s => goTo (.receive .r8) (readLcs s)
  | .r8, s => if headerLaw s then goTo (.receive .r9) s else raise .receive .checksumMismatch s
  | .r9, s => goTo (.receive .r10) (readDir s)
  | .r10, s => if fromDevice s then goTo (.receive .r11) s else raise .receive .unexpectedDirection s
  | .r11, s => if s.len = 0 then raise .receive .bufferTooSmall s else goTo (.receive .r12) s
  | .r12, s => goTo (.receive .r13) (dropDir s)
  | .r13, s => if overCapacity s then raise .receive .bufferTooSmall s else goTo (.receive .r14) s
  | .r14, s => goTo (.receive .r15) (seedPayload s)
  | .r15, s => if s.idx < s.len then goTo (.receive .r15) (readPayloadByte s) else goTo (.receive .r16) s
  | .r16, s => goTo (.receive (.r17 (busRead s).1)) (busRead s).2
  | .r17 c, s => if payloadLaw c s then goTo (.receive .r18) s else raise .receive .checksumMismatch s
  | .r18, s => goTo (.receive .r19) (skipByte s)
  | .r19, s => goTo (.receive .r20) (csRelease s)
  | .r20, s => goTo (.receive .r21) (succeed { s with plen := s.len })
  | .r21, s => complete .receive s

/-- The numbered step `PHASE` names (10_state.md R41); in `IDLE` the block waits for a request (R48). -/
def seqStep (s : State) : State :=
  match s.phase with
  | .idle => s
  | .poll p k => pollStep p k s
  | .polled p r => polledStep p r s
  | .waitReady3 => complete .waitReady s
  | .encode k => encodeStep k s
  | .ack k => ackStep k s
  | .receive k => receiveStep k s

end Sys2Proof.Machine
end

