-- ==== Sys2Proof/Machine/Port.lean ====
section
/-! DEFINITION. Machine/Port.lean: what the host does at the port: writes of operand registers and of `CBUF`, reads
of result registers and of `PBUF` (10_state.md R21, R43, R47). -/

namespace Sys2Proof.Machine

/-- The effect of a host write (10_state.md R29, R37). -/
def hostWrite : HostWrite → State → Host.Outcome State Fault Refusal
  | .opsel v, s => .next { s with opsel := v }
  | .timeout v, s => .next { s with timeout := v }
  | .maxlen v, s => .next { s with maxlen := v }
  | .clen v, s => .next { s with clen := v }
  | .cbuf i v, s =>
    if i < Config.cmdMax then .next { s with cbuf := Memory.write s.cbuf i v } else .refused .indexOutsideBuffer

/-- A host write: "only while `BUSY = 0`" (10_state.md R21; log 10). -/
def portWrite (w : HostWrite) (s : State) : Host.Outcome State Fault Refusal :=
  if s.busy then .refused .writeWhileBusy else hostWrite w s

/-- The read value is the host's. -/
def latch (x : Byte × State) : State := { x.2 with host := { x.2.host with readData := x.1 } }

/-- A bit as the byte the host reads. -/
def bitByte (b : Bool) : Byte := if b then 1 else 0

/-- A result that may be read while `BUSY = 0` only; meanwhile "what it would read is unspecified", a free value
(10_state.md R21; log 9). -/
def readResult (v : Byte) (s : State) : State := latch (if s.busy then freeDraw s else (v, s))

/-- The host reads a register or a byte of `PBUF`; a byte nothing specifies is a free value (10_state.md R21, R34, R47). -/
def portRead (r : HostRead) (s : State) : Host.Outcome State Fault Refusal :=
  match r with
  | .busy => .next (latch (bitByte s.busy, s))
  | .ok => .next (readResult (bitByte s.ok) s)
  | .err => .next (readResult (s.err.code.setWidth 8) s)
  | .plen => .next (readResult s.plen s)
  | .pbuf i =>
    if i < Config.rxCap then .next (latch (if s.busy then freeDraw s else memRead s.pbuf i s))
    else .refused .indexOutsideBuffer

/-- The host chooses the parameters of its sequences. -/
def setParams (p : Params) (s : State) : State := { s with host := { s.host with params := p } }

/-- The host waits for `BUSY = 0`: while it is 1 the block goes on and the host still waits (30_encoding.md R111). -/
def awaitIdle (s : State) : State :=
  if s.busy then { seqStep s with inbox := .awaitIdle :: s.inbox } else s

/-- What a word does to the operand registers before it runs: an `OP` word is the host's write of `OPSEL`
(30_encoding.md R103, R111). -/
def latchOpsel (i : Instr) (s : State) : State :=
  match operationOf i with
  | some op => { s with opsel := op.code }
  | none => s

/-- The response a row is, by its code, if it is one (30_encoding.md R104). -/
def responseCode : Instr → Option Byte
  | .respFirmwareVersion => some 0x03
  | .respConfigureSecurityModule => some 0x15
  | .respEnumeratePassiveTarget => some 0x4B
  | .waitReady | .encodeSend | .awaitAck | .receive => none
  | .markerDataWrite | .markerStatusRead | .markerDataRead => none
  | .frameH2d _ _ _ | .frameD2h _ _ _ | .ack => none
  | .getFirmwareVersion | .configureSecurityModule | .enumeratePassiveTarget => none

/-- What else a word needs in place to be fetched. A response stands in `PBUF`: its code, its other bytes 0 up to
the longest response of 14 bytes, `PLEN` its length, the last operation having succeeded (45_command_session.md R203;
log 17). -/
def placeOperands (i : Instr) (s : State) : State :=
  match responseCode i with
  | some code =>
    { s with pbuf := Memory.writeAll [] 0 (code :: List.replicate 13 0), plen := 14, ok := true, err := .none }
  | none => s

end Sys2Proof.Machine
end

