-- ==== Sys2Proof/Machine/Transactions.lean ====
section
/-! DEFINITION. Machine/Transactions.lean: the meanings of the rows that stand on the wire. A `MARKER` row is the
bus transaction that its byte opens, without the operation around it (20_memory.md R71 to R75; log 11). A `FRAME` or
`ACK` row is the frame handled in its transaction and completed by the operation that handles it, the poller having
answered true (30_encoding.md R92; log 13). -/

namespace Sys2Proof.Machine

/-- MARKER_STATUS_READ: the status transaction (20_memory.md R72). -/
def execMarkerStatusRead (s : State) : Host.Outcome State Fault Refusal := whenIdle s (.next (statusProbe s))

/-- MARKER_DATA_WRITE: the data-write transaction, carrying the frame of `CBUF[0..CLEN-1]` (20_memory.md R73). -/
def execMarkerDataWrite (s : State) : Host.Outcome State Fault Refusal :=
  whenIdle s (whenClenLegal s (.next (sendCommand s)))

/-- The data-read transaction: "how many bytes are read is decided by the operation" (20_memory.md R74), here the one
`OPSEL` names; an operation that reads no frame wants no byte (log 12). -/
def dataRead : Operation → State → State
  | .waitReady, s => csRelease (openRead s)
  | .encodeSend, s => csRelease (openRead s)
  | .awaitAck, s => readAck s
  | .receive, s => csReleaseIfAsserted (readFrame s).2

/-- MARKER_DATA_READ: the data-read transaction (20_memory.md R74). -/
def execMarkerDataRead (s : State) : Host.Outcome State Fault Refusal :=
  whenIdle s <|
    match Operation.ofCode s.opsel with
    | .receive => whenMaxlenLegal s (.next (dataRead .receive s))
    | op => .next (dataRead op s)

/-- The device answers `bytes` in the next read transaction, after one discarded byte for its marker. -/
def withAnswers (bytes : List Byte) (s : State) : State := { s with rx := 0 :: bytes ++ s.rx }

/-- Whatever of a given frame was not read is the device's to keep or drop: its further answers are again `further`,
or what is left of them (44_frame_decoder.md R183; log 13). -/
def dropUnread (further : List Byte) (s : State) : State := { s with rx := s.rx.drop (s.rx.length - further.length) }

/-- A ready device gives `frame` in a read transaction and RECEIVE judges it: steps 3 to 21 (44_frame_decoder.md
R171). -/
def frameJudged (frame : List Byte) (s : State) : State := dropUnread s.rx (judgeFrame (readFrame (withAnswers frame s)))

/-- FRAME_H2D: a frame as ENCODE_SEND sends it is sent in a data-write transaction and completed (30_encoding.md R91,
R92, 42_frame_encoder.md R141 to R143). One that no encoder sends can only come from a device, and RECEIVE judges it
(44_frame_decoder.md R187; log 13). -/
def execFrameH2d (len lcs : Byte) (body : List Byte) (s : State) : Host.Outcome State Fault Refusal :=
  whenIdle s <|
    match hostPayload len lcs body with
    | some payload => .next (complete .encodeSend (succeed (sendFrame payload s)))
    | none => whenMaxlenLegal s (.next (frameJudged (encode (.frameH2d len lcs body)) s))

/-- FRAME_D2H: a ready device gives this frame in a read transaction and RECEIVE judges it (44_frame_decoder.md R171,
R187). -/
def execFrameD2h (len lcs : Byte) (body : List Byte) (s : State) : Host.Outcome State Fault Refusal :=
  whenIdle s (whenMaxlenLegal s (.next (frameJudged (encode (.frameD2h len lcs body)) s)))

/-- ACK: a ready device gives the acknowledgment frame in a read transaction and AWAIT_ACK compares it: steps 3
to 10 (43_ack_handshake.md R156, R162). -/
def execAck (s : State) : Host.Outcome State Fault Refusal :=
  whenIdle s (.next (judgeAck (readAck (withAnswers (encode .ack) s))))

end Sys2Proof.Machine
end

