-- ==== Sys2Proof/Machine/Session.lean ====
section
/-! DEFINITION. Machine/Session.lean: the host's three sequences and its readings of the responses
(45_command_session.md), a layer above the block: the rows of the `CMD` format. -/

namespace Sys2Proof.Machine

/-- The command bytes of `query_firmware_version` (45_command_session.md R204). -/
def firmwareCommand : List Byte := [0x02]

/-- The command bytes of `configure_security_module` (45_command_session.md R207). -/
def samCommand (p : Params) : List Byte := [0x14, p.samMode, Config.samTimeout, p.samIrq]

/-- The command bytes of `enumerate_passive_target` (45_command_session.md R208). -/
def enumCommand (p : Params) : List Byte := [0x4A, 0x01, p.cardType]

/-- Step 1 of `Exchange`, the host's part: command buffer, `CLEN`, `OPSEL` (45_command_session.md R201). -/
def loadCommand (cmd : List Byte) (s : State) : State :=
  { s with cbuf := Memory.writeAll s.cbuf 0 cmd, clen := BitVec.ofNat 8 cmd.length, opsel := Operation.encodeSend.code }

/-- Step 2 of `Exchange`, the host's part. -/
def loadAck (s : State) : State := { s with timeout := Config.ackTimeout, opsel := Operation.awaitAck.code }

/-- Step 4 of `Exchange`, the host's part. -/
def loadReceive (maxLen : BitVec 8) (s : State) : State :=
  { s with maxlen := maxLen, timeout := Config.respTimeout, opsel := Operation.receive.code }

/-- Steps 1 and 2 of `Exchange`: the command is sent and the handshake awaited. -/
def sendAndAwait (cmd : List Byte) (s : State) : State := awaitAck (loadAck (encodeSend (loadCommand cmd s)))

/-- `Exchange(cmd, max_len)` (45_command_session.md R201): the kind is `none` for `Ok(PBUF[0..PLEN-1])`. -/
def exchange (cmd : List Byte) (maxLen : BitVec 8) (s : State) : Except Refusal (ErrKind × State) :=
  let handshake := sendAndAwait cmd s
  if s.host.params.ackPolicy = .abort ∧ !handshake.ok then .ok (handshake.err, handshake)
  else
    let loaded := loadReceive maxLen handshake
    if maxlenLegal loaded then
      let done := receive loaded
      .ok (if done.ok then .none else done.err, done)
    else .error .maxlenOutOfRange

/-- `P[i]` of the last payload, for an `i` below `PLEN` (45_command_session.md R206, R209). -/
def payloadByte (i : Nat) (s : State) : Byte × State := memRead s.pbuf i s

/-- `P[from..from+n-1]`, in order. -/
def payloadBytes : Nat → Nat → State → List Byte × State
  | _, 0, s => ([], s)
  | i, n + 1, s =>
    let x := payloadByte i s
    let rest := payloadBytes (i + 1) n x.2
    (x.1 :: rest.1, rest.2)

/-- The big-endian word of four bytes (45_command_session.md R206). -/
def word32 : List Byte → BitVec 32
  | [ic, ver, rev, support] => ic ++ ver ++ rev ++ support
  | _ => 0

/-- `V` of a firmware response: the bytes at offsets 1 to 4; `P[0]` is skipped (45_command_session.md R206). -/
def readVersion (s : State) : Host.Outcome State Fault Refusal :=
  if s.plen.toNat < 5 then .fault .readBeyondPayload
  else
    let x := payloadBytes 1 4 s
    .next { x.2 with host := { x.2.host with version := word32 x.1 } }

/-- The sentinel zero value of a firmware query that failed (45_command_session.md R205). -/
def versionUnknown (s : State) : State := { s with host := { s.host with version := 0 } }

/-- `configure_security_module` succeeded or failed (45_command_session.md R207). -/
def recordSam (ok : Bool) (s : State) : State := { s with host := { s.host with samOk := ok } }

/-- `found = false`, nothing copied (45_command_session.md R208 to R210). -/
def notFound (s : State) : State := { s with host := { s.host with found := false } }

/-- `found = true` and the identifier copied out (45_command_session.md R209). -/
def foundTarget (n : Byte) (ident : List Byte) (s : State) : State :=
  { s with host := { s.host with found := true, ident := ident, identLen := n } }

/-- The identifier of an enumeration response: its length at `P[6]`, its bytes from `P[7]` (45_command_session.md
R209); lengths to which R211 gives no meaning fault. -/
def readIdentifier (s : State) : Host.Outcome State Fault Refusal :=
  if s.plen.toNat < 7 then .fault .readBeyondPayload
  else
    let l := payloadByte 6 s
    if Config.idMax < l.1.toNat then .fault .identifierTooLong
    else if s.plen.toNat < 7 + l.1.toNat then .fault .readBeyondPayload
    else
      let x := payloadBytes 7 l.1.toNat l.2
      .next (foundTarget l.1 x.1 x.2)

/-- `P[1]`, the target count, "equals exactly 1" (45_command_session.md R209). -/
def readTargetCount (s : State) : Host.Outcome State Fault Refusal :=
  if s.plen.toNat < 2 then .fault .readBeyondPayload
  else
    let x := payloadByte 1 s
    if x.1 = 0x01 then readIdentifier x.2 else .next (notFound x.2)

/-- `P[0]`, the response code, and what follows it, read one after the other (45_command_session.md R209; log 16). -/
def readTarget (s : State) : Host.Outcome State Fault Refusal :=
  if s.plen.toNat < 1 then .fault .readBeyondPayload
  else
    let x := payloadByte 0 s
    if x.1 = 0x4B then readTargetCount x.2 else .next (notFound x.2)

/-- GET_FIRMWARE_VERSION: `query_firmware_version()` (45_command_session.md R204 to R206). -/
def execGetFirmwareVersion (s : State) : Host.Outcome State Fault Refusal :=
  whenIdle s <|
    match exchange firmwareCommand s.host.params.maxlenFw s with
    | .error r => .refused r
    | .ok (.none, t) => readVersion t
    | .ok (_, t) => .next (versionUnknown t)

/-- CONFIGURE_SECURITY_MODULE: `configure_security_module()` (45_command_session.md R207). -/
def execConfigureSecurityModule (s : State) : Host.Outcome State Fault Refusal :=
  whenIdle s <|
    match exchange (samCommand s.host.params) s.host.params.maxlenSam s with
    | .error r => .refused r
    | .ok (e, t) => .next (recordSam (decide (e = .none)) t)

/-- ENUMERATE_PASSIVE_TARGET: `enumerate_passive_target(card_type)` (45_command_session.md R208 to R210). -/
def execEnumeratePassiveTarget (s : State) : Host.Outcome State Fault Refusal :=
  whenIdle s <|
    match exchange (enumCommand s.host.params) s.host.params.maxlenEnum s with
    | .error r => .refused r
    | .ok (.none, t) => readTarget t
    | .ok (_, t) => .next (notFound t)

/-- RESP_FIRMWARE_VERSION: the host reads the version word from `PBUF[0..PLEN-1]` (45_command_session.md R206; log 15). -/
def execRespFirmwareVersion (s : State) : Host.Outcome State Fault Refusal := whenIdle s (readVersion s)

/-- RESP_CONFIGURE_SECURITY_MODULE: the payload is not looked at; absence of error is success
(45_command_session.md R207, 30_encoding.md R104; log 15). -/
def execRespConfigureSecurityModule (s : State) : Host.Outcome State Fault Refusal :=
  whenIdle s (.next (recordSam s.ok s))

/-- RESP_ENUMERATE_PASSIVE_TARGET: the host validates `PBUF[0..PLEN-1]` and copies the identifier out
(45_command_session.md R209; log 15). -/
def execRespEnumeratePassiveTarget (s : State) : Host.Outcome State Fault Refusal := whenIdle s (readTarget s)

end Sys2Proof.Machine
end

