-- ==== Sys2Proof/Machine/Dispatch.lean ====
section
/-! DEFINITION. Machine/Dispatch.lean: one arm per instruction, each a call of its meaning. -/

namespace Sys2Proof.Machine

def exec (i : Instr) (s : State) : Host.Outcome State Fault Refusal :=
  match i with
  | .waitReady => Sys2Proof.Machine.execWaitReady s
  | .encodeSend => Sys2Proof.Machine.execEncodeSend s
  | .awaitAck => Sys2Proof.Machine.execAwaitAck s
  | .receive => Sys2Proof.Machine.execReceive s
  | .markerDataWrite => Sys2Proof.Machine.execMarkerDataWrite s
  | .markerStatusRead => Sys2Proof.Machine.execMarkerStatusRead s
  | .markerDataRead => Sys2Proof.Machine.execMarkerDataRead s
  | .frameH2d len lcs body => Sys2Proof.Machine.execFrameH2d len lcs body s
  | .frameD2h len lcs body => Sys2Proof.Machine.execFrameD2h len lcs body s
  | .ack => Sys2Proof.Machine.execAck s
  | .getFirmwareVersion => Sys2Proof.Machine.execGetFirmwareVersion s
  | .configureSecurityModule => Sys2Proof.Machine.execConfigureSecurityModule s
  | .enumeratePassiveTarget => Sys2Proof.Machine.execEnumeratePassiveTarget s
  | .respFirmwareVersion => Sys2Proof.Machine.execRespFirmwareVersion s
  | .respConfigureSecurityModule => Sys2Proof.Machine.execRespConfigureSecurityModule s
  | .respEnumeratePassiveTarget => Sys2Proof.Machine.execRespEnumeratePassiveTarget s

end Sys2Proof.Machine
end

