-- ==== Sys2Proof/Machine/Step.lean ====
section
/-! DEFINITION. Machine/Step.lean: one step of the machine: the head of the host's schedule says who moves; with an
empty schedule the block does (log 19, log 22). -/

namespace Sys2Proof.Machine

/-- A word at its interface: decoded and run; an `OP` word is first written to `OPSEL` (30_encoding.md R103). -/
def runWord (fmt : Format) (bytes : List Byte) (s : State) : Host.Outcome State Fault Refusal :=
  match decode fmt bytes with
  | .ok i => exec i (latchOpsel i s)
  | .error why => .refused (.undecodable why)

/-- What an entry of the schedule does, the entry already taken off it. -/
def land (inp : Input) (s : State) : Host.Outcome State Fault Refusal :=
  match inp with
  | .pass => .next (seqStep s)
  | .awaitIdle => .next (awaitIdle s)
  | .word fmt bytes => runWord fmt bytes s
  | .request => request s
  | .write w => portWrite w s
  | .read r => portRead r s
  | .setParams p => .next (setParams p s)
  | .reset => .next (resetBlock s)

/-- The step function. -/
def step (s : State) : Host.Outcome State Fault Refusal :=
  match s.inbox with
  | [] => .next (seqStep s)
  | inp :: rest => land inp { s with inbox := rest }

/-- `i` put at the head of the schedule as a word of its format, with what its fetch needs (log 17). -/
def State.withInstr (s : State) (i : Instr) : State :=
  { placeOperands i s with inbox := .word i.format (encode i) :: s.inbox }

/-- `s` with the instruction of a table word where `step` fetches its next instruction; a word no row reads is put
there as it is, in the `FRAME` format, and `step` refuses it by name (log 17, log 18). -/
def State.withFetchWord (s : State) (nbits w : Nat) : State :=
  match decodeTableWord nbits w with
  | some i => s.withInstr i
  | none => { s with inbox := .word .frame (sixBytes w) :: s.inbox }

end Sys2Proof.Machine
end

