-- ==== Sys2Proof/Safety.lean ====
section
/-! DEFINITION. Safety.lean: the terms claims are made in: what holds of every state of a run, what the device's
answers and the traces of whole transactions look like, and running the sequencer. -/

namespace Sys2Proof.Machine

/-! The shape of a trace (20_memory.md R85). -/

/-- Where the bus stands: released; selected, nothing exchanged yet; selected and marked. -/
inductive BusState where
  | released | selected | marked
deriving DecidableEq, Repr

/-- The three marker bytes (30_encoding.md R102). -/
def isMarker (b : Byte) : Bool := decide (b = Config.mWrite ∨ b = Config.mStatus ∨ b = Config.mRead)

/-- The events a well-shaped trace may go on with (20_memory.md R85): `CS-` and `CS+` alternate, exchanges lie
between them, and the first of a transaction, apart from `S`, is the write of a marker. A transaction that a reset
cuts before its marker is released with nothing exchanged (log 20). -/
def BusState.next : BusState → Event → Option BusState
  | .released, .csAssert => some .selected
  | .released, .delay _ => some .released
  | .released, _ => none
  | .selected, .settle => some .selected
  | .selected, .write b => if isMarker b then some .marked else none
  | .selected, .csRelease => some .released
  | .selected, _ => none
  | .marked, .write _ => some .marked
  | .marked, .read _ => some .marked
  | .marked, .csRelease => some .released
  | .marked, _ => none

/-- Where the bus stands after `events`, from `st` on; `none` if they are not well shaped. -/
def busAfter : Option BusState → List Event → Option BusState
  | st, [] => st
  | st, e :: es => busAfter (st.bind fun b => b.next e) es

/-- Where the bus stands after a whole trace. -/
def traceState (events : List Event) : Option BusState := busAfter (some .released) events

/-- Where the bus stands before the step `PHASE` names: inside step 2 of the poller, from step 3 to step 15 of ENCODE_SEND, 4 to 7 of AWAIT_ACK
and 4 to 19 of RECEIVE it is selected (44_frame_decoder.md R183). -/
def Phase.bus : Phase → BusState
  | .poll _ .p2b => .selected
  | .poll _ .p2c | .poll _ .p2d => .marked
  | .encode .e3 | .encode .e4 => .selected
  | .encode .e5 | .encode .e6 | .encode .e7 | .encode .e8 | .encode .e9 | .encode .e10 => .marked
  | .encode .e11 | .encode .e12 | .encode .e13 | .encode .e14 | .encode .e15 => .marked
  | .ack .a4 => .selected
  | .ack .a5 | .ack .a6 | .ack .a7 => .marked
  | .receive .r4 => .selected
  | .receive .r3 | .receive .r20 | .receive .r21 => .released
  | .receive _ => .marked
  | _ => .released

/-! The invariant of the machine. -/

/-- The operands a running operation reads are legal (10_state.md R43: any other request was refused). -/
def operandsHeld : Phase → State → Prop
  | .encode _, s => clenLegal s = true
  | .receive _, s => maxlenLegal s = true
  | .poll .receive _, s => maxlenLegal s = true
  | .polled .receive _, s => maxlenLegal s = true
  | _, _ => True

/-- The wait's count: a multiple of 10 that has not passed `TIMEOUT`, or has just been advanced (10_state.md R25). -/
def waitCount : Phase → State → Prop
  | .poll _ .p1, _ => True
  | .poll _ .p5, s => s.elapsed.toNat % 10 = 0 ∧ s.elapsed.toNat ≤ s.timeout.toNat + 10
  | .poll _ _, s => s.elapsed.toNat % 10 = 0 ∧ s.elapsed.toNat ≤ s.timeout.toNat
  | _, _ => True

/-- The first `n` bytes of a buffer hold values the spec fixes. -/
def specified (m : Memory) (n : Nat) : Prop := ∀ i, i < n → (Memory.read m i).isSome = true

/-- The walk of RECEIVE over `PBUF`: never past `LEN`, nor `LEN` past `MAXLEN` (44_frame_decoder.md R179, R180). -/
def payloadWalk : Phase → State → Prop
  | .receive .r14, s => s.len.toNat ≤ s.maxlen.toNat
  | .receive .r15, s =>
    s.idx.toNat ≤ s.len.toNat ∧ s.len.toNat ≤ s.maxlen.toNat ∧ specified s.pbuf s.idx.toNat
  | .receive .r16, s => s.len.toNat ≤ s.maxlen.toNat ∧ specified s.pbuf s.len.toNat
  | .receive (.r17 _), s => s.len.toNat ≤ s.maxlen.toNat ∧ specified s.pbuf s.len.toNat
  | .receive .r18, s => s.len.toNat ≤ s.maxlen.toNat ∧ specified s.pbuf s.len.toNat
  | .receive .r19, s => s.len.toNat ≤ s.maxlen.toNat ∧ specified s.pbuf s.len.toNat
  | .receive .r20, s => s.len.toNat ≤ s.maxlen.toNat ∧ specified s.pbuf s.len.toNat
  | _, _ => True

/-- What holds of every state of every run. -/
structure Inv (s : State) : Prop where
  /-- `BUSY` is 1 exactly when `PHASE` is not `IDLE` (10_state.md R43, R44). -/
  busy_iff : s.busy = true ↔ s.phase ≠ .idle
  /-- The trace is well shaped up to where `PHASE` says it is (20_memory.md R85). -/
  shaped : traceState s.trace = some s.phase.bus
  /-- Chip-select is asserted exactly in the steps between its events; so `BUSY = 0` implies `CS = 0` (10_state.md R28). -/
  selected_iff : s.cs = true ↔ s.phase.bus ≠ .released
  /-- The operands a running operation reads are legal. -/
  operands : operandsHeld s.phase s
  /-- `ELAPSED` is in step and never wraps (10_state.md R25). -/
  waiting : waitCount s.phase s
  /-- RECEIVE's walk stays inside `PBUF`. -/
  walking : payloadWalk s.phase s
  /-- The buffers are in canonical form and inside their capacities (20_memory.md R62). -/
  cbuf_wf : Memory.wf Config.cmdMax s.cbuf = true
  pbuf_wf : Memory.wf Config.rxCap s.pbuf = true
  abuf_wf : Memory.wf Config.ackSize s.abuf = true
  /-- `OK = 1` only with `ERR = NONE` (10_state.md R36, R49). -/
  ok_err : s.ok = true → s.err = .none
  /-- `PLEN` bytes of `PBUF` may be read (10_state.md R38). -/
  payload : s.plen.toNat ≤ Config.rxCap ∧ specified s.pbuf s.plen.toNat

/-! What a device answers, and what a transaction looks like on the bus. -/

/-- What the device answers in the `n`-th byte exchange from now on (20_memory.md R66). -/
def answerAt (s : State) (n : Nat) : Byte :=
  match s.rx[n]? with
  | some b => b
  | none => Config.deviceByte (s.xfers + n)

/-- From the `m`-th exchange from now on the device gives `bytes`. -/
def deviceGives (s : State) (m : Nat) (bytes : List Byte) : Prop :=
  ∀ j, (h : j < bytes.length) → answerAt s (m + j) = bytes[j]

/-- The bytes the device gives in exchanges `m` to `m + n - 1` from now on. -/
def given (s : State) (m n : Nat) : List Byte := (List.range n).map fun j => answerAt s (m + j)

/-- The status byte of probe `i` of a wait begun now: the second exchange of its transaction (20_memory.md R72). -/
def statusAt (s : State) (i : Nat) : Byte := answerAt s (2 * i + 1)

/-- The status bytes of the first `n` probes. -/
def statuses (s : State) (n : Nat) : List Byte := (List.range n).map (statusAt s)

/-- Probe `k` is within the budget and the first to see bit 0 set (41_ready_poller.md R133). -/
def readyAtProbe (s : State) (k : Nat) : Prop :=
  k < probeBudget s ∧ (∀ i, i < k → readyBit (statusAt s i) = false) ∧ readyBit (statusAt s k) = true

/-- No probe of the budget sees bit 0 set (41_ready_poller.md R133). -/
def neverReady (s : State) : Prop := ∀ i, i < probeBudget s → readyBit (statusAt s i) = false

/-- `CS- W 02 R ss CS+` (20_memory.md R72). -/
def probeEvents (status : Byte) : List Event := [.csAssert, .write Config.mStatus, .read status, .csRelease]

/-- Probes and delays of a wait, alternating, a probe first and a probe last (41_ready_poller.md R133). -/
def waitEvents : List Byte → List Event
  | [] => []
  | [status] => probeEvents status
  | status :: rest => probeEvents status ++ [.delay Config.pollInterval] ++ waitEvents rest

/-- `CS- W 03 R .. CS+` (20_memory.md R74). -/
def readEvents (bytes : List Byte) : List Event :=
  [.csAssert, .write Config.mRead] ++ bytes.map .read ++ [.csRelease]

/-- `CS- S W 01 W .. CS+` (20_memory.md R73). -/
def writeEvents (bytes : List Byte) : List Event :=
  [.csAssert, .settle, .write Config.mWrite] ++ bytes.map .write ++ [.csRelease]

/-- The first `n` bytes of a buffer are `bytes`. -/
def holdsBytes (m : Memory) (bytes : List Byte) : Prop :=
  ∀ i, (h : i < bytes.length) → Memory.read m i = some bytes[i]

/-- Of the frame the device gives in a read transaction begun now, the header passes every check of RECEIVE: `LCS`,
`DIR`, `LEN` and the capacity (44_frame_decoder.md R171 steps 8 to 13). -/
def headerPasses (s : State) : Bool :=
  decide (answerAt s 4 + answerAt s 5 = 0 ∧ answerAt s 6 = Config.dirD2h ∧ answerAt s 4 ≠ 0 ∧
    (answerAt s 4).toNat ≤ s.maxlen.toNat + 1)

/-- How many payload bytes of that frame are read (44_frame_decoder.md R173). -/
def payloadReads (s : State) : Nat := if headerPasses s then (answerAt s 4).toNat - 1 else 0

/-- How many bytes of that frame are read: five when the length checksum fails, six when a later check of the header
does, `m + 7` when the data checksum does, `m + 8` for a frame that passes (44_frame_decoder.md R173). -/
def frameReads (s : State) : Nat :=
  if answerAt s 4 + answerAt s 5 ≠ 0 then 5
  else if headerPasses s = false then 6
  else if Config.dirD2h + sum8 (given s 7 (payloadReads s)) + answerAt s (7 + payloadReads s) ≠ 0 then payloadReads s + 7
  else payloadReads s + 8

/-- How many byte exchanges a trace makes (70_reset_and_hazards.md R291). -/
def exchangeCount (events : List Event) : Nat := (events.filter fun e => e.sent.isSome).length

/-- How many ticks a trace sleeps (41_ready_poller.md R133). -/
def ticksSlept : List Event → Nat
  | [] => 0
  | .delay n :: es => n + ticksSlept es
  | _ :: es => ticksSlept es

/-- The time the block counts for an event: a delay and the settle delay have one, of OPEN length; exchanges take no
counted time (20_memory.md R69, R70, 70_reset_and_hazards.md R291; log 24). -/
def Event.time : Event → Nat
  | .delay n => n * Config.tick
  | .settle => Config.tSettle
  | .csAssert | .csRelease | .write _ | .read _ => 0

/-! What a meaning leaves as it was, and how an operation ends. -/

/-- The operand registers and every byte of `CBUF` are as they were. -/
def operandsKept (s t : State) : Prop :=
  t.opsel = s.opsel ∧ t.timeout = s.timeout ∧ t.maxlen = s.maxlen ∧ t.clen = s.clen ∧
    ∀ i, Memory.read t.cbuf i = Memory.read s.cbuf i

/-- `PLEN` and every byte of `PBUF` are as they were. -/
def payloadKept (s t : State) : Prop := t.plen = s.plen ∧ ∀ i, Memory.read t.pbuf i = Memory.read s.pbuf i

/-- Every byte of `ABUF` is as it was. -/
def abufKept (s t : State) : Prop := ∀ i, Memory.read t.abuf i = Memory.read s.abuf i

/-- The registers of the frame decoder are as they were. -/
def decoderKept (s t : State) : Prop := t.lcsr = s.lcsr ∧ t.dirr = s.dirr

/-- The registers of the poller are as they were. -/
def pollerKept (s t : State) : Prop := t.statb = s.statb ∧ t.elapsed = s.elapsed

/-- The registers the encoder and the decoder share are as they were. -/
def frameWorkKept (s t : State) : Prop := t.csum = s.csum ∧ t.len = s.len

/-- The result registers are as they were. -/
def resultsKept (s t : State) : Prop := t.ok = s.ok ∧ t.err = s.err

/-- The host layer and its schedule are as they were. -/
def hostKept (s t : State) : Prop := t.host = s.host ∧ t.inbox = s.inbox

/-- The bus and what was recorded of it are as they were. -/
def busKept (s t : State) : Prop := t.cs = s.cs ∧ t.trace = s.trace ∧ t.rx = s.rx ∧ t.xfers = s.xfers

/-- The sequencer is as it was. -/
def sequencerKept (s t : State) : Prop := t.busy = s.busy ∧ t.phase = s.phase

/-- Idle, not busy, chip-select released. -/
def atRest (t : State) : Prop := t.busy = false ∧ t.phase = .idle ∧ t.cs = false

/-- `OK = 1`, `ERR = NONE`. -/
def succeeded (t : State) : Prop := t.ok = true ∧ t.err = .none

/-- `OK = 0` with an error kind. -/
def failedWith (e : ErrKind) (t : State) : Prop := t.ok = false ∧ t.err = e

/-- `PLEN = 0` and no byte of `PBUF` specified: what a failed RECEIVE leaves (10_state.md R38). -/
def payloadLost (t : State) : Prop := t.plen = 0 ∧ ∀ i, Memory.read t.pbuf i = none

/-- The exchange in which a read transaction begun after a wait of `k + 1` probes gives its first byte. -/
def afterProbe (k : Nat) : Nat := 2 * (k + 1) + 1

/-- The state in which the RECEIVE of an `Exchange` begins (45_command_session.md R201). -/
def receiveBegins (cmd : List Byte) (maxLen : BitVec 8) (s : State) : State := loadReceive maxLen (sendAndAwait cmd s)

/-- Step 3 of `Exchange` goes on to RECEIVE: the policy is CONTINUE, or the handshake succeeded
(45_command_session.md R201, R202). -/
def goesOn (cmd : List Byte) (s : State) : Prop :=
  s.host.params.ackPolicy = .continue ∨ (sendAndAwait cmd s).ok = true

/-- The device raises its ready flag at probe `k` of a wait begun now and then gives the frame of `payload`
(44_frame_decoder.md R187). -/
def deliversFrame (s : State) (k : Nat) (payload : List Byte) : Prop :=
  readyAtProbe s k ∧ deviceGives s (afterProbe k) (frameBytes Config.dirD2h payload)

/-- The frame with direction `DIR_H2D` that these fields make is the frame of no payload ENCODE_SEND can send
(30_encoding.md R91, R94). -/
def sentByNoHost (len lcs : Byte) (body : List Byte) : Prop :=
  ∀ payload : List Byte, payload.length ≤ Config.cmdMax →
    encode (.frameH2d len lcs body) ≠ frameBytes Config.dirH2d payload

/-- One bit of one byte flipped (44_frame_decoder.md R185). -/
def flipBit (bytes : List Byte) (j : Nat) (k : Nat) : List Byte := bytes.modify j fun b => b ^^^ BitVec.twoPow 8 k

/-- The sequencer runs `n` numbered steps. -/
def seqRun (n : Nat) (s : State) : State := iter n seqStep s

/-- As many numbered steps as any operation needs (60_exceptions.md R239): at most ten for each probe of its
wait, and 300 around its loops of at most 254 passes. -/
def stepBound (s : State) : Nat := 10 * probeBudget s + 300

end Sys2Proof.Machine
end

