-- ==== Sys2Proof/Certificates/Slice0/Obligations.lean ====
section
/-! DEFINITION. Certificates/Slice0/Obligations.lean: the statements for the provers. Rule numbers are spec/'s. -/

section

open Sys2Proof Sys2Proof.Machine

/-! Encodings (30_encoding.md). -/

/-- R90 to R104, R113: no bit of an encoding is dropped, whatever stands after the word. -/
def Obligations.DecodeOfEncodeIsTheInstruction : Prop :=
  ∀ (i : Instr) (rest : List Byte), i.wellFormed = true → decode i.format (encode i ++ rest) = .ok i

/-- A decoded word is a well-formed instruction of its format, and the word begins with its encoding. -/
def Obligations.DecodedWordBeginsWithItsEncoding : Prop :=
  ∀ (f : Format) (bytes : List Byte) (i : Instr), decode f bytes = .ok i →
    i.format = f ∧ i.wellFormed = true ∧ ∃ rest, bytes = encode i ++ rest

/-- Words written out from the encodings of R91 and R101 to R104 decode to the instructions they stand for. -/
def Obligations.SpecWordsDecode : Prop :=
  decode .op [0x02] = .ok .awaitAck ∧ decode .op [0x03] = .ok .receive ∧
  decode .marker [0x01] = .ok .markerDataWrite ∧ decode .marker [0x02] = .ok .markerStatusRead ∧
  decode .frame [0x00, 0x00, 0xFF, 0x02, 0xFE, 0xD4, 0x02, 0x2A, 0x00] =
    .ok (.frameH2d 0x02 0xFE [0x02, 0x2A, 0x00]) ∧
  decode .frame [0x00, 0x00, 0xFF, 0x02, 0xFE, 0xD5, 0x15, 0x16, 0x00] =
    .ok (.frameD2h 0x02 0xFE [0x15, 0x16, 0x00]) ∧
  decode .ack [0x00, 0x00, 0xFF, 0x00, 0xFF, 0x00] = .ok .ack ∧
  decode .cmd [0x4A] = .ok .enumeratePassiveTarget ∧ decode .cmd [0x03] = .ok .respFirmwareVersion

/-- R91, R11: the frame of a payload has `n + 8` bytes in the order of the table, obeys both checksum laws, and is read
back field by field. -/
def Obligations.HostFramesFollowTheLayoutAndBothLaws : Prop :=
  ∀ payload : List Byte, payload.length ≤ 254 →
    ∃ len lcs dcs : Byte,
      frameBytes 0xD4 payload = [0x00, 0x00, 0xFF, len, lcs, 0xD4] ++ payload ++ [dcs, 0x00] ∧
      len.toNat = payload.length + 1 ∧ len + lcs = 0 ∧ 0xD4 + sum8 payload + dcs = 0 ∧
      decode .frame (frameBytes 0xD4 payload) = .ok (.frameH2d len lcs (payload ++ [dcs, 0x00]))

/-! The step, reset, the host port. -/

/-- What each entry at the head of the schedule does but those of the statements below. A word runs as the instruction
it decodes to, off the schedule, an `OP` word first written to `OPSEL`; one that does not decode is refused with the
decoder's reason; with nothing scheduled, or on a turn of the block's, the sequencer takes one step; a host that waits
for `BUSY = 0` lets the block go on until then; new parameters are the host's own. The schedule is the model's form of
what the host does (log 22), and refusing the model's choice (log 10). -/
def Obligations.StepRunsTheDecodedInstruction : Prop :=
  (∀ (s : State) (f : Format) (bytes : List Byte) (rest : List Input), s.inbox = .word f bytes :: rest →
    (∀ i, decode f bytes = .ok i → step s = exec i (latchOpsel i { s with inbox := rest })) ∧
    (∀ why, decode f bytes = .error why → step s = .refused (.undecodable why))) ∧
  (∀ s : State, s.inbox = [] → step s = .next (seqStep s)) ∧
  (∀ (s : State) (rest : List Input), s.inbox = .pass :: rest → step s = .next (seqStep { s with inbox := rest })) ∧
  (∀ (s : State) (rest : List Input), s.inbox = .awaitIdle :: rest →
    (s.busy = true → step s = .next { seqStep { s with inbox := rest } with inbox := .awaitIdle :: rest }) ∧
    (s.busy = false → step s = .next { s with inbox := rest })) ∧
  (∀ (s : State) (p : Params) (rest : List Input), s.inbox = .setParams p :: rest →
    step s = .next { s with host := { s.host with params := p }, inbox := rest })

/-- R48, R270: the values the spec gives for reset. Operand and working registers are unspecified there; the model's
0 (log 4, log 5) is not claimed. -/
def Obligations.ResetLeavesTheBlockIdleAndReleased : Prop :=
  State.reset.phase = .idle ∧ State.reset.busy = false ∧ State.reset.cs = false ∧ State.reset.ok = false ∧
  State.reset.err = .none ∧ State.reset.plen = 0 ∧
  ∀ i, Memory.read State.reset.cbuf i = none ∧ Memory.read State.reset.pbuf i = none ∧
    Memory.read State.reset.abuf i = none

/-- R49, R270: a reset at any moment ends the operation, releases chip-select and makes no bus exchange. That the
trace records the release as `CS+` is the model's reading (log 20). -/
def Obligations.ResetAbandonsTheOperation : Prop :=
  ∀ (s : State) (rest : List Input), s.inbox = .reset :: rest →
    ∃ t, step s = .next t ∧ atRest t ∧ failedWith .none t ∧ payloadLost t ∧
      (∀ i, Memory.read t.cbuf i = none ∧ Memory.read t.abuf i = none) ∧
      exchangeCount t.trace = exchangeCount s.trace ∧ t.xfers = s.xfers ∧
      t.trace = s.trace ++ (if s.cs then [.csRelease] else []) ∧ t.host = s.host ∧ t.inbox = rest

/-- R43: a request is accepted in one step that only sets `BUSY` and `PHASE`, or refused in the three cases. -/
def Obligations.RequestIsAcceptedOrRefused : Prop :=
  ∀ (s : State) (rest : List Input), s.inbox = .request :: rest →
    (s.busy = true → step s = .refused .requestWhileBusy) ∧
    (s.busy = false → s.opsel = 0 →
      step s = .next { s with busy := true, phase := .poll .waitReady .p1, inbox := rest }) ∧
    (s.busy = false → s.opsel = 1 → 254 < s.clen.toNat → step s = .refused .clenOutOfRange) ∧
    (s.busy = false → s.opsel = 1 → s.clen.toNat ≤ 254 →
      step s = .next { s with busy := true, phase := .encode .e1, inbox := rest }) ∧
    (s.busy = false → s.opsel = 2 →
      step s = .next { s with busy := true, phase := .poll .awaitAck .p1, inbox := rest }) ∧
    (s.busy = false → s.opsel = 3 → 254 < s.maxlen.toNat → step s = .refused .maxlenOutOfRange) ∧
    (s.busy = false → s.opsel = 3 → s.maxlen.toNat ≤ 254 →
      step s = .next { s with busy := true, phase := .poll .receive .p1, inbox := rest })

/-- R43: no instruction runs while an operation is in progress; for the rows that are no requests the model's choice
(log 10). -/
def Obligations.NothingRunsWhileBusy : Prop :=
  ∀ (i : Instr) (s : State), s.busy = true → exec i s = .refused .requestWhileBusy

/-- R43: with an operand out of range no row that would read it runs: by name it is refused, nothing done; a host
sequence whose exchange goes on to RECEIVE, under either policy. For the rows that are no requests, and for a host
parameter, this is the model's reading (log 11, log 13, log 14). -/
def Obligations.OperandsOutOfRangeAreRefused : Prop :=
  ∀ s : State, s.busy = false →
    (254 < s.clen.toNat → exec .encodeSend s = .refused .clenOutOfRange ∧
      exec .markerDataWrite s = .refused .clenOutOfRange) ∧
    (254 < s.maxlen.toNat → exec .receive s = .refused .maxlenOutOfRange ∧
      (s.opsel = 3 → exec .markerDataRead s = .refused .maxlenOutOfRange) ∧
      (∀ len lcs body, exec (.frameD2h len lcs body) s = .refused .maxlenOutOfRange) ∧
      ∀ len lcs body, sentByNoHost len lcs body → exec (.frameH2d len lcs body) s = .refused .maxlenOutOfRange) ∧
    (254 < s.host.params.maxlenFw.toNat → goesOn [0x02] s →
      exec .getFirmwareVersion s = .refused .maxlenOutOfRange) ∧
    (254 < s.host.params.maxlenSam.toNat → goesOn [0x14, s.host.params.samMode, 0x14, s.host.params.samIrq] s →
      exec .configureSecurityModule s = .refused .maxlenOutOfRange) ∧
    (254 < s.host.params.maxlenEnum.toNat → goesOn [0x4A, 0x01, s.host.params.cardType] s →
      exec .enumeratePassiveTarget s = .refused .maxlenOutOfRange)

/-- R21, R29, R62: what the host writes, and that it writes only while `BUSY = 0` and inside `CBUF`; to refuse any other
write is the model's choice (log 10). -/
def Obligations.HostWritesOnlyWhileIdle : Prop :=
  ∀ (s : State) (w : HostWrite) (rest : List Input), s.inbox = .write w :: rest →
    (s.busy = true → step s = .refused .writeWhileBusy) ∧
    (s.busy = false → ∀ v, w = .opsel v → step s = .next { s with opsel := v, inbox := rest }) ∧
    (s.busy = false → ∀ v, w = .timeout v → step s = .next { s with timeout := v, inbox := rest }) ∧
    (s.busy = false → ∀ v, w = .maxlen v → step s = .next { s with maxlen := v, inbox := rest }) ∧
    (s.busy = false → ∀ v, w = .clen v → step s = .next { s with clen := v, inbox := rest }) ∧
    (s.busy = false → ∀ i v, w = .cbuf i v → 254 ≤ i → step s = .refused .indexOutsideBuffer) ∧
    (s.busy = false → ∀ i v, w = .cbuf i v → i < 254 →
      ∃ t, step s = .next t ∧ Memory.read t.cbuf i = some v ∧
        (∀ j, j ≠ i → Memory.read t.cbuf j = Memory.read s.cbuf j) ∧
        t = { s with cbuf := t.cbuf, inbox := rest })

/-- R21, R34, R47: what the host reads while `BUSY = 0`, and that a read changes nothing but what the host has read
and, for a byte nothing specifies, the count of free values. The model's choices: a read while `BUSY = 1`, of anything
but `BUSY`, is a free value (log 9), and one of `PBUF` at an index of 254 or more, to which R62 gives no meaning, is
refused as `indexOutsideBuffer` (log 10). -/
def Obligations.HostReadsResults : Prop :=
  ∀ (s : State) (r : HostRead) (rest : List Input), s.inbox = .read r :: rest →
    (r = .busy → ∃ t, step s = .next t ∧ t.host.readData = (if s.busy then 1 else 0)) ∧
    (s.busy = false → r = .ok → ∃ t, step s = .next t ∧ t.host.readData = (if s.ok then 1 else 0)) ∧
    (s.busy = false → r = .err → ∃ t, step s = .next t ∧ t.host.readData = s.err.code.setWidth 8) ∧
    (s.busy = false → r = .plen → ∃ t, step s = .next t ∧ t.host.readData = s.plen) ∧
    (s.busy = false → ∀ i b, r = .pbuf i → i < 254 → Memory.read s.pbuf i = some b →
      ∃ t, step s = .next t ∧ t.host.readData = b) ∧
    (∀ i, r = .pbuf i → 254 ≤ i → step s = .refused .indexOutsideBuffer) ∧
    (s.busy = true → r ≠ .busy → ∀ t, step s = .next t → t.host.readData = Config.freeByte s.draws) ∧
    (∀ t, step s = .next t →
      t = { s with host := { s.host with readData := t.host.readData }, draws := t.draws, inbox := rest })

/-- R35: the codes of the error kinds; 6 and 7 are no kind's. -/
def Obligations.ErrorCodesAreZeroToFive : Prop :=
  ErrKind.none.code = 0 ∧ ErrKind.timeout.code = 1 ∧ ErrKind.checksumMismatch.code = 2 ∧
  ErrKind.unexpectedDirection.code = 3 ∧ ErrKind.bufferTooSmall.code = 4 ∧ ErrKind.handshakeMismatch.code = 5 ∧
  ∀ e : ErrKind, e.code ≠ 6 ∧ e.code ≠ 7

/-! The poller (41_ready_poller.md). -/

/-- R72: the status transaction, and all it leaves as it was. That the row is the transaction alone, with no operation
around it, is the model's reading (log 11). -/
def Obligations.StatusTransactionReadsOneByte : Prop :=
  ∀ s : State, s.busy = false →
    ∃ t, exec .markerStatusRead s = .next t ∧
      t.trace = s.trace ++ [.csAssert, .write 0x02, .read (answerAt s 1), .csRelease] ∧
      t.statb = answerAt s 1 ∧ t.cs = false ∧ t.xfers = s.xfers + 2 ∧ t.rx = s.rx.drop 2 ∧ t.elapsed = s.elapsed ∧
      t.idx = s.idx ∧ t.draws = s.draws ∧
      operandsKept s t ∧ payloadKept s t ∧ abufKept s t ∧ decoderKept s t ∧ frameWorkKept s t ∧ resultsKept s t ∧
      sequencerKept s t ∧ hostKept s t

/-- R133: the probes and delays of a wait, by what the device answers: a probe first and a probe last, ready at the
first probe that sees bit 0 set, false after `floor(TIMEOUT / 10) + 1` probes without one. -/
def Obligations.WaitReadyProbesUntilReadyOrBudget : Prop :=
  ∀ s : State, s.busy = false →
    (∀ k, k ≤ s.timeout.toNat / 10 → (∀ i, i < k → readyBit (statusAt s i) = false) → readyBit (statusAt s k) = true →
      ∃ t, exec .waitReady s = .next t ∧ succeeded t ∧ t.statb = statusAt s k ∧ t.elapsed.toNat = 10 * k ∧
        t.trace = s.trace ++ waitEvents (statuses s (k + 1)) ∧ ticksSlept (waitEvents (statuses s (k + 1))) = 10 * k ∧
        10 * k ≤ s.timeout.toNat) ∧
    ((∀ i, i ≤ s.timeout.toNat / 10 → readyBit (statusAt s i) = false) →
      ∃ t, exec .waitReady s = .next t ∧ failedWith .timeout t ∧
        t.elapsed.toNat = 10 * (s.timeout.toNat / 10 + 1) ∧
        t.trace = s.trace ++ waitEvents (statuses s (s.timeout.toNat / 10 + 1)) ∧
        ticksSlept (waitEvents (statuses s (s.timeout.toNat / 10 + 1))) = 10 * (s.timeout.toNat / 10))

/-- R132, R135: WAIT_READY always completes, `OK` is bit 0 of the last status byte, and it touches nothing but
`STATB`, `ELAPSED`, its two results and the bus. -/
def Obligations.WaitReadyCompletesAndTouchesNothingElse : Prop :=
  ∀ s : State, s.busy = false →
    ∃ t, exec .waitReady s = .next t ∧ atRest t ∧
      (readyBit t.statb = true → succeeded t) ∧ (readyBit t.statb = false → failedWith .timeout t) ∧
      operandsKept s t ∧ payloadKept s t ∧ abufKept s t ∧ decoderKept s t ∧ frameWorkKept s t ∧ t.idx = s.idx ∧
      t.draws = s.draws ∧ hostKept s t

/-- R283: `TIMEOUT` values from `10 q` to `10 q + 9` behave alike, in all three operations that wait. -/
def Obligations.TimeoutsOfOneDecadeBehaveAlike : Prop :=
  ∀ (i : Instr) (s t : State) (v : BitVec 16), i = .waitReady ∨ i = .awaitAck ∨ i = .receive →
    v.toNat / 10 = s.timeout.toNat / 10 → exec i s = .next t →
    exec i { s with timeout := v } = .next { t with timeout := v }

/-! The encoder (42_frame_encoder.md). -/

/-- R143: with `CBUF` written, the trace of ENCODE_SEND, event by event. -/
def Obligations.EncodeSendEmitsExactlyTheFrame : Prop :=
  ∀ (s : State) (c : List Byte), s.busy = false → s.clen.toNat ≤ 254 → c.length = s.clen.toNat → holdsBytes s.cbuf c →
    ∃ t, exec .encodeSend s = .next t ∧
      t.trace = s.trace ++ writeEvents
        (0x00 :: 0x00 :: 0xFF :: (s.clen + 1) :: neg8 (s.clen + 1) :: 0xD4 :: (c ++ [neg8 (0xD4 + sum8 c), 0x00])) ∧
      t.xfers = s.xfers + (c.length + 9)

/-- R142, R144, R146: ENCODE_SEND completes for every legal `CLEN` and every content of `CBUF`, with `OK = 1`; what it
sends obeys both laws, which the spec derives from its algorithm, and agrees with `CBUF` where `CBUF` is specified;
what it leaves. That an unspecified byte of `CBUF` is sent as a free value is the model's choice (log 6). -/
def Obligations.EncodeSendCompletesAndKeepsBothLaws : Prop :=
  ∀ s : State, s.busy = false → s.clen.toNat ≤ 254 →
    ∃ (t : State) (bs : List Byte), exec .encodeSend s = .next t ∧ atRest t ∧ succeeded t ∧
      bs.length = s.clen.toNat ∧ (∀ j (h : j < bs.length) b, Memory.read s.cbuf j = some b → bs[j] = b) ∧
      (∃ lcs dcs : Byte, t.len + lcs = 0 ∧ 0xD4 + sum8 bs + dcs = 0 ∧
        t.trace = s.trace ++
          writeEvents ([0x00, 0x00, 0xFF, t.len, lcs, 0xD4] ++ bs ++ [dcs, 0x00])) ∧
      t.len = s.clen + 1 ∧ t.csum = 0xD4 + sum8 bs ∧ t.idx = s.clen ∧
      operandsKept s t ∧ payloadKept s t ∧ abufKept s t ∧ decoderKept s t ∧ pollerKept s t ∧
      (specified s.cbuf s.clen.toNat → t.draws = s.draws) ∧ hostKept s t

/-- R143: the trace depends on nothing but `CLEN` and `CBUF`. -/
def Obligations.EncodeSendTraceDependsOnlyOnTheCommand : Prop :=
  ∀ (s u : State), s.busy = false → u.busy = false → s.clen.toNat ≤ 254 → u.clen = s.clen →
    specified s.cbuf s.clen.toNat → (∀ i, i < s.clen.toNat → Memory.read u.cbuf i = Memory.read s.cbuf i) →
    ∃ t v events, exec .encodeSend s = .next t ∧ exec .encodeSend u = .next v ∧
      t.trace = s.trace ++ events ∧ v.trace = u.trace ++ events

/-- R73: the data-write transaction by itself, for every content of `CBUF`: its events, and that no result register is
written (log 11). -/
def Obligations.DataWriteTransactionCarriesTheCommand : Prop :=
  ∀ s : State, s.busy = false → s.clen.toNat ≤ 254 →
    ∃ (t : State) (bs : List Byte), exec .markerDataWrite s = .next t ∧
      bs.length = s.clen.toNat ∧ (∀ j (h : j < bs.length) b, Memory.read s.cbuf j = some b → bs[j] = b) ∧
      t.trace = s.trace ++ writeEvents (frameBytes 0xD4 bs) ∧
      t.cs = false ∧ t.len = s.clen + 1 ∧ t.csum = 0xD4 + sum8 bs ∧ t.idx = s.clen ∧
      operandsKept s t ∧ payloadKept s t ∧ abufKept s t ∧ decoderKept s t ∧ pollerKept s t ∧ resultsKept s t ∧
      sequencerKept s t ∧ (specified s.cbuf s.clen.toNat → t.draws = s.draws) ∧ hostKept s t

/-- R91, R92, R141: a host-to-device frame as the encoder builds it is sent in a data-write transaction, byte for
byte, and completed; `CBUF` and `CLEN` are not read and not written (log 13). -/
def Obligations.HostFrameIsSentAsItStands : Prop :=
  ∀ (s : State) (payload : List Byte), s.busy = false → payload.length ≤ 254 →
    ∃ t, exec (.frameH2d (lenOf payload) (lcsOf (lenOf payload)) (payload ++ [dcsOf 0xD4 payload, 0x00])) s = .next t ∧
      atRest t ∧ succeeded t ∧ t.trace = s.trace ++ writeEvents (frameBytes 0xD4 payload) ∧
      t.len.toNat = payload.length + 1 ∧ t.csum = 0xD4 + sum8 payload ∧ t.idx.toNat = payload.length ∧
      operandsKept s t ∧ payloadKept s t ∧ abufKept s t ∧ decoderKept s t ∧ pollerKept s t ∧ t.draws = s.draws ∧
      hostKept s t

/-! The handshake (43_ack_handshake.md). -/

/-- R156, R158, R159: with the device ready at probe `k`, all six bytes are read, and AWAIT_ACK is true exactly when
they are `00 00 FF 00 FF 00`. -/
def Obligations.AwaitAckAcceptsExactlyThePattern : Prop :=
  ∀ (s : State) (k : Nat) (a : List Byte), s.busy = false → readyAtProbe s k → a.length = 6 →
    deviceGives s (afterProbe k) a →
    ∃ t, exec .awaitAck s = .next t ∧ atRest t ∧
      t.trace = s.trace ++ waitEvents (statuses s (k + 1)) ++ readEvents a ∧
      (a = [0x00, 0x00, 0xFF, 0x00, 0xFF, 0x00] → succeeded t) ∧
      (a ≠ [0x00, 0x00, 0xFF, 0x00, 0xFF, 0x00] → failedWith .handshakeMismatch t)

/-- R156, R161: when no probe is ready, AWAIT_ACK fails with Timeout and opens no read transaction. -/
def Obligations.AwaitAckTimesOutWithoutReading : Prop :=
  ∀ s : State, s.busy = false → neverReady s →
    ∃ t, exec .awaitAck s = .next t ∧ atRest t ∧ failedWith .timeout t ∧
      t.trace = s.trace ++ waitEvents (statuses s (s.timeout.toNat / 10 + 1))

/-- R157: AWAIT_ACK always completes; its kinds; what it does not touch; `ABUF` is unspecified afterwards. -/
def Obligations.AwaitAckCompletesAndTouchesNothingElse : Prop :=
  ∀ s : State, s.busy = false →
    ∃ t, exec .awaitAck s = .next t ∧ atRest t ∧
      (succeeded t ∨ failedWith .timeout t ∨ failedWith .handshakeMismatch t) ∧
      (∀ i, Memory.read t.abuf i = none) ∧
      operandsKept s t ∧ payloadKept s t ∧ decoderKept s t ∧ frameWorkKept s t ∧ t.draws = s.draws ∧ hostKept s t

/-- R101, R162: the acknowledgment frame in a read transaction makes AWAIT_ACK true (log 13). -/
def Obligations.AcknowledgmentFrameIsAccepted : Prop :=
  ∀ s : State, s.busy = false →
    ∃ t, exec .ack s = .next t ∧ atRest t ∧ succeeded t ∧
      t.trace = s.trace ++ readEvents [0x00, 0x00, 0xFF, 0x00, 0xFF, 0x00] ∧
      t.rx = s.rx ∧ t.xfers = s.xfers + 7 ∧
      operandsKept s t ∧ payloadKept s t ∧ decoderKept s t ∧ frameWorkKept s t ∧ pollerKept s t ∧ t.draws = s.draws ∧
      hostKept s t

/-- R74, R173: the data-read transaction by itself: the marker, then exactly as many reads as the operation `OPSEL`
names wants: six for AWAIT_ACK, as many as the checks decide for RECEIVE, none for the other two (log 12). What it
leaves in `ABUF` and `PBUF`; no result register is written. -/
def Obligations.DataReadTransactionReadsWhatIsWanted : Prop :=
  ∀ s : State, s.busy = false → (s.opsel = 3 → s.maxlen.toNat ≤ 254) →
    ∃ (t : State) (n : Nat), exec .markerDataRead s = .next t ∧
      t.trace = s.trace ++ readEvents (given s 1 n) ∧ t.cs = false ∧ t.xfers = s.xfers + (n + 1) ∧
      t.rx = s.rx.drop (n + 1) ∧
      (s.opsel = 0 ∨ s.opsel = 1 → n = 0 ∧ t.idx = s.idx) ∧
      (s.opsel = 2 → n = 6 ∧ ∀ j, j < 6 → Memory.read t.abuf j = some (answerAt s (1 + j))) ∧
      (s.opsel = 3 → n = frameReads s ∧
        (∀ j, j < payloadReads s → Memory.read t.pbuf j = some (answerAt s (7 + j))) ∧
        ∀ j, payloadReads s ≤ j → Memory.read t.pbuf j = Memory.read s.pbuf j) ∧
      (s.opsel ≠ 3 → payloadKept s t ∧ decoderKept s t ∧ frameWorkKept s t) ∧ (s.opsel ≠ 2 → abufKept s t) ∧
      t.plen = s.plen ∧ operandsKept s t ∧ pollerKept s t ∧ resultsKept s t ∧ sequencerKept s t ∧
      t.draws = s.draws ∧ hostKept s t

/-! The decoder (44_frame_decoder.md). -/

/-- R187: a ready device that gives the frame `F(0xD5, P)` is received; one that gives `F(0xD4, P)` is not. -/
def Obligations.ReceiveDeliversDeviceFramesAndRejectsHostFrames : Prop :=
  ∀ (s : State) (k : Nat) (p : List Byte), s.busy = false → s.maxlen.toNat ≤ 254 → p.length ≤ s.maxlen.toNat →
    readyAtProbe s k →
    (deviceGives s (afterProbe k) (frameBytes 0xD5 p) →
      ∃ t, exec .receive s = .next t ∧ succeeded t ∧ t.plen.toNat = p.length ∧ holdsBytes t.pbuf p ∧
        t.trace = s.trace ++ waitEvents (statuses s (k + 1)) ++ readEvents (frameBytes 0xD5 p)) ∧
    (deviceGives s (afterProbe k) (frameBytes 0xD4 p) →
      ∃ t, exec .receive s = .next t ∧ failedWith .unexpectedDirection t)

/-- R107, R175, R182: the three bytes before `LEN` and the byte after `DCS` may be anything; R38: bytes of `PBUF`
beyond the payload keep what they held. -/
def Obligations.ReceiveDoesNotLookAtFramingBytes : Prop :=
  ∀ (s : State) (k : Nat) (p : List Byte) (x y z post : Byte), s.busy = false → s.maxlen.toNat ≤ 254 →
    p.length ≤ s.maxlen.toNat → readyAtProbe s k →
    deviceGives s (afterProbe k) ([x, y, z, lenOf p, lcsOf (lenOf p), 0xD5] ++ p ++ [dcsOf 0xD5 p, post]) →
    ∃ t, exec .receive s = .next t ∧ succeeded t ∧ t.plen.toNat = p.length ∧ holdsBytes t.pbuf p ∧
      ∀ i, p.length ≤ i → Memory.read t.pbuf i = Memory.read s.pbuf i

/-- R171, R173, R184: the header checks in their order, each with the exchanges made when it fails; no byte follows
the failed check but `CS+`. -/
def Obligations.ReceiveStopsAtTheFirstFailedHeaderCheck : Prop :=
  ∀ (s : State) (k : Nat) (x y z len lcs dir : Byte), s.busy = false → s.maxlen.toNat ≤ 254 → readyAtProbe s k →
    deviceGives s (afterProbe k) [x, y, z, len, lcs, dir] →
    (len + lcs ≠ 0 → ∃ t, exec .receive s = .next t ∧ atRest t ∧ failedWith .checksumMismatch t ∧ payloadLost t ∧
      t.trace = s.trace ++ waitEvents (statuses s (k + 1)) ++ readEvents [x, y, z, len, lcs]) ∧
    (len + lcs = 0 → dir ≠ 0xD5 → ∃ t, exec .receive s = .next t ∧ atRest t ∧ failedWith .unexpectedDirection t ∧
      payloadLost t ∧ t.trace = s.trace ++ waitEvents (statuses s (k + 1)) ++ readEvents [x, y, z, len, lcs, dir]) ∧
    (len + lcs = 0 → dir = 0xD5 → len = 0 → ∃ t, exec .receive s = .next t ∧ atRest t ∧ failedWith .bufferTooSmall t ∧
      payloadLost t ∧ t.trace = s.trace ++ waitEvents (statuses s (k + 1)) ++ readEvents [x, y, z, len, lcs, dir]) ∧
    (len + lcs = 0 → dir = 0xD5 → s.maxlen.toNat + 1 < len.toNat → ∃ t, exec .receive s = .next t ∧ atRest t ∧
      failedWith .bufferTooSmall t ∧ payloadLost t ∧
      t.trace = s.trace ++ waitEvents (statuses s (k + 1)) ++ readEvents [x, y, z, len, lcs, dir])

/-- R173, R181: a data checksum that breaks its law fails after `m + 8` exchanges, the postamble unread. -/
def Obligations.ReceiveRejectsABadDataChecksum : Prop :=
  ∀ (s : State) (k : Nat) (p : List Byte) (x y z dcs : Byte), s.busy = false → s.maxlen.toNat ≤ 254 →
    p.length ≤ s.maxlen.toNat → readyAtProbe s k → 0xD5 + sum8 p + dcs ≠ 0 →
    deviceGives s (afterProbe k) ([x, y, z, lenOf p, lcsOf (lenOf p), 0xD5] ++ p ++ [dcs]) →
    ∃ t, exec .receive s = .next t ∧ atRest t ∧ failedWith .checksumMismatch t ∧ payloadLost t ∧
      t.trace = s.trace ++ waitEvents (statuses s (k + 1)) ++
        readEvents ([x, y, z, lenOf p, lcsOf (lenOf p), 0xD5] ++ p ++ [dcs])

/-- R185: one flipped bit in `LEN`, `LCS`, a payload byte or `DCS` of an acceptable frame gives ChecksumMismatch, in
`DIR` UnexpectedDirection, in the preamble, the start code or the postamble nothing. -/
def Obligations.ReceiveDetectsSingleBitErrors : Prop :=
  ∀ (s : State) (k : Nat) (p : List Byte) (j b : Nat), s.busy = false → s.maxlen.toNat ≤ 254 →
    p.length ≤ s.maxlen.toNat → readyAtProbe s k → j < p.length + 8 → b < 8 →
    deviceGives s (afterProbe k) (flipBit (frameBytes 0xD5 p) j b) →
    ∃ t, exec .receive s = .next t ∧
      (j = 3 ∨ j = 4 ∨ (6 ≤ j ∧ j ≤ p.length + 6) → failedWith .checksumMismatch t) ∧
      (j = 5 → failedWith .unexpectedDirection t) ∧
      (j ≤ 2 ∨ j = p.length + 7 → succeeded t ∧ t.plen.toNat = p.length ∧ holdsBytes t.pbuf p)

/-- R174: a wait that ends without readiness fails RECEIVE with Timeout and opens no read transaction. -/
def Obligations.ReceiveTimesOutWithoutReading : Prop :=
  ∀ s : State, s.busy = false → s.maxlen.toNat ≤ 254 → neverReady s →
    ∃ t, exec .receive s = .next t ∧ atRest t ∧ failedWith .timeout t ∧ payloadLost t ∧
      t.trace = s.trace ++ waitEvents (statuses s (s.timeout.toNat / 10 + 1))

/-- R172, R179: RECEIVE always completes, with a payload of at most `MAXLEN` specified bytes or with a kind, `PLEN = 0`
and `PBUF` unspecified; on success it writes no byte of `PBUF` at `PLEN` or beyond; what it does not touch. -/
def Obligations.ReceiveCompletesAndTouchesNothingElse : Prop :=
  ∀ s : State, s.busy = false → s.maxlen.toNat ≤ 254 →
    ∃ t, exec .receive s = .next t ∧ atRest t ∧
      ((succeeded t ∧ t.plen.toNat ≤ s.maxlen.toNat ∧ specified t.pbuf t.plen.toNat ∧
          ∀ i, t.plen.toNat ≤ i → Memory.read t.pbuf i = Memory.read s.pbuf i) ∨
        (payloadLost t ∧ (failedWith .timeout t ∨ failedWith .checksumMismatch t ∨ failedWith .unexpectedDirection t ∨
          failedWith .bufferTooSmall t))) ∧
      operandsKept s t ∧ abufKept s t ∧ t.draws = s.draws ∧ hostKept s t

/-- R171, R187: a device-to-host frame, conforming or not, is read and judged as RECEIVE reads and judges it from a
device that is ready at the first probe and gives it: one read transaction, the same in both, with the same result;
the device's further answers are as they were (log 13). -/
def Obligations.DeviceFrameIsJudgedAsByReceive : Prop :=
  ∀ (s : State) (len lcs : Byte) (body : List Byte) (junk status junk' : Byte), s.busy = false →
    s.maxlen.toNat ≤ 254 → wfBody len body = true → readyBit status = true →
    ∃ (t u : State) (n : Nat), exec (.frameD2h len lcs body) s = .next t ∧
      exec .receive { s with rx := [junk, status, junk'] ++ encode (.frameD2h len lcs body) ++ s.rx } = .next u ∧
      n ≤ (encode (.frameD2h len lcs body)).length ∧
      t.trace = s.trace ++ readEvents ((encode (.frameD2h len lcs body)).take n) ∧
      u.trace = s.trace ++ waitEvents [status] ++ readEvents ((encode (.frameD2h len lcs body)).take n) ∧
      t.xfers = s.xfers + (n + 1) ∧ u.xfers = s.xfers + 2 + (n + 1) ∧
      t.ok = u.ok ∧ t.err = u.err ∧ t.plen = u.plen ∧ (∀ i, Memory.read t.pbuf i = Memory.read u.pbuf i) ∧
      atRest t ∧ t.rx = s.rx ∧ operandsKept s t ∧ abufKept s t ∧ pollerKept s t ∧ t.draws = s.draws ∧ hostKept s t

/-- R171, R187: a frame with host direction that no encoder sends is judged as RECEIVE judges it from a device that
gives it: never accepted, by the first check that fails; the device's further answers are as they were (log 13). -/
def Obligations.FrameThatNoHostSendsIsRejected : Prop :=
  ∀ (s : State) (len lcs : Byte) (body : List Byte), s.busy = false → s.maxlen.toNat ≤ 254 →
    wfBody len body = true → sentByNoHost len lcs body →
    ∃ t, exec (.frameH2d len lcs body) s = .next t ∧ atRest t ∧ payloadLost t ∧
      (len + lcs ≠ 0 → failedWith .checksumMismatch t ∧
        t.trace = s.trace ++ readEvents [0x00, 0x00, 0xFF, len, lcs]) ∧
      (len + lcs = 0 → failedWith .unexpectedDirection t ∧
        t.trace = s.trace ++ readEvents [0x00, 0x00, 0xFF, len, lcs, 0xD4]) ∧
      t.rx = s.rx ∧ operandsKept s t ∧ abufKept s t ∧ pollerKept s t ∧ t.draws = s.draws ∧ hostKept s t

/-! Failure, and the machine as a whole (60_exceptions.md, 10_state.md). -/

/-- R236: everything the failure exit does. (`ABUF`, internal to AWAIT_ACK, is unspecified once that operation has
ended, R39.) -/
def Obligations.FailureExitReleasesRecordsAndEnds : Prop :=
  ∀ (op : Operation) (e : ErrKind) (s : State),
    atRest (raise op e s) ∧ failedWith e (raise op e s) ∧
    (raise op e s).trace = s.trace ++ (if s.cs then [.csRelease] else []) ∧
    (op = .receive → payloadLost (raise op e s)) ∧ (op ≠ .receive → payloadKept s (raise op e s)) ∧
    (op ≠ .awaitAck → abufKept s (raise op e s)) ∧
    operandsKept s (raise op e s) ∧ decoderKept s (raise op e s) ∧ frameWorkKept s (raise op e s) ∧
    pollerKept s (raise op e s) ∧ (raise op e s).idx = s.idx ∧ (raise op e s).xfers = s.xfers ∧
    (raise op e s).rx = s.rx ∧ (raise op e s).draws = s.draws ∧ hostKept s (raise op e s)

/-- The invariant holds at reset. -/
def Obligations.ResetSatisfiesTheInvariant : Prop := Inv State.reset

/-- Every step of the machine keeps the invariant, from every state that has it. -/
def Obligations.StepKeepsTheInvariant : Prop := ∀ s t : State, Inv s → step s = .next t → Inv t

/-- R28, R85: after every step, whenever `BUSY = 0` chip-select is released and the whole trace is well shaped:
`CS-` and `CS+` alternate, every exchange lies between them and each transaction begins with a marker. -/
def Obligations.IdleMeansReleasedAndWellShaped : Prop :=
  ∀ s t : State, Inv s → step s = .next t → t.busy = false → t.cs = false ∧ traceState t.trace = some .released

/-- R29: the block never writes an operand register or `CBUF`: no numbered step does, and no row but the host's own
three sequences. -/
def Obligations.OnlyTheHostWritesOperands : Prop :=
  (∀ s : State, operandsKept s (seqStep s)) ∧
  (∀ (i : Instr) (s t : State), i ≠ .getFirmwareVersion → i ≠ .configureSecurityModule → i ≠ .enumeratePassiveTarget →
    exec i s = .next t → operandsKept s t)

/-- R36: after every completed operation `OK = 1` if and only if `ERR = NONE`. That a `FRAME` or `ACK` row completes an
operation is the model's choice (log 13). -/
def Obligations.OkExactlyWhenErrIsNone : Prop :=
  ∀ (i : Instr) (s t : State), i.format = .op ∨ i.format = .frame ∨ i.format = .ack → exec i s = .next t →
    (t.ok = true ↔ t.err = .none)

/-- R85: a step never rewrites the trace; that a reset keeps it is the model's choice (log 20). -/
def Obligations.TraceOnlyGrows : Prop := ∀ s t : State, step s = .next t → s.trace <+: t.trace

/-- R40 to R44: a request, taken one numbered step at a time, ends in the state that the operation as a whole gives. -/
def Obligations.SequencerRefinesEveryOperation : Prop :=
  ∀ (op : Operation) (s t : State), exec op.instr s = .next t → ∃ n, n ≤ stepBound s ∧ seqRun n (accept op s) = t

/-- R239: every accepted operation ends, whatever the device answers, within the bound. -/
def Obligations.EveryAcceptedOperationEnds : Prop :=
  ∀ (op : Operation) (s : State), operandsLegal op s = true →
    (seqRun (stepBound s) (accept op s)).busy = false ∧ (seqRun (stepBound s) (accept op s)).phase = .idle

/-! The host's sequences (45_command_session.md). -/

/-- R204, R207, R208: the frame each sequence sends first. -/
def Obligations.SequencesSendTheirCommandFirst : Prop :=
  ∀ s t : State,
    (exec .getFirmwareVersion s = .next t →
      s.trace ++ writeEvents [0x00, 0x00, 0xFF, 0x02, 0xFE, 0xD4, 0x02, 0x2A, 0x00] <+: t.trace) ∧
    (exec .configureSecurityModule s = .next t → s.host.params.samMode = 0x01 → s.host.params.samIrq = 0x01 →
      s.trace ++ writeEvents [0x00, 0x00, 0xFF, 0x05, 0xFB, 0xD4, 0x14, 0x01, 0x14, 0x01, 0x02, 0x00] <+: t.trace) ∧
    (exec .enumeratePassiveTarget s = .next t → s.host.params.cardType = 0x00 →
      s.trace ++ writeEvents [0x00, 0x00, 0xFF, 0x04, 0xFC, 0xD4, 0x4A, 0x01, 0x00, 0xE1, 0x00] <+: t.trace)

/-- What a sequence of the host, a command of `cmd` read with `m`, leaves when it has answered: its own operands, the
rest of `CBUF`, the block at rest, its parameters and its schedule; under ABORT with a failed handshake the operands
are those of AWAIT_ACK. -/
def Obligations.SequencesLeaveTheirOperandsAndTheBlockAtRest : Prop :=
  ∀ (i : Instr) (cmd : List Byte) (m : BitVec 8) (s t : State),
    (i = .getFirmwareVersion ∧ cmd = [0x02] ∧ m = s.host.params.maxlenFw) ∨
    (i = .configureSecurityModule ∧ cmd = [0x14, s.host.params.samMode, 0x14, s.host.params.samIrq] ∧
      m = s.host.params.maxlenSam) ∨
    (i = .enumeratePassiveTarget ∧ cmd = [0x4A, 0x01, s.host.params.cardType] ∧ m = s.host.params.maxlenEnum) →
    exec i s = .next t →
    atRest t ∧ t.clen.toNat = cmd.length ∧ holdsBytes t.cbuf cmd ∧
      (∀ j, cmd.length ≤ j → Memory.read t.cbuf j = Memory.read s.cbuf j) ∧
      (∀ j, Memory.read t.abuf j = none) ∧ t.host.params = s.host.params ∧ t.inbox = s.inbox ∧
      (goesOn cmd s → t.opsel = 3 ∧ t.timeout.toNat = 1000 ∧ t.maxlen = m) ∧
      (¬ goesOn cmd s → t.opsel = 2 ∧ t.timeout.toNat = 10 ∧ t.maxlen = s.maxlen ∧ payloadKept s t)

/-- R201, R202, R204, R206: whatever became of the handshake under CONTINUE, and after a successful one under ABORT, a
delivered firmware response gives the big-endian word of its bytes 1 to 4; byte 0 is not checked. -/
def Obligations.FirmwareQueryReturnsTheVersionWord : Prop :=
  ∀ (s : State) (k : Nat) (p0 p1 p2 p3 p4 : Byte) (rest : List Byte), s.busy = false →
    goesOn [0x02] s → s.host.params.maxlenFw.toNat ≤ 254 → rest.length + 5 ≤ s.host.params.maxlenFw.toNat →
    deliversFrame (receiveBegins [0x02] s.host.params.maxlenFw s) k (p0 :: p1 :: p2 :: p3 :: p4 :: rest) →
    ∃ t, exec .getFirmwareVersion s = .next t ∧
      t.host.version.toNat = p1.toNat * 2 ^ 24 + p2.toNat * 2 ^ 16 + p3.toNat * 2 ^ 8 + p4.toNat ∧
      t.host = { s.host with version := t.host.version }

/-- R205: a firmware query whose exchange fails, of whatever kind, gives the sentinel zero. -/
def Obligations.FirmwareQueryFailureIsZero : Prop :=
  ∀ (s u : State) (e : ErrKind), s.busy = false → exchange [0x02] s.host.params.maxlenFw s = .ok (e, u) → e ≠ .none →
    ∃ t, exec .getFirmwareVersion s = .next t ∧ t.host = { s.host with version := 0 }

/-- R207: the security-module sequence completes, and its result is success exactly if the exchange ended in `Ok`,
under both policies: RECEIVE's `OK` where the exchange goes on to it, failure where ABORT ends it before. -/
def Obligations.SecurityModuleSequenceReportsTheExchange : Prop :=
  ∀ (s : State) (cmd : List Byte), s.busy = false →
    cmd = [0x14, s.host.params.samMode, 0x14, s.host.params.samIrq] →
    s.host.params.maxlenSam.toNat ≤ 254 ∨ ¬ goesOn cmd s →
    ∃ (e : ErrKind) (u t : State), exchange cmd s.host.params.maxlenSam s = .ok (e, u) ∧
      exec .configureSecurityModule s = .next t ∧ t.host = { s.host with samOk := t.host.samOk } ∧
      (t.host.samOk = true ↔ e = .none) ∧
      (goesOn cmd s → t.host.samOk = (receive (receiveBegins cmd s.host.params.maxlenSam s)).ok) ∧
      (¬ goesOn cmd s → t.host.samOk = false)

/-- R208, R209: a delivered enumeration response with code 0x4B and count 1 gives its identifier, under CONTINUE, and
under ABORT after a successful handshake. -/
def Obligations.EnumerationFindsTheTarget : Prop :=
  ∀ (s : State) (k : Nat) (tg sens1 sens2 sel l : Byte) (ident rest : List Byte), s.busy = false →
    goesOn [0x4A, 0x01, s.host.params.cardType] s → s.host.params.maxlenEnum.toNat ≤ 254 → l.toNat ≤ 7 →
    ident.length = l.toNat → 7 + ident.length + rest.length ≤ s.host.params.maxlenEnum.toNat →
    deliversFrame (receiveBegins [0x4A, 0x01, s.host.params.cardType] s.host.params.maxlenEnum s) k
      ([0x4B, 0x01, tg, sens1, sens2, sel, l] ++ ident ++ rest) →
    ∃ t, exec .enumeratePassiveTarget s = .next t ∧
      t.host = { s.host with found := true, ident := ident, identLen := l }

/-- R208, R209, R210: a response with another code, or with code 0x4B and a count other than 1, and every exchange that
ends in an error kind, is `found = false` with nothing copied. That the count is not read after another code is the
model's choice (log 16). -/
def Obligations.EnumerationReportsNoTarget : Prop :=
  ∀ s : State, s.busy = false →
    (∀ (k : Nat) (code : Byte) (rest : List Byte), goesOn [0x4A, 0x01, s.host.params.cardType] s →
      s.host.params.maxlenEnum.toNat ≤ 254 → rest.length + 1 ≤ s.host.params.maxlenEnum.toNat →
      (code ≠ 0x4B ∨ ∃ count rest', rest = count :: rest' ∧ count ≠ 0x01) →
      deliversFrame (receiveBegins [0x4A, 0x01, s.host.params.cardType] s.host.params.maxlenEnum s) k (code :: rest) →
      ∃ t, exec .enumeratePassiveTarget s = .next t ∧ t.host = { s.host with found := false }) ∧
    (∀ (e : ErrKind) (u : State),
      exchange [0x4A, 0x01, s.host.params.cardType] s.host.params.maxlenEnum s = .ok (e, u) → e ≠ .none →
      ∃ t, exec .enumeratePassiveTarget s = .next t ∧ t.host = { s.host with found := false })

/-- R211: a delivered response faults the run where its sequence would read at or beyond its end, a firmware response
below offset 5, an enumeration response at offset 0, 1, 6 or in the identifier, and where the identifier is longer
than 7 bytes. That an offset is read only after the checks before it pass is the model's choice (log 16). -/
def Obligations.MeaninglessResponsesFaultTheRun : Prop :=
  ∀ (s : State) (k : Nat) (p : List Byte), s.busy = false →
    (goesOn [0x02] s → s.host.params.maxlenFw.toNat ≤ 254 → p.length ≤ s.host.params.maxlenFw.toNat →
      deliversFrame (receiveBegins [0x02] s.host.params.maxlenFw s) k p →
      p.length < 5 → exec .getFirmwareVersion s = .fault .readBeyondPayload) ∧
    (goesOn [0x4A, 0x01, s.host.params.cardType] s → s.host.params.maxlenEnum.toNat ≤ 254 →
      p.length ≤ s.host.params.maxlenEnum.toNat →
      deliversFrame (receiveBegins [0x4A, 0x01, s.host.params.cardType] s.host.params.maxlenEnum s) k p →
      (p = [] ∨ p = [0x4B] → exec .enumeratePassiveTarget s = .fault .readBeyondPayload) ∧
      (∀ rest, p = [0x4B, 0x01] ++ rest → rest.length < 5 →
        exec .enumeratePassiveTarget s = .fault .readBeyondPayload) ∧
      (∀ (tg sens1 sens2 sel l : Byte) (rest : List Byte), p = [0x4B, 0x01, tg, sens1, sens2, sel, l] ++ rest →
        (7 < l.toNat → exec .enumeratePassiveTarget s = .fault .identifierTooLong) ∧
        (l.toNat ≤ 7 → rest.length < l.toNat → exec .enumeratePassiveTarget s = .fault .readBeyondPayload)))

/-- R201, R202: under ABORT a failed handshake ends the exchange with the handshake's kind and no RECEIVE; under
CONTINUE it changes nothing in what follows. -/
def Obligations.HandshakePolicyDecidesTheExchange : Prop :=
  ∀ (cmd : List Byte) (m : BitVec 8) (s : State), cmd.length ≤ 254 →
    (s.host.params.ackPolicy = .abort → (sendAndAwait cmd s).ok = false →
      exchange cmd m s = .ok ((sendAndAwait cmd s).err, sendAndAwait cmd s)) ∧
    (s.host.params.ackPolicy = .continue ∨ (sendAndAwait cmd s).ok = true → m.toNat ≤ 254 →
      exchange cmd m s = .ok (if (receive (receiveBegins cmd m s)).ok then ErrKind.none
        else (receive (receiveBegins cmd m s)).err, receive (receiveBegins cmd m s)))

/-- R206, R211: the host's reading of a firmware response in `PBUF`, and that a short one faults. That the row is the
host's reading of the response now in `PBUF` is the model's reading (log 15). -/
def Obligations.FirmwareResponseIsReadBigEndian : Prop :=
  ∀ s : State, s.busy = false →
    (∀ (p0 p1 p2 p3 p4 : Byte), 5 ≤ s.plen.toNat → holdsBytes s.pbuf [p0, p1, p2, p3, p4] →
      ∃ t, exec .respFirmwareVersion s = .next t ∧
        t.host.version.toNat = p1.toNat * 2 ^ 24 + p2.toNat * 2 ^ 16 + p3.toNat * 2 ^ 8 + p4.toNat ∧
        t = { s with host := { s.host with version := t.host.version } }) ∧
    (s.plen.toNat < 5 → exec .respFirmwareVersion s = .fault .readBeyondPayload)

/-- R207: the payload of a security-module response is not looked at; absence of error is success (log 15). -/
def Obligations.SecurityModuleResponseIsNotLookedAt : Prop :=
  ∀ s : State, s.busy = false →
    exec .respConfigureSecurityModule s = .next { s with host := { s.host with samOk := s.ok } }

/-- R209, R211: the host's reading of an enumeration response in `PBUF`: a target with its identifier, no target, or
a run that faults where `P[0]`, `P[1]`, `P[6]` or the identifier would be read at or beyond `PLEN`. That the row reads
`PBUF` now (log 15), and `P[1]` only after `P[0]` (log 16), is the model's. -/
def Obligations.EnumerationResponseIsValidated : Prop :=
  ∀ s : State, s.busy = false →
    (∀ (tg sens1 sens2 sel l : Byte) (ident : List Byte), l.toNat ≤ 7 → ident.length = l.toNat →
      7 + l.toNat ≤ s.plen.toNat → holdsBytes s.pbuf ([0x4B, 0x01, tg, sens1, sens2, sel, l] ++ ident) →
      exec .respEnumeratePassiveTarget s =
        .next { s with host := { s.host with found := true, ident := ident, identLen := l } }) ∧
    (∀ code : Byte, code ≠ 0x4B → 1 ≤ s.plen.toNat → holdsBytes s.pbuf [code] →
      exec .respEnumeratePassiveTarget s = .next { s with host := { s.host with found := false } }) ∧
    (∀ count : Byte, count ≠ 0x01 → 2 ≤ s.plen.toNat → holdsBytes s.pbuf [0x4B, count] →
      exec .respEnumeratePassiveTarget s = .next { s with host := { s.host with found := false } }) ∧
    (s.plen.toNat = 0 → exec .respEnumeratePassiveTarget s = .fault .readBeyondPayload) ∧
    (s.plen.toNat = 1 → holdsBytes s.pbuf [0x4B] → exec .respEnumeratePassiveTarget s = .fault .readBeyondPayload) ∧
    (2 ≤ s.plen.toNat → s.plen.toNat < 7 → holdsBytes s.pbuf [0x4B, 0x01] →
      exec .respEnumeratePassiveTarget s = .fault .readBeyondPayload) ∧
    (∀ (tg sens1 sens2 sel l : Byte), 7 < l.toNat → 7 ≤ s.plen.toNat →
      holdsBytes s.pbuf [0x4B, 0x01, tg, sens1, sens2, sel, l] →
      exec .respEnumeratePassiveTarget s = .fault .identifierTooLong) ∧
    (∀ (tg sens1 sens2 sel l : Byte), l.toNat ≤ 7 → 7 ≤ s.plen.toNat → s.plen.toNat < 7 + l.toNat →
      holdsBytes s.pbuf [0x4B, 0x01, tg, sens1, sens2, sel, l] →
      exec .respEnumeratePassiveTarget s = .fault .readBeyondPayload)

end
end

