-- ==== Sys2Proof/Laws/State.lean ====
section
/-! SUPPORT. Laws/State.lean: one lemma per field per update, all true by rfl. -/

namespace Sys2Proof.Machine

variable (s : State)

/-! `emit e s` -/
@[simp] theorem emit_opsel (e : Event) : (emit e s).opsel = s.opsel := rfl
@[simp] theorem emit_timeout (e : Event) : (emit e s).timeout = s.timeout := rfl
@[simp] theorem emit_maxlen (e : Event) : (emit e s).maxlen = s.maxlen := rfl
@[simp] theorem emit_clen (e : Event) : (emit e s).clen = s.clen := rfl
@[simp] theorem emit_busy (e : Event) : (emit e s).busy = s.busy := rfl
@[simp] theorem emit_ok (e : Event) : (emit e s).ok = s.ok := rfl
@[simp] theorem emit_err (e : Event) : (emit e s).err = s.err := rfl
@[simp] theorem emit_plen (e : Event) : (emit e s).plen = s.plen := rfl
@[simp] theorem emit_cs (e : Event) : (emit e s).cs = s.cs := rfl
@[simp] theorem emit_csum (e : Event) : (emit e s).csum = s.csum := rfl
@[simp] theorem emit_len (e : Event) : (emit e s).len = s.len := rfl
@[simp] theorem emit_lcsr (e : Event) : (emit e s).lcsr = s.lcsr := rfl
@[simp] theorem emit_dirr (e : Event) : (emit e s).dirr = s.dirr := rfl
@[simp] theorem emit_statb (e : Event) : (emit e s).statb = s.statb := rfl
@[simp] theorem emit_idx (e : Event) : (emit e s).idx = s.idx := rfl
@[simp] theorem emit_elapsed (e : Event) : (emit e s).elapsed = s.elapsed := rfl
@[simp] theorem emit_phase (e : Event) : (emit e s).phase = s.phase := rfl
@[simp] theorem emit_cbuf (e : Event) : (emit e s).cbuf = s.cbuf := rfl
@[simp] theorem emit_pbuf (e : Event) : (emit e s).pbuf = s.pbuf := rfl
@[simp] theorem emit_abuf (e : Event) : (emit e s).abuf = s.abuf := rfl
@[simp] theorem emit_rx (e : Event) : (emit e s).rx = s.rx := rfl
@[simp] theorem emit_xfers (e : Event) : (emit e s).xfers = s.xfers := rfl
@[simp] theorem emit_draws (e : Event) : (emit e s).draws = s.draws := rfl
@[simp] theorem emit_trace (e : Event) : (emit e s).trace = s.trace ++ [e] := rfl
@[simp] theorem emit_host (e : Event) : (emit e s).host = s.host := rfl
@[simp] theorem emit_inbox (e : Event) : (emit e s).inbox = s.inbox := rfl

/-! `exchanged s` -/
@[simp] theorem exchanged_opsel : (exchanged s).opsel = s.opsel := rfl
@[simp] theorem exchanged_timeout : (exchanged s).timeout = s.timeout := rfl
@[simp] theorem exchanged_maxlen : (exchanged s).maxlen = s.maxlen := rfl
@[simp] theorem exchanged_clen : (exchanged s).clen = s.clen := rfl
@[simp] theorem exchanged_busy : (exchanged s).busy = s.busy := rfl
@[simp] theorem exchanged_ok : (exchanged s).ok = s.ok := rfl
@[simp] theorem exchanged_err : (exchanged s).err = s.err := rfl
@[simp] theorem exchanged_plen : (exchanged s).plen = s.plen := rfl
@[simp] theorem exchanged_cs : (exchanged s).cs = s.cs := rfl
@[simp] theorem exchanged_csum : (exchanged s).csum = s.csum := rfl
@[simp] theorem exchanged_len : (exchanged s).len = s.len := rfl
@[simp] theorem exchanged_lcsr : (exchanged s).lcsr = s.lcsr := rfl
@[simp] theorem exchanged_dirr : (exchanged s).dirr = s.dirr := rfl
@[simp] theorem exchanged_statb : (exchanged s).statb = s.statb := rfl
@[simp] theorem exchanged_idx : (exchanged s).idx = s.idx := rfl
@[simp] theorem exchanged_elapsed : (exchanged s).elapsed = s.elapsed := rfl
@[simp] theorem exchanged_phase : (exchanged s).phase = s.phase := rfl
@[simp] theorem exchanged_cbuf : (exchanged s).cbuf = s.cbuf := rfl
@[simp] theorem exchanged_pbuf : (exchanged s).pbuf = s.pbuf := rfl
@[simp] theorem exchanged_abuf : (exchanged s).abuf = s.abuf := rfl
@[simp] theorem exchanged_rx : (exchanged s).rx = s.rx.tail := rfl
@[simp] theorem exchanged_xfers : (exchanged s).xfers = s.xfers + 1 := rfl
@[simp] theorem exchanged_draws : (exchanged s).draws = s.draws := rfl
@[simp] theorem exchanged_trace : (exchanged s).trace = s.trace := rfl
@[simp] theorem exchanged_host : (exchanged s).host = s.host := rfl
@[simp] theorem exchanged_inbox : (exchanged s).inbox = s.inbox := rfl

/-! `csAssert s` -/
@[simp] theorem csAssert_opsel : (csAssert s).opsel = s.opsel := rfl
@[simp] theorem csAssert_timeout : (csAssert s).timeout = s.timeout := rfl
@[simp] theorem csAssert_maxlen : (csAssert s).maxlen = s.maxlen := rfl
@[simp] theorem csAssert_clen : (csAssert s).clen = s.clen := rfl
@[simp] theorem csAssert_busy : (csAssert s).busy = s.busy := rfl
@[simp] theorem csAssert_ok : (csAssert s).ok = s.ok := rfl
@[simp] theorem csAssert_err : (csAssert s).err = s.err := rfl
@[simp] theorem csAssert_plen : (csAssert s).plen = s.plen := rfl
@[simp] theorem csAssert_cs : (csAssert s).cs = true := rfl
@[simp] theorem csAssert_csum : (csAssert s).csum = s.csum := rfl
@[simp] theorem csAssert_len : (csAssert s).len = s.len := rfl
@[simp] theorem csAssert_lcsr : (csAssert s).lcsr = s.lcsr := rfl
@[simp] theorem csAssert_dirr : (csAssert s).dirr = s.dirr := rfl
@[simp] theorem csAssert_statb : (csAssert s).statb = s.statb := rfl
@[simp] theorem csAssert_idx : (csAssert s).idx = s.idx := rfl
@[simp] theorem csAssert_elapsed : (csAssert s).elapsed = s.elapsed := rfl
@[simp] theorem csAssert_phase : (csAssert s).phase = s.phase := rfl
@[simp] theorem csAssert_cbuf : (csAssert s).cbuf = s.cbuf := rfl
@[simp] theorem csAssert_pbuf : (csAssert s).pbuf = s.pbuf := rfl
@[simp] theorem csAssert_abuf : (csAssert s).abuf = s.abuf := rfl
@[simp] theorem csAssert_rx : (csAssert s).rx = s.rx := rfl
@[simp] theorem csAssert_xfers : (csAssert s).xfers = s.xfers := rfl
@[simp] theorem csAssert_draws : (csAssert s).draws = s.draws := rfl
@[simp] theorem csAssert_trace : (csAssert s).trace = s.trace ++ [.csAssert] := rfl
@[simp] theorem csAssert_host : (csAssert s).host = s.host := rfl
@[simp] theorem csAssert_inbox : (csAssert s).inbox = s.inbox := rfl

/-! `csRelease s` -/
@[simp] theorem csRelease_opsel : (csRelease s).opsel = s.opsel := rfl
@[simp] theorem csRelease_timeout : (csRelease s).timeout = s.timeout := rfl
@[simp] theorem csRelease_maxlen : (csRelease s).maxlen = s.maxlen := rfl
@[simp] theorem csRelease_clen : (csRelease s).clen = s.clen := rfl
@[simp] theorem csRelease_busy : (csRelease s).busy = s.busy := rfl
@[simp] theorem csRelease_ok : (csRelease s).ok = s.ok := rfl
@[simp] theorem csRelease_err : (csRelease s).err = s.err := rfl
@[simp] theorem csRelease_plen : (csRelease s).plen = s.plen := rfl
@[simp] theorem csRelease_cs : (csRelease s).cs = false := rfl
@[simp] theorem csRelease_csum : (csRelease s).csum = s.csum := rfl
@[simp] theorem csRelease_len : (csRelease s).len = s.len := rfl
@[simp] theorem csRelease_lcsr : (csRelease s).lcsr = s.lcsr := rfl
@[simp] theorem csRelease_dirr : (csRelease s).dirr = s.dirr := rfl
@[simp] theorem csRelease_statb : (csRelease s).statb = s.statb := rfl
@[simp] theorem csRelease_idx : (csRelease s).idx = s.idx := rfl
@[simp] theorem csRelease_elapsed : (csRelease s).elapsed = s.elapsed := rfl
@[simp] theorem csRelease_phase : (csRelease s).phase = s.phase := rfl
@[simp] theorem csRelease_cbuf : (csRelease s).cbuf = s.cbuf := rfl
@[simp] theorem csRelease_pbuf : (csRelease s).pbuf = s.pbuf := rfl
@[simp] theorem csRelease_abuf : (csRelease s).abuf = s.abuf := rfl
@[simp] theorem csRelease_rx : (csRelease s).rx = s.rx := rfl
@[simp] theorem csRelease_xfers : (csRelease s).xfers = s.xfers := rfl
@[simp] theorem csRelease_draws : (csRelease s).draws = s.draws := rfl
@[simp] theorem csRelease_trace : (csRelease s).trace = s.trace ++ [.csRelease] := rfl
@[simp] theorem csRelease_host : (csRelease s).host = s.host := rfl
@[simp] theorem csRelease_inbox : (csRelease s).inbox = s.inbox := rfl

/-! `busWrite b s` -/
@[simp] theorem busWrite_opsel (b : Byte) : (busWrite b s).opsel = s.opsel := rfl
@[simp] theorem busWrite_timeout (b : Byte) : (busWrite b s).timeout = s.timeout := rfl
@[simp] theorem busWrite_maxlen (b : Byte) : (busWrite b s).maxlen = s.maxlen := rfl
@[simp] theorem busWrite_clen (b : Byte) : (busWrite b s).clen = s.clen := rfl
@[simp] theorem busWrite_busy (b : Byte) : (busWrite b s).busy = s.busy := rfl
@[simp] theorem busWrite_ok (b : Byte) : (busWrite b s).ok = s.ok := rfl
@[simp] theorem busWrite_err (b : Byte) : (busWrite b s).err = s.err := rfl
@[simp] theorem busWrite_plen (b : Byte) : (busWrite b s).plen = s.plen := rfl
@[simp] theorem busWrite_cs (b : Byte) : (busWrite b s).cs = s.cs := rfl
@[simp] theorem busWrite_csum (b : Byte) : (busWrite b s).csum = s.csum := rfl
@[simp] theorem busWrite_len (b : Byte) : (busWrite b s).len = s.len := rfl
@[simp] theorem busWrite_lcsr (b : Byte) : (busWrite b s).lcsr = s.lcsr := rfl
@[simp] theorem busWrite_dirr (b : Byte) : (busWrite b s).dirr = s.dirr := rfl
@[simp] theorem busWrite_statb (b : Byte) : (busWrite b s).statb = s.statb := rfl
@[simp] theorem busWrite_idx (b : Byte) : (busWrite b s).idx = s.idx := rfl
@[simp] theorem busWrite_elapsed (b : Byte) : (busWrite b s).elapsed = s.elapsed := rfl
@[simp] theorem busWrite_phase (b : Byte) : (busWrite b s).phase = s.phase := rfl
@[simp] theorem busWrite_cbuf (b : Byte) : (busWrite b s).cbuf = s.cbuf := rfl
@[simp] theorem busWrite_pbuf (b : Byte) : (busWrite b s).pbuf = s.pbuf := rfl
@[simp] theorem busWrite_abuf (b : Byte) : (busWrite b s).abuf = s.abuf := rfl
@[simp] theorem busWrite_rx (b : Byte) : (busWrite b s).rx = s.rx.tail := rfl
@[simp] theorem busWrite_xfers (b : Byte) : (busWrite b s).xfers = s.xfers + 1 := rfl
@[simp] theorem busWrite_draws (b : Byte) : (busWrite b s).draws = s.draws := rfl
@[simp] theorem busWrite_trace (b : Byte) : (busWrite b s).trace = s.trace ++ [.write b] := rfl
@[simp] theorem busWrite_host (b : Byte) : (busWrite b s).host = s.host := rfl
@[simp] theorem busWrite_inbox (b : Byte) : (busWrite b s).inbox = s.inbox := rfl

/-! `(busRead s).2` -/
@[simp] theorem busRead_opsel : ((busRead s).2).opsel = s.opsel := rfl
@[simp] theorem busRead_timeout : ((busRead s).2).timeout = s.timeout := rfl
@[simp] theorem busRead_maxlen : ((busRead s).2).maxlen = s.maxlen := rfl
@[simp] theorem busRead_clen : ((busRead s).2).clen = s.clen := rfl
@[simp] theorem busRead_busy : ((busRead s).2).busy = s.busy := rfl
@[simp] theorem busRead_ok : ((busRead s).2).ok = s.ok := rfl
@[simp] theorem busRead_err : ((busRead s).2).err = s.err := rfl
@[simp] theorem busRead_plen : ((busRead s).2).plen = s.plen := rfl
@[simp] theorem busRead_cs : ((busRead s).2).cs = s.cs := rfl
@[simp] theorem busRead_csum : ((busRead s).2).csum = s.csum := rfl
@[simp] theorem busRead_len : ((busRead s).2).len = s.len := rfl
@[simp] theorem busRead_lcsr : ((busRead s).2).lcsr = s.lcsr := rfl
@[simp] theorem busRead_dirr : ((busRead s).2).dirr = s.dirr := rfl
@[simp] theorem busRead_statb : ((busRead s).2).statb = s.statb := rfl
@[simp] theorem busRead_idx : ((busRead s).2).idx = s.idx := rfl
@[simp] theorem busRead_elapsed : ((busRead s).2).elapsed = s.elapsed := rfl
@[simp] theorem busRead_phase : ((busRead s).2).phase = s.phase := rfl
@[simp] theorem busRead_cbuf : ((busRead s).2).cbuf = s.cbuf := rfl
@[simp] theorem busRead_pbuf : ((busRead s).2).pbuf = s.pbuf := rfl
@[simp] theorem busRead_abuf : ((busRead s).2).abuf = s.abuf := rfl
@[simp] theorem busRead_rx : ((busRead s).2).rx = s.rx.tail := rfl
@[simp] theorem busRead_xfers : ((busRead s).2).xfers = s.xfers + 1 := rfl
@[simp] theorem busRead_draws : ((busRead s).2).draws = s.draws := rfl
@[simp] theorem busRead_trace : ((busRead s).2).trace = s.trace ++ [.read (deviceAnswer s)] := rfl
@[simp] theorem busRead_host : ((busRead s).2).host = s.host := rfl
@[simp] theorem busRead_inbox : ((busRead s).2).inbox = s.inbox := rfl

/-! `(freeDraw s).2` -/
@[simp] theorem freeDraw_opsel : ((freeDraw s).2).opsel = s.opsel := rfl
@[simp] theorem freeDraw_timeout : ((freeDraw s).2).timeout = s.timeout := rfl
@[simp] theorem freeDraw_maxlen : ((freeDraw s).2).maxlen = s.maxlen := rfl
@[simp] theorem freeDraw_clen : ((freeDraw s).2).clen = s.clen := rfl
@[simp] theorem freeDraw_busy : ((freeDraw s).2).busy = s.busy := rfl
@[simp] theorem freeDraw_ok : ((freeDraw s).2).ok = s.ok := rfl
@[simp] theorem freeDraw_err : ((freeDraw s).2).err = s.err := rfl
@[simp] theorem freeDraw_plen : ((freeDraw s).2).plen = s.plen := rfl
@[simp] theorem freeDraw_cs : ((freeDraw s).2).cs = s.cs := rfl
@[simp] theorem freeDraw_csum : ((freeDraw s).2).csum = s.csum := rfl
@[simp] theorem freeDraw_len : ((freeDraw s).2).len = s.len := rfl
@[simp] theorem freeDraw_lcsr : ((freeDraw s).2).lcsr = s.lcsr := rfl
@[simp] theorem freeDraw_dirr : ((freeDraw s).2).dirr = s.dirr := rfl
@[simp] theorem freeDraw_statb : ((freeDraw s).2).statb = s.statb := rfl
@[simp] theorem freeDraw_idx : ((freeDraw s).2).idx = s.idx := rfl
@[simp] theorem freeDraw_elapsed : ((freeDraw s).2).elapsed = s.elapsed := rfl
@[simp] theorem freeDraw_phase : ((freeDraw s).2).phase = s.phase := rfl
@[simp] theorem freeDraw_cbuf : ((freeDraw s).2).cbuf = s.cbuf := rfl
@[simp] theorem freeDraw_pbuf : ((freeDraw s).2).pbuf = s.pbuf := rfl
@[simp] theorem freeDraw_abuf : ((freeDraw s).2).abuf = s.abuf := rfl
@[simp] theorem freeDraw_rx : ((freeDraw s).2).rx = s.rx := rfl
@[simp] theorem freeDraw_xfers : ((freeDraw s).2).xfers = s.xfers := rfl
@[simp] theorem freeDraw_draws : ((freeDraw s).2).draws = s.draws + 1 := rfl
@[simp] theorem freeDraw_trace : ((freeDraw s).2).trace = s.trace := rfl
@[simp] theorem freeDraw_host : ((freeDraw s).2).host = s.host := rfl
@[simp] theorem freeDraw_inbox : ((freeDraw s).2).inbox = s.inbox := rfl

/-! `settle s` -/
@[simp] theorem settle_opsel : (settle s).opsel = s.opsel := rfl
@[simp] theorem settle_timeout : (settle s).timeout = s.timeout := rfl
@[simp] theorem settle_maxlen : (settle s).maxlen = s.maxlen := rfl
@[simp] theorem settle_clen : (settle s).clen = s.clen := rfl
@[simp] theorem settle_busy : (settle s).busy = s.busy := rfl
@[simp] theorem settle_ok : (settle s).ok = s.ok := rfl
@[simp] theorem settle_err : (settle s).err = s.err := rfl
@[simp] theorem settle_plen : (settle s).plen = s.plen := rfl
@[simp] theorem settle_cs : (settle s).cs = s.cs := rfl
@[simp] theorem settle_csum : (settle s).csum = s.csum := rfl
@[simp] theorem settle_len : (settle s).len = s.len := rfl
@[simp] theorem settle_lcsr : (settle s).lcsr = s.lcsr := rfl
@[simp] theorem settle_dirr : (settle s).dirr = s.dirr := rfl
@[simp] theorem settle_statb : (settle s).statb = s.statb := rfl
@[simp] theorem settle_idx : (settle s).idx = s.idx := rfl
@[simp] theorem settle_elapsed : (settle s).elapsed = s.elapsed := rfl
@[simp] theorem settle_phase : (settle s).phase = s.phase := rfl
@[simp] theorem settle_cbuf : (settle s).cbuf = s.cbuf := rfl
@[simp] theorem settle_pbuf : (settle s).pbuf = s.pbuf := rfl
@[simp] theorem settle_abuf : (settle s).abuf = s.abuf := rfl
@[simp] theorem settle_rx : (settle s).rx = s.rx := rfl
@[simp] theorem settle_xfers : (settle s).xfers = s.xfers := rfl
@[simp] theorem settle_draws : (settle s).draws = s.draws := rfl
@[simp] theorem settle_trace : (settle s).trace = s.trace ++ [.settle] := rfl
@[simp] theorem settle_host : (settle s).host = s.host := rfl
@[simp] theorem settle_inbox : (settle s).inbox = s.inbox := rfl

/-! `delay n s` -/
@[simp] theorem delay_opsel (n : Nat) : (delay n s).opsel = s.opsel := rfl
@[simp] theorem delay_timeout (n : Nat) : (delay n s).timeout = s.timeout := rfl
@[simp] theorem delay_maxlen (n : Nat) : (delay n s).maxlen = s.maxlen := rfl
@[simp] theorem delay_clen (n : Nat) : (delay n s).clen = s.clen := rfl
@[simp] theorem delay_busy (n : Nat) : (delay n s).busy = s.busy := rfl
@[simp] theorem delay_ok (n : Nat) : (delay n s).ok = s.ok := rfl
@[simp] theorem delay_err (n : Nat) : (delay n s).err = s.err := rfl
@[simp] theorem delay_plen (n : Nat) : (delay n s).plen = s.plen := rfl
@[simp] theorem delay_cs (n : Nat) : (delay n s).cs = s.cs := rfl
@[simp] theorem delay_csum (n : Nat) : (delay n s).csum = s.csum := rfl
@[simp] theorem delay_len (n : Nat) : (delay n s).len = s.len := rfl
@[simp] theorem delay_lcsr (n : Nat) : (delay n s).lcsr = s.lcsr := rfl
@[simp] theorem delay_dirr (n : Nat) : (delay n s).dirr = s.dirr := rfl
@[simp] theorem delay_statb (n : Nat) : (delay n s).statb = s.statb := rfl
@[simp] theorem delay_idx (n : Nat) : (delay n s).idx = s.idx := rfl
@[simp] theorem delay_elapsed (n : Nat) : (delay n s).elapsed = s.elapsed := rfl
@[simp] theorem delay_phase (n : Nat) : (delay n s).phase = s.phase := rfl
@[simp] theorem delay_cbuf (n : Nat) : (delay n s).cbuf = s.cbuf := rfl
@[simp] theorem delay_pbuf (n : Nat) : (delay n s).pbuf = s.pbuf := rfl
@[simp] theorem delay_abuf (n : Nat) : (delay n s).abuf = s.abuf := rfl
@[simp] theorem delay_rx (n : Nat) : (delay n s).rx = s.rx := rfl
@[simp] theorem delay_xfers (n : Nat) : (delay n s).xfers = s.xfers := rfl
@[simp] theorem delay_draws (n : Nat) : (delay n s).draws = s.draws := rfl
@[simp] theorem delay_trace (n : Nat) : (delay n s).trace = s.trace ++ [.delay n] := rfl
@[simp] theorem delay_host (n : Nat) : (delay n s).host = s.host := rfl
@[simp] theorem delay_inbox (n : Nat) : (delay n s).inbox = s.inbox := rfl

/-! `readStatus s` -/
@[simp] theorem readStatus_opsel : (readStatus s).opsel = s.opsel := rfl
@[simp] theorem readStatus_timeout : (readStatus s).timeout = s.timeout := rfl
@[simp] theorem readStatus_maxlen : (readStatus s).maxlen = s.maxlen := rfl
@[simp] theorem readStatus_clen : (readStatus s).clen = s.clen := rfl
@[simp] theorem readStatus_busy : (readStatus s).busy = s.busy := rfl
@[simp] theorem readStatus_ok : (readStatus s).ok = s.ok := rfl
@[simp] theorem readStatus_err : (readStatus s).err = s.err := rfl
@[simp] theorem readStatus_plen : (readStatus s).plen = s.plen := rfl
@[simp] theorem readStatus_cs : (readStatus s).cs = s.cs := rfl
@[simp] theorem readStatus_csum : (readStatus s).csum = s.csum := rfl
@[simp] theorem readStatus_len : (readStatus s).len = s.len := rfl
@[simp] theorem readStatus_lcsr : (readStatus s).lcsr = s.lcsr := rfl
@[simp] theorem readStatus_dirr : (readStatus s).dirr = s.dirr := rfl
@[simp] theorem readStatus_statb : (readStatus s).statb = deviceAnswer s := rfl
@[simp] theorem readStatus_idx : (readStatus s).idx = s.idx := rfl
@[simp] theorem readStatus_elapsed : (readStatus s).elapsed = s.elapsed := rfl
@[simp] theorem readStatus_phase : (readStatus s).phase = s.phase := rfl
@[simp] theorem readStatus_cbuf : (readStatus s).cbuf = s.cbuf := rfl
@[simp] theorem readStatus_pbuf : (readStatus s).pbuf = s.pbuf := rfl
@[simp] theorem readStatus_abuf : (readStatus s).abuf = s.abuf := rfl
@[simp] theorem readStatus_rx : (readStatus s).rx = s.rx.tail := rfl
@[simp] theorem readStatus_xfers : (readStatus s).xfers = s.xfers + 1 := rfl
@[simp] theorem readStatus_draws : (readStatus s).draws = s.draws := rfl
@[simp] theorem readStatus_trace : (readStatus s).trace = s.trace ++ [.read (deviceAnswer s)] := rfl
@[simp] theorem readStatus_host : (readStatus s).host = s.host := rfl
@[simp] theorem readStatus_inbox : (readStatus s).inbox = s.inbox := rfl

/-! `succeed s` -/
@[simp] theorem succeed_opsel : (succeed s).opsel = s.opsel := rfl
@[simp] theorem succeed_timeout : (succeed s).timeout = s.timeout := rfl
@[simp] theorem succeed_maxlen : (succeed s).maxlen = s.maxlen := rfl
@[simp] theorem succeed_clen : (succeed s).clen = s.clen := rfl
@[simp] theorem succeed_busy : (succeed s).busy = s.busy := rfl
@[simp] theorem succeed_ok : (succeed s).ok = true := rfl
@[simp] theorem succeed_err : (succeed s).err = .none := rfl
@[simp] theorem succeed_plen : (succeed s).plen = s.plen := rfl
@[simp] theorem succeed_cs : (succeed s).cs = s.cs := rfl
@[simp] theorem succeed_csum : (succeed s).csum = s.csum := rfl
@[simp] theorem succeed_len : (succeed s).len = s.len := rfl
@[simp] theorem succeed_lcsr : (succeed s).lcsr = s.lcsr := rfl
@[simp] theorem succeed_dirr : (succeed s).dirr = s.dirr := rfl
@[simp] theorem succeed_statb : (succeed s).statb = s.statb := rfl
@[simp] theorem succeed_idx : (succeed s).idx = s.idx := rfl
@[simp] theorem succeed_elapsed : (succeed s).elapsed = s.elapsed := rfl
@[simp] theorem succeed_phase : (succeed s).phase = s.phase := rfl
@[simp] theorem succeed_cbuf : (succeed s).cbuf = s.cbuf := rfl
@[simp] theorem succeed_pbuf : (succeed s).pbuf = s.pbuf := rfl
@[simp] theorem succeed_abuf : (succeed s).abuf = s.abuf := rfl
@[simp] theorem succeed_rx : (succeed s).rx = s.rx := rfl
@[simp] theorem succeed_xfers : (succeed s).xfers = s.xfers := rfl
@[simp] theorem succeed_draws : (succeed s).draws = s.draws := rfl
@[simp] theorem succeed_trace : (succeed s).trace = s.trace := rfl
@[simp] theorem succeed_host : (succeed s).host = s.host := rfl
@[simp] theorem succeed_inbox : (succeed s).inbox = s.inbox := rfl

/-! `fail e s` -/
@[simp] theorem fail_opsel (e : ErrKind) : (fail e s).opsel = s.opsel := rfl
@[simp] theorem fail_timeout (e : ErrKind) : (fail e s).timeout = s.timeout := rfl
@[simp] theorem fail_maxlen (e : ErrKind) : (fail e s).maxlen = s.maxlen := rfl
@[simp] theorem fail_clen (e : ErrKind) : (fail e s).clen = s.clen := rfl
@[simp] theorem fail_busy (e : ErrKind) : (fail e s).busy = s.busy := rfl
@[simp] theorem fail_ok (e : ErrKind) : (fail e s).ok = false := rfl
@[simp] theorem fail_err (e : ErrKind) : (fail e s).err = e := rfl
@[simp] theorem fail_plen (e : ErrKind) : (fail e s).plen = s.plen := rfl
@[simp] theorem fail_cs (e : ErrKind) : (fail e s).cs = s.cs := rfl
@[simp] theorem fail_csum (e : ErrKind) : (fail e s).csum = s.csum := rfl
@[simp] theorem fail_len (e : ErrKind) : (fail e s).len = s.len := rfl
@[simp] theorem fail_lcsr (e : ErrKind) : (fail e s).lcsr = s.lcsr := rfl
@[simp] theorem fail_dirr (e : ErrKind) : (fail e s).dirr = s.dirr := rfl
@[simp] theorem fail_statb (e : ErrKind) : (fail e s).statb = s.statb := rfl
@[simp] theorem fail_idx (e : ErrKind) : (fail e s).idx = s.idx := rfl
@[simp] theorem fail_elapsed (e : ErrKind) : (fail e s).elapsed = s.elapsed := rfl
@[simp] theorem fail_phase (e : ErrKind) : (fail e s).phase = s.phase := rfl
@[simp] theorem fail_cbuf (e : ErrKind) : (fail e s).cbuf = s.cbuf := rfl
@[simp] theorem fail_pbuf (e : ErrKind) : (fail e s).pbuf = s.pbuf := rfl
@[simp] theorem fail_abuf (e : ErrKind) : (fail e s).abuf = s.abuf := rfl
@[simp] theorem fail_rx (e : ErrKind) : (fail e s).rx = s.rx := rfl
@[simp] theorem fail_xfers (e : ErrKind) : (fail e s).xfers = s.xfers := rfl
@[simp] theorem fail_draws (e : ErrKind) : (fail e s).draws = s.draws := rfl
@[simp] theorem fail_trace (e : ErrKind) : (fail e s).trace = s.trace := rfl
@[simp] theorem fail_host (e : ErrKind) : (fail e s).host = s.host := rfl
@[simp] theorem fail_inbox (e : ErrKind) : (fail e s).inbox = s.inbox := rfl

/-! `accept op s` -/
@[simp] theorem accept_opsel (op : Operation) : (accept op s).opsel = s.opsel := rfl
@[simp] theorem accept_timeout (op : Operation) : (accept op s).timeout = s.timeout := rfl
@[simp] theorem accept_maxlen (op : Operation) : (accept op s).maxlen = s.maxlen := rfl
@[simp] theorem accept_clen (op : Operation) : (accept op s).clen = s.clen := rfl
@[simp] theorem accept_busy (op : Operation) : (accept op s).busy = true := rfl
@[simp] theorem accept_ok (op : Operation) : (accept op s).ok = s.ok := rfl
@[simp] theorem accept_err (op : Operation) : (accept op s).err = s.err := rfl
@[simp] theorem accept_plen (op : Operation) : (accept op s).plen = s.plen := rfl
@[simp] theorem accept_cs (op : Operation) : (accept op s).cs = s.cs := rfl
@[simp] theorem accept_csum (op : Operation) : (accept op s).csum = s.csum := rfl
@[simp] theorem accept_len (op : Operation) : (accept op s).len = s.len := rfl
@[simp] theorem accept_lcsr (op : Operation) : (accept op s).lcsr = s.lcsr := rfl
@[simp] theorem accept_dirr (op : Operation) : (accept op s).dirr = s.dirr := rfl
@[simp] theorem accept_statb (op : Operation) : (accept op s).statb = s.statb := rfl
@[simp] theorem accept_idx (op : Operation) : (accept op s).idx = s.idx := rfl
@[simp] theorem accept_elapsed (op : Operation) : (accept op s).elapsed = s.elapsed := rfl
@[simp] theorem accept_phase (op : Operation) : (accept op s).phase = op.entry := rfl
@[simp] theorem accept_cbuf (op : Operation) : (accept op s).cbuf = s.cbuf := rfl
@[simp] theorem accept_pbuf (op : Operation) : (accept op s).pbuf = s.pbuf := rfl
@[simp] theorem accept_abuf (op : Operation) : (accept op s).abuf = s.abuf := rfl
@[simp] theorem accept_rx (op : Operation) : (accept op s).rx = s.rx := rfl
@[simp] theorem accept_xfers (op : Operation) : (accept op s).xfers = s.xfers := rfl
@[simp] theorem accept_draws (op : Operation) : (accept op s).draws = s.draws := rfl
@[simp] theorem accept_trace (op : Operation) : (accept op s).trace = s.trace := rfl
@[simp] theorem accept_host (op : Operation) : (accept op s).host = s.host := rfl
@[simp] theorem accept_inbox (op : Operation) : (accept op s).inbox = s.inbox := rfl

/-! `goTo p s` -/
@[simp] theorem goTo_opsel (p : Phase) : (goTo p s).opsel = s.opsel := rfl
@[simp] theorem goTo_timeout (p : Phase) : (goTo p s).timeout = s.timeout := rfl
@[simp] theorem goTo_maxlen (p : Phase) : (goTo p s).maxlen = s.maxlen := rfl
@[simp] theorem goTo_clen (p : Phase) : (goTo p s).clen = s.clen := rfl
@[simp] theorem goTo_busy (p : Phase) : (goTo p s).busy = s.busy := rfl
@[simp] theorem goTo_ok (p : Phase) : (goTo p s).ok = s.ok := rfl
@[simp] theorem goTo_err (p : Phase) : (goTo p s).err = s.err := rfl
@[simp] theorem goTo_plen (p : Phase) : (goTo p s).plen = s.plen := rfl
@[simp] theorem goTo_cs (p : Phase) : (goTo p s).cs = s.cs := rfl
@[simp] theorem goTo_csum (p : Phase) : (goTo p s).csum = s.csum := rfl
@[simp] theorem goTo_len (p : Phase) : (goTo p s).len = s.len := rfl
@[simp] theorem goTo_lcsr (p : Phase) : (goTo p s).lcsr = s.lcsr := rfl
@[simp] theorem goTo_dirr (p : Phase) : (goTo p s).dirr = s.dirr := rfl
@[simp] theorem goTo_statb (p : Phase) : (goTo p s).statb = s.statb := rfl
@[simp] theorem goTo_idx (p : Phase) : (goTo p s).idx = s.idx := rfl
@[simp] theorem goTo_elapsed (p : Phase) : (goTo p s).elapsed = s.elapsed := rfl
@[simp] theorem goTo_phase (p : Phase) : (goTo p s).phase = p := rfl
@[simp] theorem goTo_cbuf (p : Phase) : (goTo p s).cbuf = s.cbuf := rfl
@[simp] theorem goTo_pbuf (p : Phase) : (goTo p s).pbuf = s.pbuf := rfl
@[simp] theorem goTo_abuf (p : Phase) : (goTo p s).abuf = s.abuf := rfl
@[simp] theorem goTo_rx (p : Phase) : (goTo p s).rx = s.rx := rfl
@[simp] theorem goTo_xfers (p : Phase) : (goTo p s).xfers = s.xfers := rfl
@[simp] theorem goTo_draws (p : Phase) : (goTo p s).draws = s.draws := rfl
@[simp] theorem goTo_trace (p : Phase) : (goTo p s).trace = s.trace := rfl
@[simp] theorem goTo_host (p : Phase) : (goTo p s).host = s.host := rfl
@[simp] theorem goTo_inbox (p : Phase) : (goTo p s).inbox = s.inbox := rfl

/-! `clearElapsed s` -/
@[simp] theorem clearElapsed_opsel : (clearElapsed s).opsel = s.opsel := rfl
@[simp] theorem clearElapsed_timeout : (clearElapsed s).timeout = s.timeout := rfl
@[simp] theorem clearElapsed_maxlen : (clearElapsed s).maxlen = s.maxlen := rfl
@[simp] theorem clearElapsed_clen : (clearElapsed s).clen = s.clen := rfl
@[simp] theorem clearElapsed_busy : (clearElapsed s).busy = s.busy := rfl
@[simp] theorem clearElapsed_ok : (clearElapsed s).ok = s.ok := rfl
@[simp] theorem clearElapsed_err : (clearElapsed s).err = s.err := rfl
@[simp] theorem clearElapsed_plen : (clearElapsed s).plen = s.plen := rfl
@[simp] theorem clearElapsed_cs : (clearElapsed s).cs = s.cs := rfl
@[simp] theorem clearElapsed_csum : (clearElapsed s).csum = s.csum := rfl
@[simp] theorem clearElapsed_len : (clearElapsed s).len = s.len := rfl
@[simp] theorem clearElapsed_lcsr : (clearElapsed s).lcsr = s.lcsr := rfl
@[simp] theorem clearElapsed_dirr : (clearElapsed s).dirr = s.dirr := rfl
@[simp] theorem clearElapsed_statb : (clearElapsed s).statb = s.statb := rfl
@[simp] theorem clearElapsed_idx : (clearElapsed s).idx = s.idx := rfl
@[simp] theorem clearElapsed_elapsed : (clearElapsed s).elapsed = 0 := rfl
@[simp] theorem clearElapsed_phase : (clearElapsed s).phase = s.phase := rfl
@[simp] theorem clearElapsed_cbuf : (clearElapsed s).cbuf = s.cbuf := rfl
@[simp] theorem clearElapsed_pbuf : (clearElapsed s).pbuf = s.pbuf := rfl
@[simp] theorem clearElapsed_abuf : (clearElapsed s).abuf = s.abuf := rfl
@[simp] theorem clearElapsed_rx : (clearElapsed s).rx = s.rx := rfl
@[simp] theorem clearElapsed_xfers : (clearElapsed s).xfers = s.xfers := rfl
@[simp] theorem clearElapsed_draws : (clearElapsed s).draws = s.draws := rfl
@[simp] theorem clearElapsed_trace : (clearElapsed s).trace = s.trace := rfl
@[simp] theorem clearElapsed_host : (clearElapsed s).host = s.host := rfl
@[simp] theorem clearElapsed_inbox : (clearElapsed s).inbox = s.inbox := rfl

/-! `addInterval s` -/
@[simp] theorem addInterval_opsel : (addInterval s).opsel = s.opsel := rfl
@[simp] theorem addInterval_timeout : (addInterval s).timeout = s.timeout := rfl
@[simp] theorem addInterval_maxlen : (addInterval s).maxlen = s.maxlen := rfl
@[simp] theorem addInterval_clen : (addInterval s).clen = s.clen := rfl
@[simp] theorem addInterval_busy : (addInterval s).busy = s.busy := rfl
@[simp] theorem addInterval_ok : (addInterval s).ok = s.ok := rfl
@[simp] theorem addInterval_err : (addInterval s).err = s.err := rfl
@[simp] theorem addInterval_plen : (addInterval s).plen = s.plen := rfl
@[simp] theorem addInterval_cs : (addInterval s).cs = s.cs := rfl
@[simp] theorem addInterval_csum : (addInterval s).csum = s.csum := rfl
@[simp] theorem addInterval_len : (addInterval s).len = s.len := rfl
@[simp] theorem addInterval_lcsr : (addInterval s).lcsr = s.lcsr := rfl
@[simp] theorem addInterval_dirr : (addInterval s).dirr = s.dirr := rfl
@[simp] theorem addInterval_statb : (addInterval s).statb = s.statb := rfl
@[simp] theorem addInterval_idx : (addInterval s).idx = s.idx := rfl
@[simp] theorem addInterval_elapsed : (addInterval s).elapsed = s.elapsed + BitVec.ofNat 17 Config.pollInterval := rfl
@[simp] theorem addInterval_phase : (addInterval s).phase = s.phase := rfl
@[simp] theorem addInterval_cbuf : (addInterval s).cbuf = s.cbuf := rfl
@[simp] theorem addInterval_pbuf : (addInterval s).pbuf = s.pbuf := rfl
@[simp] theorem addInterval_abuf : (addInterval s).abuf = s.abuf := rfl
@[simp] theorem addInterval_rx : (addInterval s).rx = s.rx := rfl
@[simp] theorem addInterval_xfers : (addInterval s).xfers = s.xfers := rfl
@[simp] theorem addInterval_draws : (addInterval s).draws = s.draws := rfl
@[simp] theorem addInterval_trace : (addInterval s).trace = s.trace := rfl
@[simp] theorem addInterval_host : (addInterval s).host = s.host := rfl
@[simp] theorem addInterval_inbox : (addInterval s).inbox = s.inbox := rfl

/-! `setLen v s` -/
@[simp] theorem setLen_opsel (v : Byte) : (setLen v s).opsel = s.opsel := rfl
@[simp] theorem setLen_timeout (v : Byte) : (setLen v s).timeout = s.timeout := rfl
@[simp] theorem setLen_maxlen (v : Byte) : (setLen v s).maxlen = s.maxlen := rfl
@[simp] theorem setLen_clen (v : Byte) : (setLen v s).clen = s.clen := rfl
@[simp] theorem setLen_busy (v : Byte) : (setLen v s).busy = s.busy := rfl
@[simp] theorem setLen_ok (v : Byte) : (setLen v s).ok = s.ok := rfl
@[simp] theorem setLen_err (v : Byte) : (setLen v s).err = s.err := rfl
@[simp] theorem setLen_plen (v : Byte) : (setLen v s).plen = s.plen := rfl
@[simp] theorem setLen_cs (v : Byte) : (setLen v s).cs = s.cs := rfl
@[simp] theorem setLen_csum (v : Byte) : (setLen v s).csum = s.csum := rfl
@[simp] theorem setLen_len (v : Byte) : (setLen v s).len = v := rfl
@[simp] theorem setLen_lcsr (v : Byte) : (setLen v s).lcsr = s.lcsr := rfl
@[simp] theorem setLen_dirr (v : Byte) : (setLen v s).dirr = s.dirr := rfl
@[simp] theorem setLen_statb (v : Byte) : (setLen v s).statb = s.statb := rfl
@[simp] theorem setLen_idx (v : Byte) : (setLen v s).idx = s.idx := rfl
@[simp] theorem setLen_elapsed (v : Byte) : (setLen v s).elapsed = s.elapsed := rfl
@[simp] theorem setLen_phase (v : Byte) : (setLen v s).phase = s.phase := rfl
@[simp] theorem setLen_cbuf (v : Byte) : (setLen v s).cbuf = s.cbuf := rfl
@[simp] theorem setLen_pbuf (v : Byte) : (setLen v s).pbuf = s.pbuf := rfl
@[simp] theorem setLen_abuf (v : Byte) : (setLen v s).abuf = s.abuf := rfl
@[simp] theorem setLen_rx (v : Byte) : (setLen v s).rx = s.rx := rfl
@[simp] theorem setLen_xfers (v : Byte) : (setLen v s).xfers = s.xfers := rfl
@[simp] theorem setLen_draws (v : Byte) : (setLen v s).draws = s.draws := rfl
@[simp] theorem setLen_trace (v : Byte) : (setLen v s).trace = s.trace := rfl
@[simp] theorem setLen_host (v : Byte) : (setLen v s).host = s.host := rfl
@[simp] theorem setLen_inbox (v : Byte) : (setLen v s).inbox = s.inbox := rfl

/-! `writeLcs s` -/
@[simp] theorem writeLcs_opsel : (writeLcs s).opsel = s.opsel := rfl
@[simp] theorem writeLcs_timeout : (writeLcs s).timeout = s.timeout := rfl
@[simp] theorem writeLcs_maxlen : (writeLcs s).maxlen = s.maxlen := rfl
@[simp] theorem writeLcs_clen : (writeLcs s).clen = s.clen := rfl
@[simp] theorem writeLcs_busy : (writeLcs s).busy = s.busy := rfl
@[simp] theorem writeLcs_ok : (writeLcs s).ok = s.ok := rfl
@[simp] theorem writeLcs_err : (writeLcs s).err = s.err := rfl
@[simp] theorem writeLcs_plen : (writeLcs s).plen = s.plen := rfl
@[simp] theorem writeLcs_cs : (writeLcs s).cs = s.cs := rfl
@[simp] theorem writeLcs_csum : (writeLcs s).csum = s.csum := rfl
@[simp] theorem writeLcs_len : (writeLcs s).len = s.len := rfl
@[simp] theorem writeLcs_lcsr : (writeLcs s).lcsr = s.lcsr := rfl
@[simp] theorem writeLcs_dirr : (writeLcs s).dirr = s.dirr := rfl
@[simp] theorem writeLcs_statb : (writeLcs s).statb = s.statb := rfl
@[simp] theorem writeLcs_idx : (writeLcs s).idx = s.idx := rfl
@[simp] theorem writeLcs_elapsed : (writeLcs s).elapsed = s.elapsed := rfl
@[simp] theorem writeLcs_phase : (writeLcs s).phase = s.phase := rfl
@[simp] theorem writeLcs_cbuf : (writeLcs s).cbuf = s.cbuf := rfl
@[simp] theorem writeLcs_pbuf : (writeLcs s).pbuf = s.pbuf := rfl
@[simp] theorem writeLcs_abuf : (writeLcs s).abuf = s.abuf := rfl
@[simp] theorem writeLcs_rx : (writeLcs s).rx = s.rx.tail := rfl
@[simp] theorem writeLcs_xfers : (writeLcs s).xfers = s.xfers + 1 := rfl
@[simp] theorem writeLcs_draws : (writeLcs s).draws = s.draws := rfl
@[simp] theorem writeLcs_trace : (writeLcs s).trace = s.trace ++ [.write (lcsOf s.len)] := rfl
@[simp] theorem writeLcs_host : (writeLcs s).host = s.host := rfl
@[simp] theorem writeLcs_inbox : (writeLcs s).inbox = s.inbox := rfl

/-! `writeDir s` -/
@[simp] theorem writeDir_opsel : (writeDir s).opsel = s.opsel := rfl
@[simp] theorem writeDir_timeout : (writeDir s).timeout = s.timeout := rfl
@[simp] theorem writeDir_maxlen : (writeDir s).maxlen = s.maxlen := rfl
@[simp] theorem writeDir_clen : (writeDir s).clen = s.clen := rfl
@[simp] theorem writeDir_busy : (writeDir s).busy = s.busy := rfl
@[simp] theorem writeDir_ok : (writeDir s).ok = s.ok := rfl
@[simp] theorem writeDir_err : (writeDir s).err = s.err := rfl
@[simp] theorem writeDir_plen : (writeDir s).plen = s.plen := rfl
@[simp] theorem writeDir_cs : (writeDir s).cs = s.cs := rfl
@[simp] theorem writeDir_csum : (writeDir s).csum = Config.dirH2d := rfl
@[simp] theorem writeDir_len : (writeDir s).len = s.len := rfl
@[simp] theorem writeDir_lcsr : (writeDir s).lcsr = s.lcsr := rfl
@[simp] theorem writeDir_dirr : (writeDir s).dirr = s.dirr := rfl
@[simp] theorem writeDir_statb : (writeDir s).statb = s.statb := rfl
@[simp] theorem writeDir_idx : (writeDir s).idx = s.idx := rfl
@[simp] theorem writeDir_elapsed : (writeDir s).elapsed = s.elapsed := rfl
@[simp] theorem writeDir_phase : (writeDir s).phase = s.phase := rfl
@[simp] theorem writeDir_cbuf : (writeDir s).cbuf = s.cbuf := rfl
@[simp] theorem writeDir_pbuf : (writeDir s).pbuf = s.pbuf := rfl
@[simp] theorem writeDir_abuf : (writeDir s).abuf = s.abuf := rfl
@[simp] theorem writeDir_rx : (writeDir s).rx = s.rx.tail := rfl
@[simp] theorem writeDir_xfers : (writeDir s).xfers = s.xfers + 1 := rfl
@[simp] theorem writeDir_draws : (writeDir s).draws = s.draws := rfl
@[simp] theorem writeDir_trace : (writeDir s).trace = s.trace ++ [.write Config.dirH2d] := rfl
@[simp] theorem writeDir_host : (writeDir s).host = s.host := rfl
@[simp] theorem writeDir_inbox : (writeDir s).inbox = s.inbox := rfl

/-! `clearIdx s` -/
@[simp] theorem clearIdx_opsel : (clearIdx s).opsel = s.opsel := rfl
@[simp] theorem clearIdx_timeout : (clearIdx s).timeout = s.timeout := rfl
@[simp] theorem clearIdx_maxlen : (clearIdx s).maxlen = s.maxlen := rfl
@[simp] theorem clearIdx_clen : (clearIdx s).clen = s.clen := rfl
@[simp] theorem clearIdx_busy : (clearIdx s).busy = s.busy := rfl
@[simp] theorem clearIdx_ok : (clearIdx s).ok = s.ok := rfl
@[simp] theorem clearIdx_err : (clearIdx s).err = s.err := rfl
@[simp] theorem clearIdx_plen : (clearIdx s).plen = s.plen := rfl
@[simp] theorem clearIdx_cs : (clearIdx s).cs = s.cs := rfl
@[simp] theorem clearIdx_csum : (clearIdx s).csum = s.csum := rfl
@[simp] theorem clearIdx_len : (clearIdx s).len = s.len := rfl
@[simp] theorem clearIdx_lcsr : (clearIdx s).lcsr = s.lcsr := rfl
@[simp] theorem clearIdx_dirr : (clearIdx s).dirr = s.dirr := rfl
@[simp] theorem clearIdx_statb : (clearIdx s).statb = s.statb := rfl
@[simp] theorem clearIdx_idx : (clearIdx s).idx = 0 := rfl
@[simp] theorem clearIdx_elapsed : (clearIdx s).elapsed = s.elapsed := rfl
@[simp] theorem clearIdx_phase : (clearIdx s).phase = s.phase := rfl
@[simp] theorem clearIdx_cbuf : (clearIdx s).cbuf = s.cbuf := rfl
@[simp] theorem clearIdx_pbuf : (clearIdx s).pbuf = s.pbuf := rfl
@[simp] theorem clearIdx_abuf : (clearIdx s).abuf = s.abuf := rfl
@[simp] theorem clearIdx_rx : (clearIdx s).rx = s.rx := rfl
@[simp] theorem clearIdx_xfers : (clearIdx s).xfers = s.xfers := rfl
@[simp] theorem clearIdx_draws : (clearIdx s).draws = s.draws := rfl
@[simp] theorem clearIdx_trace : (clearIdx s).trace = s.trace := rfl
@[simp] theorem clearIdx_host : (clearIdx s).host = s.host := rfl
@[simp] theorem clearIdx_inbox : (clearIdx s).inbox = s.inbox := rfl

/-! `sendByte b s` -/
@[simp] theorem sendByte_opsel (b : Byte) : (sendByte b s).opsel = s.opsel := rfl
@[simp] theorem sendByte_timeout (b : Byte) : (sendByte b s).timeout = s.timeout := rfl
@[simp] theorem sendByte_maxlen (b : Byte) : (sendByte b s).maxlen = s.maxlen := rfl
@[simp] theorem sendByte_clen (b : Byte) : (sendByte b s).clen = s.clen := rfl
@[simp] theorem sendByte_busy (b : Byte) : (sendByte b s).busy = s.busy := rfl
@[simp] theorem sendByte_ok (b : Byte) : (sendByte b s).ok = s.ok := rfl
@[simp] theorem sendByte_err (b : Byte) : (sendByte b s).err = s.err := rfl
@[simp] theorem sendByte_plen (b : Byte) : (sendByte b s).plen = s.plen := rfl
@[simp] theorem sendByte_cs (b : Byte) : (sendByte b s).cs = s.cs := rfl
@[simp] theorem sendByte_csum (b : Byte) : (sendByte b s).csum = s.csum + b := rfl
@[simp] theorem sendByte_len (b : Byte) : (sendByte b s).len = s.len := rfl
@[simp] theorem sendByte_lcsr (b : Byte) : (sendByte b s).lcsr = s.lcsr := rfl
@[simp] theorem sendByte_dirr (b : Byte) : (sendByte b s).dirr = s.dirr := rfl
@[simp] theorem sendByte_statb (b : Byte) : (sendByte b s).statb = s.statb := rfl
@[simp] theorem sendByte_idx (b : Byte) : (sendByte b s).idx = s.idx + 1 := rfl
@[simp] theorem sendByte_elapsed (b : Byte) : (sendByte b s).elapsed = s.elapsed := rfl
@[simp] theorem sendByte_phase (b : Byte) : (sendByte b s).phase = s.phase := rfl
@[simp] theorem sendByte_cbuf (b : Byte) : (sendByte b s).cbuf = s.cbuf := rfl
@[simp] theorem sendByte_pbuf (b : Byte) : (sendByte b s).pbuf = s.pbuf := rfl
@[simp] theorem sendByte_abuf (b : Byte) : (sendByte b s).abuf = s.abuf := rfl
@[simp] theorem sendByte_rx (b : Byte) : (sendByte b s).rx = s.rx.tail := rfl
@[simp] theorem sendByte_xfers (b : Byte) : (sendByte b s).xfers = s.xfers + 1 := rfl
@[simp] theorem sendByte_draws (b : Byte) : (sendByte b s).draws = s.draws := rfl
@[simp] theorem sendByte_trace (b : Byte) : (sendByte b s).trace = s.trace ++ [.write b] := rfl
@[simp] theorem sendByte_host (b : Byte) : (sendByte b s).host = s.host := rfl
@[simp] theorem sendByte_inbox (b : Byte) : (sendByte b s).inbox = s.inbox := rfl

/-! `writeDcs s` -/
@[simp] theorem writeDcs_opsel : (writeDcs s).opsel = s.opsel := rfl
@[simp] theorem writeDcs_timeout : (writeDcs s).timeout = s.timeout := rfl
@[simp] theorem writeDcs_maxlen : (writeDcs s).maxlen = s.maxlen := rfl
@[simp] theorem writeDcs_clen : (writeDcs s).clen = s.clen := rfl
@[simp] theorem writeDcs_busy : (writeDcs s).busy = s.busy := rfl
@[simp] theorem writeDcs_ok : (writeDcs s).ok = s.ok := rfl
@[simp] theorem writeDcs_err : (writeDcs s).err = s.err := rfl
@[simp] theorem writeDcs_plen : (writeDcs s).plen = s.plen := rfl
@[simp] theorem writeDcs_cs : (writeDcs s).cs = s.cs := rfl
@[simp] theorem writeDcs_csum : (writeDcs s).csum = s.csum := rfl
@[simp] theorem writeDcs_len : (writeDcs s).len = s.len := rfl
@[simp] theorem writeDcs_lcsr : (writeDcs s).lcsr = s.lcsr := rfl
@[simp] theorem writeDcs_dirr : (writeDcs s).dirr = s.dirr := rfl
@[simp] theorem writeDcs_statb : (writeDcs s).statb = s.statb := rfl
@[simp] theorem writeDcs_idx : (writeDcs s).idx = s.idx := rfl
@[simp] theorem writeDcs_elapsed : (writeDcs s).elapsed = s.elapsed := rfl
@[simp] theorem writeDcs_phase : (writeDcs s).phase = s.phase := rfl
@[simp] theorem writeDcs_cbuf : (writeDcs s).cbuf = s.cbuf := rfl
@[simp] theorem writeDcs_pbuf : (writeDcs s).pbuf = s.pbuf := rfl
@[simp] theorem writeDcs_abuf : (writeDcs s).abuf = s.abuf := rfl
@[simp] theorem writeDcs_rx : (writeDcs s).rx = s.rx.tail := rfl
@[simp] theorem writeDcs_xfers : (writeDcs s).xfers = s.xfers + 1 := rfl
@[simp] theorem writeDcs_draws : (writeDcs s).draws = s.draws := rfl
@[simp] theorem writeDcs_trace : (writeDcs s).trace = s.trace ++ [.write (neg8 s.csum)] := rfl
@[simp] theorem writeDcs_host : (writeDcs s).host = s.host := rfl
@[simp] theorem writeDcs_inbox : (writeDcs s).inbox = s.inbox := rfl

/-! `skipByte s` -/
@[simp] theorem skipByte_opsel : (skipByte s).opsel = s.opsel := rfl
@[simp] theorem skipByte_timeout : (skipByte s).timeout = s.timeout := rfl
@[simp] theorem skipByte_maxlen : (skipByte s).maxlen = s.maxlen := rfl
@[simp] theorem skipByte_clen : (skipByte s).clen = s.clen := rfl
@[simp] theorem skipByte_busy : (skipByte s).busy = s.busy := rfl
@[simp] theorem skipByte_ok : (skipByte s).ok = s.ok := rfl
@[simp] theorem skipByte_err : (skipByte s).err = s.err := rfl
@[simp] theorem skipByte_plen : (skipByte s).plen = s.plen := rfl
@[simp] theorem skipByte_cs : (skipByte s).cs = s.cs := rfl
@[simp] theorem skipByte_csum : (skipByte s).csum = s.csum := rfl
@[simp] theorem skipByte_len : (skipByte s).len = s.len := rfl
@[simp] theorem skipByte_lcsr : (skipByte s).lcsr = s.lcsr := rfl
@[simp] theorem skipByte_dirr : (skipByte s).dirr = s.dirr := rfl
@[simp] theorem skipByte_statb : (skipByte s).statb = s.statb := rfl
@[simp] theorem skipByte_idx : (skipByte s).idx = s.idx := rfl
@[simp] theorem skipByte_elapsed : (skipByte s).elapsed = s.elapsed := rfl
@[simp] theorem skipByte_phase : (skipByte s).phase = s.phase := rfl
@[simp] theorem skipByte_cbuf : (skipByte s).cbuf = s.cbuf := rfl
@[simp] theorem skipByte_pbuf : (skipByte s).pbuf = s.pbuf := rfl
@[simp] theorem skipByte_abuf : (skipByte s).abuf = s.abuf := rfl
@[simp] theorem skipByte_rx : (skipByte s).rx = s.rx.tail := rfl
@[simp] theorem skipByte_xfers : (skipByte s).xfers = s.xfers + 1 := rfl
@[simp] theorem skipByte_draws : (skipByte s).draws = s.draws := rfl
@[simp] theorem skipByte_trace : (skipByte s).trace = s.trace ++ [.read (deviceAnswer s)] := rfl
@[simp] theorem skipByte_host : (skipByte s).host = s.host := rfl
@[simp] theorem skipByte_inbox : (skipByte s).inbox = s.inbox := rfl

/-! `readLen s` -/
@[simp] theorem readLen_opsel : (readLen s).opsel = s.opsel := rfl
@[simp] theorem readLen_timeout : (readLen s).timeout = s.timeout := rfl
@[simp] theorem readLen_maxlen : (readLen s).maxlen = s.maxlen := rfl
@[simp] theorem readLen_clen : (readLen s).clen = s.clen := rfl
@[simp] theorem readLen_busy : (readLen s).busy = s.busy := rfl
@[simp] theorem readLen_ok : (readLen s).ok = s.ok := rfl
@[simp] theorem readLen_err : (readLen s).err = s.err := rfl
@[simp] theorem readLen_plen : (readLen s).plen = s.plen := rfl
@[simp] theorem readLen_cs : (readLen s).cs = s.cs := rfl
@[simp] theorem readLen_csum : (readLen s).csum = s.csum := rfl
@[simp] theorem readLen_len : (readLen s).len = deviceAnswer s := rfl
@[simp] theorem readLen_lcsr : (readLen s).lcsr = s.lcsr := rfl
@[simp] theorem readLen_dirr : (readLen s).dirr = s.dirr := rfl
@[simp] theorem readLen_statb : (readLen s).statb = s.statb := rfl
@[simp] theorem readLen_idx : (readLen s).idx = s.idx := rfl
@[simp] theorem readLen_elapsed : (readLen s).elapsed = s.elapsed := rfl
@[simp] theorem readLen_phase : (readLen s).phase = s.phase := rfl
@[simp] theorem readLen_cbuf : (readLen s).cbuf = s.cbuf := rfl
@[simp] theorem readLen_pbuf : (readLen s).pbuf = s.pbuf := rfl
@[simp] theorem readLen_abuf : (readLen s).abuf = s.abuf := rfl
@[simp] theorem readLen_rx : (readLen s).rx = s.rx.tail := rfl
@[simp] theorem readLen_xfers : (readLen s).xfers = s.xfers + 1 := rfl
@[simp] theorem readLen_draws : (readLen s).draws = s.draws := rfl
@[simp] theorem readLen_trace : (readLen s).trace = s.trace ++ [.read (deviceAnswer s)] := rfl
@[simp] theorem readLen_host : (readLen s).host = s.host := rfl
@[simp] theorem readLen_inbox : (readLen s).inbox = s.inbox := rfl

/-! `readLcs s` -/
@[simp] theorem readLcs_opsel : (readLcs s).opsel = s.opsel := rfl
@[simp] theorem readLcs_timeout : (readLcs s).timeout = s.timeout := rfl
@[simp] theorem readLcs_maxlen : (readLcs s).maxlen = s.maxlen := rfl
@[simp] theorem readLcs_clen : (readLcs s).clen = s.clen := rfl
@[simp] theorem readLcs_busy : (readLcs s).busy = s.busy := rfl
@[simp] theorem readLcs_ok : (readLcs s).ok = s.ok := rfl
@[simp] theorem readLcs_err : (readLcs s).err = s.err := rfl
@[simp] theorem readLcs_plen : (readLcs s).plen = s.plen := rfl
@[simp] theorem readLcs_cs : (readLcs s).cs = s.cs := rfl
@[simp] theorem readLcs_csum : (readLcs s).csum = s.csum := rfl
@[simp] theorem readLcs_len : (readLcs s).len = s.len := rfl
@[simp] theorem readLcs_lcsr : (readLcs s).lcsr = deviceAnswer s := rfl
@[simp] theorem readLcs_dirr : (readLcs s).dirr = s.dirr := rfl
@[simp] theorem readLcs_statb : (readLcs s).statb = s.statb := rfl
@[simp] theorem readLcs_idx : (readLcs s).idx = s.idx := rfl
@[simp] theorem readLcs_elapsed : (readLcs s).elapsed = s.elapsed := rfl
@[simp] theorem readLcs_phase : (readLcs s).phase = s.phase := rfl
@[simp] theorem readLcs_cbuf : (readLcs s).cbuf = s.cbuf := rfl
@[simp] theorem readLcs_pbuf : (readLcs s).pbuf = s.pbuf := rfl
@[simp] theorem readLcs_abuf : (readLcs s).abuf = s.abuf := rfl
@[simp] theorem readLcs_rx : (readLcs s).rx = s.rx.tail := rfl
@[simp] theorem readLcs_xfers : (readLcs s).xfers = s.xfers + 1 := rfl
@[simp] theorem readLcs_draws : (readLcs s).draws = s.draws := rfl
@[simp] theorem readLcs_trace : (readLcs s).trace = s.trace ++ [.read (deviceAnswer s)] := rfl
@[simp] theorem readLcs_host : (readLcs s).host = s.host := rfl
@[simp] theorem readLcs_inbox : (readLcs s).inbox = s.inbox := rfl

/-! `readDir s` -/
@[simp] theorem readDir_opsel : (readDir s).opsel = s.opsel := rfl
@[simp] theorem readDir_timeout : (readDir s).timeout = s.timeout := rfl
@[simp] theorem readDir_maxlen : (readDir s).maxlen = s.maxlen := rfl
@[simp] theorem readDir_clen : (readDir s).clen = s.clen := rfl
@[simp] theorem readDir_busy : (readDir s).busy = s.busy := rfl
@[simp] theorem readDir_ok : (readDir s).ok = s.ok := rfl
@[simp] theorem readDir_err : (readDir s).err = s.err := rfl
@[simp] theorem readDir_plen : (readDir s).plen = s.plen := rfl
@[simp] theorem readDir_cs : (readDir s).cs = s.cs := rfl
@[simp] theorem readDir_csum : (readDir s).csum = s.csum := rfl
@[simp] theorem readDir_len : (readDir s).len = s.len := rfl
@[simp] theorem readDir_lcsr : (readDir s).lcsr = s.lcsr := rfl
@[simp] theorem readDir_dirr : (readDir s).dirr = deviceAnswer s := rfl
@[simp] theorem readDir_statb : (readDir s).statb = s.statb := rfl
@[simp] theorem readDir_idx : (readDir s).idx = s.idx := rfl
@[simp] theorem readDir_elapsed : (readDir s).elapsed = s.elapsed := rfl
@[simp] theorem readDir_phase : (readDir s).phase = s.phase := rfl
@[simp] theorem readDir_cbuf : (readDir s).cbuf = s.cbuf := rfl
@[simp] theorem readDir_pbuf : (readDir s).pbuf = s.pbuf := rfl
@[simp] theorem readDir_abuf : (readDir s).abuf = s.abuf := rfl
@[simp] theorem readDir_rx : (readDir s).rx = s.rx.tail := rfl
@[simp] theorem readDir_xfers : (readDir s).xfers = s.xfers + 1 := rfl
@[simp] theorem readDir_draws : (readDir s).draws = s.draws := rfl
@[simp] theorem readDir_trace : (readDir s).trace = s.trace ++ [.read (deviceAnswer s)] := rfl
@[simp] theorem readDir_host : (readDir s).host = s.host := rfl
@[simp] theorem readDir_inbox : (readDir s).inbox = s.inbox := rfl

/-! `dropDir s` -/
@[simp] theorem dropDir_opsel : (dropDir s).opsel = s.opsel := rfl
@[simp] theorem dropDir_timeout : (dropDir s).timeout = s.timeout := rfl
@[simp] theorem dropDir_maxlen : (dropDir s).maxlen = s.maxlen := rfl
@[simp] theorem dropDir_clen : (dropDir s).clen = s.clen := rfl
@[simp] theorem dropDir_busy : (dropDir s).busy = s.busy := rfl
@[simp] theorem dropDir_ok : (dropDir s).ok = s.ok := rfl
@[simp] theorem dropDir_err : (dropDir s).err = s.err := rfl
@[simp] theorem dropDir_plen : (dropDir s).plen = s.plen := rfl
@[simp] theorem dropDir_cs : (dropDir s).cs = s.cs := rfl
@[simp] theorem dropDir_csum : (dropDir s).csum = s.csum := rfl
@[simp] theorem dropDir_len : (dropDir s).len = s.len - 1 := rfl
@[simp] theorem dropDir_lcsr : (dropDir s).lcsr = s.lcsr := rfl
@[simp] theorem dropDir_dirr : (dropDir s).dirr = s.dirr := rfl
@[simp] theorem dropDir_statb : (dropDir s).statb = s.statb := rfl
@[simp] theorem dropDir_idx : (dropDir s).idx = s.idx := rfl
@[simp] theorem dropDir_elapsed : (dropDir s).elapsed = s.elapsed := rfl
@[simp] theorem dropDir_phase : (dropDir s).phase = s.phase := rfl
@[simp] theorem dropDir_cbuf : (dropDir s).cbuf = s.cbuf := rfl
@[simp] theorem dropDir_pbuf : (dropDir s).pbuf = s.pbuf := rfl
@[simp] theorem dropDir_abuf : (dropDir s).abuf = s.abuf := rfl
@[simp] theorem dropDir_rx : (dropDir s).rx = s.rx := rfl
@[simp] theorem dropDir_xfers : (dropDir s).xfers = s.xfers := rfl
@[simp] theorem dropDir_draws : (dropDir s).draws = s.draws := rfl
@[simp] theorem dropDir_trace : (dropDir s).trace = s.trace := rfl
@[simp] theorem dropDir_host : (dropDir s).host = s.host := rfl
@[simp] theorem dropDir_inbox : (dropDir s).inbox = s.inbox := rfl

/-! `seedPayload s` -/
@[simp] theorem seedPayload_opsel : (seedPayload s).opsel = s.opsel := rfl
@[simp] theorem seedPayload_timeout : (seedPayload s).timeout = s.timeout := rfl
@[simp] theorem seedPayload_maxlen : (seedPayload s).maxlen = s.maxlen := rfl
@[simp] theorem seedPayload_clen : (seedPayload s).clen = s.clen := rfl
@[simp] theorem seedPayload_busy : (seedPayload s).busy = s.busy := rfl
@[simp] theorem seedPayload_ok : (seedPayload s).ok = s.ok := rfl
@[simp] theorem seedPayload_err : (seedPayload s).err = s.err := rfl
@[simp] theorem seedPayload_plen : (seedPayload s).plen = s.plen := rfl
@[simp] theorem seedPayload_cs : (seedPayload s).cs = s.cs := rfl
@[simp] theorem seedPayload_csum : (seedPayload s).csum = Config.dirD2h := rfl
@[simp] theorem seedPayload_len : (seedPayload s).len = s.len := rfl
@[simp] theorem seedPayload_lcsr : (seedPayload s).lcsr = s.lcsr := rfl
@[simp] theorem seedPayload_dirr : (seedPayload s).dirr = s.dirr := rfl
@[simp] theorem seedPayload_statb : (seedPayload s).statb = s.statb := rfl
@[simp] theorem seedPayload_idx : (seedPayload s).idx = 0 := rfl
@[simp] theorem seedPayload_elapsed : (seedPayload s).elapsed = s.elapsed := rfl
@[simp] theorem seedPayload_phase : (seedPayload s).phase = s.phase := rfl
@[simp] theorem seedPayload_cbuf : (seedPayload s).cbuf = s.cbuf := rfl
@[simp] theorem seedPayload_pbuf : (seedPayload s).pbuf = s.pbuf := rfl
@[simp] theorem seedPayload_abuf : (seedPayload s).abuf = s.abuf := rfl
@[simp] theorem seedPayload_rx : (seedPayload s).rx = s.rx := rfl
@[simp] theorem seedPayload_xfers : (seedPayload s).xfers = s.xfers := rfl
@[simp] theorem seedPayload_draws : (seedPayload s).draws = s.draws := rfl
@[simp] theorem seedPayload_trace : (seedPayload s).trace = s.trace := rfl
@[simp] theorem seedPayload_host : (seedPayload s).host = s.host := rfl
@[simp] theorem seedPayload_inbox : (seedPayload s).inbox = s.inbox := rfl

/-! `readAckByte s` -/
@[simp] theorem readAckByte_opsel : (readAckByte s).opsel = s.opsel := rfl
@[simp] theorem readAckByte_timeout : (readAckByte s).timeout = s.timeout := rfl
@[simp] theorem readAckByte_maxlen : (readAckByte s).maxlen = s.maxlen := rfl
@[simp] theorem readAckByte_clen : (readAckByte s).clen = s.clen := rfl
@[simp] theorem readAckByte_busy : (readAckByte s).busy = s.busy := rfl
@[simp] theorem readAckByte_ok : (readAckByte s).ok = s.ok := rfl
@[simp] theorem readAckByte_err : (readAckByte s).err = s.err := rfl
@[simp] theorem readAckByte_plen : (readAckByte s).plen = s.plen := rfl
@[simp] theorem readAckByte_cs : (readAckByte s).cs = s.cs := rfl
@[simp] theorem readAckByte_csum : (readAckByte s).csum = s.csum := rfl
@[simp] theorem readAckByte_len : (readAckByte s).len = s.len := rfl
@[simp] theorem readAckByte_lcsr : (readAckByte s).lcsr = s.lcsr := rfl
@[simp] theorem readAckByte_dirr : (readAckByte s).dirr = s.dirr := rfl
@[simp] theorem readAckByte_statb : (readAckByte s).statb = s.statb := rfl
@[simp] theorem readAckByte_idx : (readAckByte s).idx = s.idx + 1 := rfl
@[simp] theorem readAckByte_elapsed : (readAckByte s).elapsed = s.elapsed := rfl
@[simp] theorem readAckByte_phase : (readAckByte s).phase = s.phase := rfl
@[simp] theorem readAckByte_cbuf : (readAckByte s).cbuf = s.cbuf := rfl
@[simp] theorem readAckByte_pbuf : (readAckByte s).pbuf = s.pbuf := rfl
@[simp] theorem readAckByte_abuf : (readAckByte s).abuf = Memory.write s.abuf s.idx.toNat (deviceAnswer s) := rfl
@[simp] theorem readAckByte_rx : (readAckByte s).rx = s.rx.tail := rfl
@[simp] theorem readAckByte_xfers : (readAckByte s).xfers = s.xfers + 1 := rfl
@[simp] theorem readAckByte_draws : (readAckByte s).draws = s.draws := rfl
@[simp] theorem readAckByte_trace : (readAckByte s).trace = s.trace ++ [.read (deviceAnswer s)] := rfl
@[simp] theorem readAckByte_host : (readAckByte s).host = s.host := rfl
@[simp] theorem readAckByte_inbox : (readAckByte s).inbox = s.inbox := rfl

/-! `readPayloadByte s` -/
@[simp] theorem readPayloadByte_opsel : (readPayloadByte s).opsel = s.opsel := rfl
@[simp] theorem readPayloadByte_timeout : (readPayloadByte s).timeout = s.timeout := rfl
@[simp] theorem readPayloadByte_maxlen : (readPayloadByte s).maxlen = s.maxlen := rfl
@[simp] theorem readPayloadByte_clen : (readPayloadByte s).clen = s.clen := rfl
@[simp] theorem readPayloadByte_busy : (readPayloadByte s).busy = s.busy := rfl
@[simp] theorem readPayloadByte_ok : (readPayloadByte s).ok = s.ok := rfl
@[simp] theorem readPayloadByte_err : (readPayloadByte s).err = s.err := rfl
@[simp] theorem readPayloadByte_plen : (readPayloadByte s).plen = s.plen := rfl
@[simp] theorem readPayloadByte_cs : (readPayloadByte s).cs = s.cs := rfl
@[simp] theorem readPayloadByte_csum : (readPayloadByte s).csum = s.csum + deviceAnswer s := rfl
@[simp] theorem readPayloadByte_len : (readPayloadByte s).len = s.len := rfl
@[simp] theorem readPayloadByte_lcsr : (readPayloadByte s).lcsr = s.lcsr := rfl
@[simp] theorem readPayloadByte_dirr : (readPayloadByte s).dirr = s.dirr := rfl
@[simp] theorem readPayloadByte_statb : (readPayloadByte s).statb = s.statb := rfl
@[simp] theorem readPayloadByte_idx : (readPayloadByte s).idx = s.idx + 1 := rfl
@[simp] theorem readPayloadByte_elapsed : (readPayloadByte s).elapsed = s.elapsed := rfl
@[simp] theorem readPayloadByte_phase : (readPayloadByte s).phase = s.phase := rfl
@[simp] theorem readPayloadByte_cbuf : (readPayloadByte s).cbuf = s.cbuf := rfl
@[simp] theorem readPayloadByte_pbuf : (readPayloadByte s).pbuf = Memory.write s.pbuf s.idx.toNat (deviceAnswer s) := rfl
@[simp] theorem readPayloadByte_abuf : (readPayloadByte s).abuf = s.abuf := rfl
@[simp] theorem readPayloadByte_rx : (readPayloadByte s).rx = s.rx.tail := rfl
@[simp] theorem readPayloadByte_xfers : (readPayloadByte s).xfers = s.xfers + 1 := rfl
@[simp] theorem readPayloadByte_draws : (readPayloadByte s).draws = s.draws := rfl
@[simp] theorem readPayloadByte_trace : (readPayloadByte s).trace = s.trace ++ [.read (deviceAnswer s)] := rfl
@[simp] theorem readPayloadByte_host : (readPayloadByte s).host = s.host := rfl
@[simp] theorem readPayloadByte_inbox : (readPayloadByte s).inbox = s.inbox := rfl

end Sys2Proof.Machine
end

