-- ==== Sys2Proof/Laws/Checksum.lean ====
section
/-! SUPPORT. Laws/Checksum.lean: the two checksum laws have exactly one solution each (00_scope.md R11). -/

namespace Sys2Proof

theorem neg8_eq_neg (a : Byte) : neg8 a = -a := by
  simp only [neg8, BitVec.neg_eq_not_add]; rfl

@[simp] theorem add_neg8 (a : Byte) : a + neg8 a = 0 := by rw [neg8_eq_neg]; exact BitVec.add_right_neg a

theorem add_eq_zero_iff_eq_neg8 (a b : Byte) : a + b = 0 ↔ b = neg8 a := by
  rw [neg8_eq_neg]
  constructor
  · intro h
    have : -a + (a + b) = -a + 0 := by rw [h]
    simpa [← BitVec.add_assoc, BitVec.add_left_neg] using this
  · rintro rfl; exact BitVec.add_right_neg a

/-- The length checksum is the one solution of its law. -/
theorem lengthLaw_iff (len lcs : Byte) : lengthLaw len lcs = true ↔ lcs = lcsOf len := by
  simp only [lengthLaw, decide_eq_true_eq, lcsOf, add_eq_zero_iff_eq_neg8]

/-- The data checksum is the one solution of its law. -/
theorem dataLaw_iff (dir : Byte) (payload : List Byte) (dcs : Byte) :
    dataLaw (dir + sum8 payload) dcs = true ↔ dcs = dcsOf dir payload := by
  simp only [dataLaw, decide_eq_true_eq, dcsOf, add_eq_zero_iff_eq_neg8]

@[simp] theorem lengthLaw_lcsOf (len : Byte) : lengthLaw len (lcsOf len) = true := (lengthLaw_iff _ _).2 rfl

@[simp] theorem dataLaw_dcsOf (dir : Byte) (payload : List Byte) :
    dataLaw (dir + sum8 payload) (dcsOf dir payload) = true := (dataLaw_iff _ _ _).2 rfl

theorem sum8_append (xs ys : List Byte) : sum8 (xs ++ ys) = sum8 xs + sum8 ys := by
  induction xs with
  | nil => simp [sum8]
  | cons x xs ih => simp [sum8, ih, BitVec.add_assoc]

theorem lenOf_toNat {payload : List Byte} (h : payload.length ≤ Config.cmdMax) :
    (lenOf payload).toNat = payload.length + 1 := by
  simp only [Config.cmdMax] at h
  simp only [lenOf, BitVec.toNat_ofNat]
  omega

theorem lenOf_ne_zero {payload : List Byte} (h : payload.length ≤ Config.cmdMax) : lenOf payload ≠ 0 := by
  intro h0
  have := lenOf_toNat h
  rw [h0] at this
  simp at this

theorem bodyLength_lenOf {payload : List Byte} (h : payload.length ≤ Config.cmdMax) :
    bodyLength (lenOf payload) = payload.length + 2 := by
  rw [bodyLength, if_neg (lenOf_ne_zero h), lenOf_toNat h]

/-- The frame the encoder builds is the one frame of its payload (30_encoding.md R91). -/
theorem hostPayload_frame {payload : List Byte} (h : payload.length ≤ Config.cmdMax) :
    hostPayload (lenOf payload) (lcsOf (lenOf payload))
      (payload ++ [dcsOf Config.dirH2d payload, Config.postamble]) = some payload := by
  simp [hostPayload, lenOf_toNat h, frameBytes]

/-- What conforms is what the encoder builds. -/
theorem hostPayload_eq_some {len lcs : Byte} {body payload : List Byte} (h : hostPayload len lcs body = some payload) :
    encode (.frameH2d len lcs body) = frameBytes Config.dirH2d payload ∧ payload.length ≤ Config.cmdMax := by
  simp only [hostPayload] at h
  split at h
  · next hf =>
    cases h
    refine ⟨hf, ?_⟩
    have := len.isLt
    simp only [List.length_take, Config.cmdMax]
    omega
  · cases h

end Sys2Proof
end

