-- ==== Sys2Proof/Laws/Memory.lean ====
section
/-! SUPPORT. Laws/Memory.lean: reads after writes, and that every buffer operation keeps the canonical form. -/

namespace Sys2Proof.Machine.Memory

theorem read_write_same (m : Memory) (i : Nat) (v : Byte) : read (write m i v) i = some v := by
  induction m with
  | nil => simp [write, read]
  | cons c m ih =>
    obtain ⟨k, b⟩ := c
    simp only [write]
    split
    · simp [read]
    · split
      · next h => simp [read, h]
      · next h => simp [read, h, ih]

theorem read_write_other (m : Memory) {i j : Nat} (v : Byte) (h : j ≠ i) : read (write m i v) j = read m j := by
  induction m with
  | nil => simp [write, read, h]
  | cons c m ih =>
    obtain ⟨k, b⟩ := c
    simp only [write]
    split
    · simp [read, h]
    · split
      · next hk => subst hk; simp [read, h]
      · simp [read, ih]

theorem rising_write {lo : Nat} {m : Memory} {i : Nat} (v : Byte) (h : rising lo m = true) (hi : lo ≤ i) :
    rising lo (write m i v) = true := by
  induction m generalizing lo with
  | nil => simp [write, rising, hi]
  | cons c m ih =>
    obtain ⟨k, b⟩ := c
    simp only [rising, Bool.and_eq_true, decide_eq_true_eq] at h
    simp only [write]
    split
    · next hk => simp [rising, hi, h.2]; omega
    · split
      · simp [rising, h.1, h.2]
      · next h1 h2 => simp [rising, h.1, ih h.2 (by omega)]

theorem within_write {cap : Nat} {m : Memory} {i : Nat} (v : Byte) (h : within cap m = true) (hi : i < cap) :
    within cap (write m i v) = true := by
  induction m with
  | nil => simp [write, within, hi]
  | cons c m ih =>
    obtain ⟨k, b⟩ := c
    simp only [within, List.all_cons, Bool.and_eq_true, decide_eq_true_eq] at h ih ⊢
    simp only [write]
    split
    · simp only [List.all_cons, Bool.and_eq_true, decide_eq_true_eq]; exact ⟨hi, h.1, h.2⟩
    · split
      · simp only [List.all_cons, Bool.and_eq_true, decide_eq_true_eq]; exact ⟨h.1, h.2⟩
      · simp only [List.all_cons, Bool.and_eq_true, decide_eq_true_eq]; exact ⟨h.1, ih h.2⟩

/-- A write inside the buffer keeps its canonical form. -/
theorem wf_write {cap : Nat} {m : Memory} {i : Nat} (v : Byte) (h : wf cap m = true) (hi : i < cap) :
    wf cap (write m i v) = true := by
  simp only [wf, Bool.and_eq_true] at h ⊢
  exact ⟨rising_write v h.1 (Nat.zero_le _), within_write v h.2 hi⟩

theorem wf_writeAll {cap : Nat} (bytes : List Byte) {m : Memory} {i : Nat} (h : wf cap m = true)
    (hi : i + bytes.length ≤ cap) : wf cap (writeAll m i bytes) = true := by
  induction bytes generalizing m i with
  | nil => exact h
  | cons b bs ih =>
    simp only [List.length_cons] at hi
    exact ih (wf_write b h (by omega)) (by omega)

/-- The empty buffer is in canonical form. -/
theorem wf_nil (cap : Nat) : wf cap [] = true := rfl

/-- Nothing below `lo` is listed in a memory that rises from `lo`. -/
theorem read_below {lo : Nat} {m : Memory} {i : Nat} (h : rising lo m = true) (hi : i < lo) : read m i = none := by
  induction m generalizing lo with
  | nil => rfl
  | cons c m ih =>
    obtain ⟨k, b⟩ := c
    simp only [rising, Bool.and_eq_true, decide_eq_true_eq] at h
    simp only [read]
    rw [if_neg (by omega)]
    exact ih h.2 (by omega)

/-- Canonical memories that read alike are the same list. -/
theorem ext_of_rising {lo : Nat} {m m' : Memory} (h : rising lo m = true) (h' : rising lo m' = true)
    (e : ∀ i, read m i = read m' i) : m = m' := by
  induction m generalizing lo m' with
  | nil =>
    cases m' with
    | nil => rfl
    | cons c m' => obtain ⟨k, b⟩ := c; have := e k; simp [read] at this
  | cons c m ih =>
    obtain ⟨k, b⟩ := c
    cases m' with
    | nil => have := e k; simp [read] at this
    | cons c' m' =>
      obtain ⟨k', b'⟩ := c'
      simp only [rising, Bool.and_eq_true, decide_eq_true_eq] at h h'
      have hk : k = k' := by
        rcases Nat.lt_trichotomy k k' with hlt | heq | hgt
        · have := e k
          simp [read, show k ≠ k' by omega, read_below h'.2 (show k < k' + 1 by omega)] at this
        · exact heq
        · have := e k'
          simp [read, show k' ≠ k by omega, read_below h.2 (show k' < k + 1 by omega)] at this
      subst hk
      have hb : b = b' := by have := e k; simpa [read] using this
      subst hb
      congr 1
      refine ih h.2 h'.2 fun i => ?_
      have := e i
      simp only [read] at this
      by_cases hik : i = k
      · subst hik; rw [read_below h.2 (by omega), read_below h'.2 (by omega)]
      · simpa [hik] using this

theorem read_writeAll_below (bytes : List Byte) (m : Memory) {i j : Nat} (h : j < i) :
    read (writeAll m i bytes) j = read m j := by
  induction bytes generalizing m i with
  | nil => rfl
  | cons b bs ih => rw [writeAll, ih _ (by omega), read_write_other _ _ (by omega)]

theorem read_writeAll (bytes : List Byte) (m : Memory) (i : Nat) {j : Nat} (h : j < bytes.length) :
    read (writeAll m i bytes) (i + j) = some bytes[j] := by
  induction bytes generalizing m i j with
  | nil => simp at h
  | cons b bs ih =>
    cases j with
    | zero => rw [writeAll, read_writeAll_below _ _ (by omega)]; exact read_write_same _ _ _
    | succ j =>
      have := ih (write m i b) (i + 1) (j := j) (by simpa using h)
      rw [writeAll]
      simpa [Nat.add_assoc, Nat.add_comm 1 j] using this

theorem read_writeAll_above (bytes : List Byte) (m : Memory) {i j : Nat} (h : i + bytes.length ≤ j) :
    read (writeAll m i bytes) j = read m j := by
  induction bytes generalizing m i with
  | nil => rfl
  | cons b bs ih =>
    simp only [List.length_cons] at h
    rw [writeAll, ih _ (by omega), read_write_other _ _ (by omega)]

end Sys2Proof.Machine.Memory

namespace Sys2Proof.Machine

theorem specified_zero (m : Memory) : specified m 0 := fun i h => absurd h (Nat.not_lt_zero i)

theorem specified_write {m : Memory} {n : Nat} (i : Nat) (v : Byte) (h : specified m n) :
    specified (Memory.write m i v) n := by
  intro j hj
  by_cases hji : j = i
  · subst hji; rw [Memory.read_write_same]; rfl
  · rw [Memory.read_write_other _ _ hji]; exact h j hj

theorem specified_write_succ {m : Memory} {n : Nat} (v : Byte) (h : specified m n) :
    specified (Memory.write m n v) (n + 1) := by
  intro j hj
  by_cases hjn : j = n
  · subst hjn; rw [Memory.read_write_same]; rfl
  · rw [Memory.read_write_other _ _ hjn]; exact h j (by omega)

theorem memRead_of_listed {m : Memory} {i : Nat} {b : Byte} (h : Memory.read m i = some b) (s : State) :
    memRead m i s = (b, s) := by simp [memRead, h]

theorem memRead_of_unlisted {m : Memory} {i : Nat} (h : Memory.read m i = none) (s : State) :
    memRead m i s = freeDraw s := by simp [memRead, h]

/-- A buffer read changes nothing but the count of free values. -/
theorem memRead_state (m : Memory) (i : Nat) (s : State) :
    ∃ d, (memRead m i s).2 = { s with draws := d } := by
  cases h : Memory.read m i with
  | none => exact ⟨s.draws + 1, by rw [memRead_of_unlisted h]; rfl⟩
  | some b => exact ⟨s.draws, by rw [memRead_of_listed h]⟩

end Sys2Proof.Machine
end

