-- ==== Sys2Proof/Laws/Sequencer.lean ====
section
/-! SUPPORT. Laws/Sequencer.lean: the pieces from which it follows that the sequencer, run one numbered step at a
time, does what each operation does as a whole: straight runs of steps, and each loop by induction. -/

namespace Sys2Proof.Machine

theorem iter_succ (n : Nat) (f : State → State) (s : State) : iter (n + 1) f s = iter n f (f s) := rfl

theorem iter_add (m n : Nat) (f : State → State) (s : State) : iter (m + n) f s = iter n f (iter m f s) := by
  induction m generalizing s with
  | zero => simp [iter]
  | succ m ih => rw [Nat.succ_add]; exact ih (f s)

theorem seqRun_add (m n : Nat) (s : State) : seqRun (m + n) s = seqRun n (seqRun m s) := iter_add m n seqStep s

/-- An idle block stays as it is (10_state.md R48). -/
theorem seqRun_idle (n : Nat) {s : State} (h : s.phase = .idle) : seqRun n s = s := by
  induction n with
  | zero => rfl
  | succ n ih => unfold seqRun at ih ⊢; rw [iter_succ]; simpa [seqStep, h] using ih

/-! Every effect is the same whatever `PHASE` is. -/
@[simp] theorem goTo_goTo (p q : Phase) (s : State) : goTo p (goTo q s) = goTo p s := rfl
@[simp] theorem clearElapsed_goTo (p : Phase) (s : State) : clearElapsed (goTo p s) = goTo p (clearElapsed s) := rfl
@[simp] theorem addInterval_goTo (p : Phase) (s : State) : addInterval (goTo p s) = goTo p (addInterval s) := rfl
@[simp] theorem csAssert_goTo (p : Phase) (s : State) : csAssert (goTo p s) = goTo p (csAssert s) := rfl
@[simp] theorem csRelease_goTo (p : Phase) (s : State) : csRelease (goTo p s) = goTo p (csRelease s) := rfl
@[simp] theorem settle_goTo (p : Phase) (s : State) : settle (goTo p s) = goTo p (settle s) := rfl
@[simp] theorem readStatus_goTo (p : Phase) (s : State) : readStatus (goTo p s) = goTo p (readStatus s) := rfl
@[simp] theorem writeLcs_goTo (p : Phase) (s : State) : writeLcs (goTo p s) = goTo p (writeLcs s) := rfl
@[simp] theorem writeDir_goTo (p : Phase) (s : State) : writeDir (goTo p s) = goTo p (writeDir s) := rfl
@[simp] theorem clearIdx_goTo (p : Phase) (s : State) : clearIdx (goTo p s) = goTo p (clearIdx s) := rfl
@[simp] theorem writeDcs_goTo (p : Phase) (s : State) : writeDcs (goTo p s) = goTo p (writeDcs s) := rfl
@[simp] theorem skipByte_goTo (p : Phase) (s : State) : skipByte (goTo p s) = goTo p (skipByte s) := rfl
@[simp] theorem readLen_goTo (p : Phase) (s : State) : readLen (goTo p s) = goTo p (readLen s) := rfl
@[simp] theorem readLcs_goTo (p : Phase) (s : State) : readLcs (goTo p s) = goTo p (readLcs s) := rfl
@[simp] theorem readDir_goTo (p : Phase) (s : State) : readDir (goTo p s) = goTo p (readDir s) := rfl
@[simp] theorem dropDir_goTo (p : Phase) (s : State) : dropDir (goTo p s) = goTo p (dropDir s) := rfl
@[simp] theorem seedPayload_goTo (p : Phase) (s : State) : seedPayload (goTo p s) = goTo p (seedPayload s) := rfl
@[simp] theorem readAckByte_goTo (p : Phase) (s : State) : readAckByte (goTo p s) = goTo p (readAckByte s) := rfl
@[simp] theorem readPayloadByte_goTo (p : Phase) (s : State) : readPayloadByte (goTo p s) = goTo p (readPayloadByte s) := rfl
@[simp] theorem succeed_goTo (p : Phase) (s : State) : succeed (goTo p s) = goTo p (succeed s) := rfl
@[simp] theorem setLen_goTo (v : Byte) (p : Phase) (s : State) : setLen v (goTo p s) = goTo p (setLen v s) := rfl
@[simp] theorem busWrite_goTo (v : Byte) (p : Phase) (s : State) : busWrite v (goTo p s) = goTo p (busWrite v s) := rfl
@[simp] theorem sendByte_goTo (v : Byte) (p : Phase) (s : State) : sendByte v (goTo p s) = goTo p (sendByte v s) := rfl
@[simp] theorem fail_goTo (v : ErrKind) (p : Phase) (s : State) : fail v (goTo p s) = goTo p (fail v s) := rfl
@[simp] theorem delay_goTo (v : Nat) (p : Phase) (s : State) : delay v (goTo p s) = goTo p (delay v s) := rfl
@[simp] theorem complete_goTo (op : Operation) (p : Phase) (s : State) : complete op (goTo p s) = complete op s := by
  cases op <;> rfl
@[simp] theorem ready_goTo (p : Phase) (s : State) : ready (goTo p s) = ready s := rfl
@[simp] theorem timedOut_goTo (p : Phase) (s : State) : timedOut (goTo p s) = timedOut s := rfl
@[simp] theorem headerLaw_goTo (p : Phase) (s : State) : headerLaw (goTo p s) = headerLaw s := rfl
@[simp] theorem fromDevice_goTo (p : Phase) (s : State) : fromDevice (goTo p s) = fromDevice s := rfl
@[simp] theorem overCapacity_goTo (p : Phase) (s : State) : overCapacity (goTo p s) = overCapacity s := rfl
@[simp] theorem ackMatches_goTo (p : Phase) (s : State) : ackMatches (goTo p s) = ackMatches s := rfl
@[simp] theorem payloadLaw_goTo (c : Byte) (p : Phase) (s : State) : payloadLaw c (goTo p s) = payloadLaw c s := rfl
@[simp] theorem deviceAnswer_goTo (p : Phase) (s : State) : deviceAnswer (goTo p s) = deviceAnswer s := rfl
@[simp] theorem busRead_goTo (p : Phase) (s : State) : busRead (goTo p s) = ((busRead s).1, goTo p (busRead s).2) := rfl

@[simp] theorem statusProbe_goTo (p : Phase) (s : State) : statusProbe (goTo p s) = goTo p (statusProbe s) := by
  simp only [statusProbe, csAssert_goTo, busWrite_goTo, readStatus_goTo, csRelease_goTo]

@[simp] theorem recordPoll_goTo (r : Bool) (p : Phase) (s : State) :
    recordPoll r (goTo p s) = goTo p (recordPoll r s) := by cases r <;> rfl

theorem csReleaseIfAsserted_goTo (p : Phase) (s : State) :
    csReleaseIfAsserted (goTo p s) = goTo p (csReleaseIfAsserted s) := by
  by_cases h : s.cs = true <;> simp [csReleaseIfAsserted, h]

theorem failReceive_goTo (op : Operation) (p : Phase) (s : State) :
    failReceive op (goTo p s) = goTo p (failReceive op s) := by cases op <;> rfl

@[simp] theorem raise_goTo (op : Operation) (e : ErrKind) (p : Phase) (s : State) :
    raise op e (goTo p s) = raise op e s := by
  simp only [raise, csReleaseIfAsserted_goTo, fail_goTo, failReceive_goTo, complete_goTo]

theorem pollLoop_goTo (p : Phase) (n : Nat) (s : State) :
    pollLoop n (goTo p s) = ((pollLoop n s).1, goTo p (pollLoop n s).2) := by
  induction n generalizing s with
  | zero => rfl
  | succ n ih =>
    simp only [pollLoop, statusProbe_goTo, ready_goTo, addInterval_goTo, timedOut_goTo, delay_goTo, ih]
    split
    · rfl
    · split <;> rfl

@[simp] theorem sendFromCbuf_goTo (p : Phase) (s : State) : sendFromCbuf (goTo p s) = goTo p (sendFromCbuf s) := by
  simp only [sendFromCbuf, memRead, goTo_cbuf, goTo_idx]
  cases Memory.read s.cbuf s.idx.toNat <;> rfl

theorem sendFromCbuf_clen (s : State) : (sendFromCbuf s).clen = s.clen := by
  obtain ⟨d, h⟩ := memRead_state s.cbuf s.idx.toNat s
  simp [sendFromCbuf, h]

theorem sendFromCbuf_idx (s : State) : (sendFromCbuf s).idx = s.idx + 1 := by
  obtain ⟨d, h⟩ := memRead_state s.cbuf s.idx.toNat s
  simp [sendFromCbuf, h]

/-! One numbered step. -/

theorem seqRun_zero (s : State) : seqRun 0 s = s := rfl

theorem seqRun_succ (n : Nat) (s : State) : seqRun (n + 1) s = seqRun n (seqStep s) := rfl

theorem seqStep_poll (p : Poller) (k : PollStep) (s : State) :
    seqStep (goTo (.poll p k) s) = pollStep p k (goTo (.poll p k) s) := rfl

theorem seqStep_encode (k : EncodeStep) (s : State) :
    seqStep (goTo (.encode k) s) = encodeStep k (goTo (.encode k) s) := rfl

theorem seqStep_ack (k : AckStep) (s : State) : seqStep (goTo (.ack k) s) = ackStep k (goTo (.ack k) s) := rfl

theorem seqStep_receive (k : ReceiveStep) (s : State) :
    seqStep (goTo (.receive k) s) = receiveStep k (goTo (.receive k) s) := rfl

theorem seqStep_polled (p : Poller) (r : Bool) (s : State) :
    seqStep (goTo (.polled p r) s) = polledStep p r (goTo (.polled p r) s) := rfl

theorem seqStep_waitReady3 (s : State) : seqStep (goTo .waitReady3 s) = complete .waitReady s := by
  show complete .waitReady (goTo .waitReady3 s) = _
  simp

/-! The poller (41_ready_poller.md R131). -/

theorem timedOut_iff (s : State) : timedOut s = true ↔ s.timeout.toNat < s.elapsed.toNat := by
  have h := s.timeout.isLt
  simp only [timedOut, decide_eq_true_eq, BitVec.lt_def, BitVec.toNat_setWidth]
  rw [Nat.mod_eq_of_lt (by omega)]

theorem addInterval_toNat {s : State} (h : s.elapsed.toNat ≤ s.timeout.toNat) :
    (addInterval s).elapsed.toNat = s.elapsed.toNat + 10 := by
  have := s.timeout.isLt
  simp only [addInterval_elapsed, Config.pollInterval, BitVec.toNat_add, BitVec.toNat_ofNat]
  omega

theorem statusProbe_elapsed (s : State) : (statusProbe s).elapsed = s.elapsed := by simp [statusProbe]

theorem statusProbe_timeout (s : State) : (statusProbe s).timeout = s.timeout := by simp [statusProbe]

theorem seqRun_probe (p : Poller) (n : Nat) (s : State) :
    seqRun (n + 5) (goTo (.poll p .p2a) s) =
      seqRun n (goTo (if ready (statusProbe s) then .polled p true else .poll p .p4) (statusProbe s)) := by
  simp [seqRun_succ, seqStep_poll, pollStep]
  rfl

theorem seqRun_count (p : Poller) (n : Nat) (s : State) :
    seqRun (n + 2) (goTo (.poll p .p4) s) =
      seqRun n (goTo (if timedOut (addInterval s) then .polled p false else .poll p .p6) (addInterval s)) := by
  simp [seqRun_succ, seqStep_poll, pollStep]
  rfl

theorem seqRun_sleep (p : Poller) (n : Nat) (s : State) :
    seqRun (n + 2) (goTo (.poll p .p6) s) = seqRun n (goTo (.poll p .p2a) (delay Config.pollInterval s)) := by
  simp [seqRun_succ, seqStep_poll, pollStep]

/-- The loop of the poller, from step 2: with a budget of `n` probes that its count cannot outlast, it ends in
`<operation>.2` with the answer of the whole loop, after at most nine steps a probe. -/
theorem seqRun_pollLoop (p : Poller) (n : Nat) (s : State) (he : s.elapsed.toNat ≤ s.timeout.toNat)
    (hn : s.timeout.toNat < s.elapsed.toNat + 10 * n) :
    ∃ k, k ≤ 9 * n ∧ seqRun k (goTo (.poll p .p2a) s) = goTo (.polled p (pollLoop n s).1) (pollLoop n s).2 := by
  induction n generalizing s with
  | zero => omega
  | succ n ih =>
    by_cases hr : ready (statusProbe s) = true
    · refine ⟨0 + 5, by omega, ?_⟩
      rw [seqRun_probe]
      simp [pollLoop, hr, seqRun_zero]
    · simp only [Bool.not_eq_true] at hr
      have hadd := addInterval_toNat (s := statusProbe s) (by rw [statusProbe_elapsed, statusProbe_timeout]; exact he)
      rw [statusProbe_elapsed] at hadd
      by_cases ht : timedOut (addInterval (statusProbe s)) = true
      · refine ⟨0 + 2 + 5, by omega, ?_⟩
        rw [seqRun_probe, hr, if_neg (by simp), seqRun_count]
        simp [pollLoop, hr, ht, seqRun_zero]
      · have hle : ¬ (s.timeout.toNat < s.elapsed.toNat + 10) := by
          rw [timedOut_iff, hadd, addInterval_timeout, statusProbe_timeout] at ht
          exact ht
        obtain ⟨k, hk, h⟩ := ih (delay Config.pollInterval (addInterval (statusProbe s)))
          (by simp only [delay_elapsed, hadd, delay_timeout, addInterval_timeout, statusProbe_timeout]; omega)
          (by simp only [delay_elapsed, hadd, delay_timeout, addInterval_timeout, statusProbe_timeout]; omega)
        refine ⟨k + 2 + 2 + 5, by omega, ?_⟩
        rw [seqRun_probe, hr, if_neg (by simp), seqRun_count, if_neg ht, seqRun_sleep, h]
        simp [pollLoop, hr, ht]

/-- The whole subroutine, from step 1 (41_ready_poller.md R133, R137). -/
theorem seqRun_poll (p : Poller) (s : State) :
    ∃ k, k ≤ 9 * probeBudget s + 1 ∧
      seqRun k (goTo (.poll p .p1) s) = goTo (.polled p (pollReady s).1) (pollReady s).2 := by
  obtain ⟨k, hk, h⟩ := seqRun_pollLoop p (probeBudget s) (clearElapsed s) (by simp)
    (by simp only [clearElapsed_timeout, clearElapsed_elapsed, probeBudget, Config.pollInterval]
        have : (0 : BitVec 17).toNat = 0 := rfl
        omega)
  refine ⟨k + 1, by omega, ?_⟩
  rw [seqRun_succ, seqStep_poll, pollStep, clearElapsed_goTo, goTo_goTo]
  exact h

/-! ENCODE_SEND (42_frame_encoder.md R141). -/

theorem seqRun_startFrame (n : Nat) (s : State) :
    seqRun (n + 11) (goTo (.encode .e1) s) = seqRun n (goTo (.encode .e12) (startFrame (s.clen + 1) s)) := by
  simp [seqRun_succ, seqStep_encode, encodeStep, startFrame, writeStart, openWrite]

theorem seqRun_sendFromCbuf (n m : Nat) (s : State) (h : s.idx.toNat + n = s.clen.toNat) :
    seqRun (m + (n + 1)) (goTo (.encode .e12) s) = seqRun m (goTo (.encode .e13) (iter n sendFromCbuf s)) := by
  induction n generalizing s with
  | zero =>
    have hlt : ¬ s.idx < s.clen := by rw [BitVec.lt_def]; omega
    rw [Nat.zero_add, seqRun_succ, seqStep_encode, encodeStep, goTo_idx, goTo_clen, if_neg hlt, goTo_goTo, iter]
  | succ n ih =>
    have hlt : s.idx < s.clen := by rw [BitVec.lt_def]; omega
    rw [← Nat.add_assoc, seqRun_succ, seqStep_encode, encodeStep, goTo_idx, goTo_clen, if_pos hlt, sendFromCbuf_goTo,
      goTo_goTo, ih, iter]
    rw [sendFromCbuf_idx, sendFromCbuf_clen, BitVec.toNat_add]
    have := s.clen.isLt
    have h1 : (1 : BitVec 8).toNat = 1 := rfl
    omega

theorem seqRun_endFrame (s : State) :
    seqRun 5 (goTo (.encode .e13) s) = complete .encodeSend (succeed (endFrame s)) := by
  simp [seqRun_succ, seqRun_zero, seqStep_encode, encodeStep, endFrame]

/-! AWAIT_ACK (43_ack_handshake.md R156). -/

theorem seqRun_readAckByte (n m : Nat) (s : State) (h : s.idx.toNat + n = 6) :
    seqRun (m + (n + 1)) (goTo (.ack .a6) s) = seqRun m (goTo (.ack .a7) (iter n readAckByte s)) := by
  induction n generalizing s with
  | zero =>
    have hlt : ¬ s.idx.toNat < Config.ackSize := by simp only [Config.ackSize]; omega
    rw [Nat.zero_add, seqRun_succ, seqStep_ack, ackStep, goTo_idx, if_neg hlt, goTo_goTo, iter]
  | succ n ih =>
    have hlt : s.idx.toNat < Config.ackSize := by simp only [Config.ackSize]; omega
    rw [← Nat.add_assoc, seqRun_succ, seqStep_ack, ackStep, goTo_idx, if_pos hlt, readAckByte_goTo, goTo_goTo, ih, iter]
    rw [readAckByte_idx, BitVec.toNat_add]
    have h1 : (1 : BitVec 8).toNat = 1 := rfl
    omega

theorem seqRun_judgeAck (s : State) : seqRun 3 (goTo (.ack .a8) s) = judgeAck s := by
  rw [seqRun_succ, seqStep_ack, ackStep, ackMatches_goTo, raise_goTo, goTo_goTo, judgeAck]
  by_cases ha : ackMatches s = true
  · simp [ha, seqRun_succ, seqRun_zero, seqStep_ack, ackStep]
  · simp only [ha]; exact seqRun_idle 2 rfl

/-- Steps 3 to 10 of AWAIT_ACK. -/
theorem seqRun_ack (s : State) : seqRun 14 (goTo (.ack .a3) s) = judgeAck (readAck s) := by
  have h1 : seqRun 14 (goTo (.ack .a3) s) = seqRun (4 + (6 + 1)) (goTo (.ack .a6) (clearIdx (openRead s))) := by
    simp [seqRun_succ, seqStep_ack, ackStep, openRead]
  rw [h1, seqRun_readAckByte 6 4 _ rfl, seqRun_succ, seqStep_ack, ackStep, csRelease_goTo, goTo_goTo, seqRun_judgeAck]
  rfl

/-! RECEIVE (44_frame_decoder.md R171). -/

theorem seqRun_readPayloadByte (n m : Nat) (s : State) (h : s.idx.toNat + n = s.len.toNat) :
    seqRun (m + (n + 1)) (goTo (.receive .r15) s) = seqRun m (goTo (.receive .r16) (iter n readPayloadByte s)) := by
  induction n generalizing s with
  | zero =>
    have hlt : ¬ s.idx < s.len := by rw [BitVec.lt_def]; omega
    rw [Nat.zero_add, seqRun_succ, seqStep_receive, receiveStep, goTo_idx, goTo_len, if_neg hlt, goTo_goTo, iter]
  | succ n ih =>
    have hlt : s.idx < s.len := by rw [BitVec.lt_def]; omega
    rw [← Nat.add_assoc, seqRun_succ, seqStep_receive, receiveStep, goTo_idx, goTo_len, if_pos hlt,
      readPayloadByte_goTo, goTo_goTo, ih, iter]
    rw [readPayloadByte_idx, readPayloadByte_len, BitVec.toNat_add]
    have := s.len.isLt
    have h1 : (1 : BitVec 8).toNat = 1 := rfl
    omega

/-- Steps 15 to 21. -/
theorem seqRun_readBody (s : State) (h : s.idx = 0) :
    seqRun (6 + (s.len.toNat + 1)) (goTo (.receive .r15) s) = judgeFrame (readBody s) := by
  rw [seqRun_readPayloadByte _ _ _ (by rw [h]; simp)]
  simp only [readBody]
  generalize iter s.len.toNat readPayloadByte s = t
  rw [seqRun_succ, seqStep_receive, receiveStep, busRead_goTo, goTo_goTo, seqRun_succ, seqStep_receive, receiveStep,
    payloadLaw_goTo, raise_goTo, goTo_goTo]
  by_cases hp : payloadLaw (busRead t).1 (busRead t).2 = true
  · simp only [hp, if_true]
    rw [seqRun_succ, seqStep_receive, receiveStep, skipByte_goTo, goTo_goTo]
    rw [seqRun_succ, seqStep_receive, receiveStep, csRelease_goTo, goTo_goTo]
    rw [seqRun_succ, seqStep_receive, receiveStep]
    rw [seqRun_succ, seqStep_receive, receiveStep, seqRun_zero, complete_goTo]
    rw [judgeFrame]
    generalize csRelease (skipByte (busRead t).2) = u
    show complete .receive (succeed (goTo (.receive .r20) { u with plen := u.len })) = _
    rw [succeed_goTo, complete_goTo]
  · simp only [hp]; exact seqRun_idle 4 rfl

/-- Steps 11 to 21. -/
theorem seqRun_readCounted (s : State) :
    ∃ k, k ≤ 270 ∧ seqRun k (goTo (.receive .r11) s) = judgeFrame (readCounted s) := by
  by_cases h0 : s.len = 0
  · refine ⟨0 + 1, by omega, ?_⟩
    rw [seqRun_succ, seqStep_receive, receiveStep, goTo_len, if_pos h0, raise_goTo, readCounted, if_pos h0]; rfl
  · by_cases hc : overCapacity (dropDir s) = true
    · refine ⟨3, by omega, ?_⟩
      rw [seqRun_succ, seqStep_receive, receiveStep, goTo_len, if_neg h0, goTo_goTo, readCounted, if_neg h0, if_pos hc]
      rw [seqRun_succ, seqStep_receive, receiveStep, dropDir_goTo, goTo_goTo]
      rw [seqRun_succ, seqStep_receive, receiveStep, overCapacity_goTo, if_pos hc, raise_goTo]
      rfl
    · refine ⟨6 + ((seedPayload (dropDir s)).len.toNat + 1) + 1 + 1 + 1 + 1, ?_, ?_⟩
      · have := (seedPayload (dropDir s)).len.isLt; omega
      · rw [seqRun_succ, seqStep_receive, receiveStep, goTo_len, if_neg h0, goTo_goTo, readCounted, if_neg h0, if_neg hc]
        rw [seqRun_succ, seqStep_receive, receiveStep, dropDir_goTo, goTo_goTo]
        rw [seqRun_succ, seqStep_receive, receiveStep, overCapacity_goTo, if_neg hc, goTo_goTo]
        rw [seqRun_succ, seqStep_receive, receiveStep, seedPayload_goTo, goTo_goTo]
        exact seqRun_readBody _ rfl

/-- Steps 9 to 21. -/
theorem seqRun_readDirected (s : State) :
    ∃ k, k ≤ 272 ∧ seqRun k (goTo (.receive .r9) s) = judgeFrame (readDirected s) := by
  have h1 : ∀ k, seqRun (k + 2) (goTo (.receive .r9) s) = seqRun k
      (if fromDevice (readDir s) then goTo (.receive .r11) (readDir s)
        else raise .receive .unexpectedDirection (readDir s)) := fun k => by
    rw [seqRun_succ, seqStep_receive, receiveStep, readDir_goTo, goTo_goTo]
    rw [seqRun_succ, seqStep_receive, receiveStep, fromDevice_goTo, raise_goTo, goTo_goTo]
  by_cases hd : fromDevice (readDir s) = true
  · obtain ⟨k, hk, h⟩ := seqRun_readCounted (readDir s)
    refine ⟨k + 2, by omega, ?_⟩
    rw [h1, if_pos hd, h]
    simp only [readDirected, hd, if_true]
  · refine ⟨0 + 2, by omega, ?_⟩
    rw [h1 0, if_neg hd]
    simp only [readDirected, hd]; rfl

/-- Steps 3 to 21 of RECEIVE. -/
theorem seqRun_readFrame (s : State) :
    ∃ k, k ≤ 280 ∧ seqRun k (goTo (.receive .r3) s) = judgeFrame (readFrame s) := by
  have h1 : ∀ k, seqRun (k + 8) (goTo (.receive .r3) s) = seqRun k
      (if headerLaw (readLcs (readLen (skipByte (skipByte (skipByte (openRead s))))))
        then goTo (.receive .r9) (readLcs (readLen (skipByte (skipByte (skipByte (openRead s))))))
        else raise .receive .checksumMismatch (readLcs (readLen (skipByte (skipByte (skipByte (openRead s))))))) :=
    fun k => by
      simp [seqRun_succ, seqStep_receive, receiveStep, openRead]
      rfl
  simp only [readFrame]
  generalize readLcs (readLen (skipByte (skipByte (skipByte (openRead s))))) = t at h1 ⊢
  by_cases hl : headerLaw t = true
  · obtain ⟨k, hk, h⟩ := seqRun_readDirected t
    refine ⟨k + 8, by omega, ?_⟩
    rw [h1, if_pos hl, h]
    simp only [hl, if_true]
  · refine ⟨0 + 8, by omega, ?_⟩
    rw [h1 0, if_neg hl]
    simp only [hl]; rfl

end Sys2Proof.Machine
end

