-- ==== Sys2Proof/Laws/Device.lean ====
section
/-! SUPPORT. Laws/Device.lean: what each part of an operation does for whatever the device answers: one equation
per part, the state after it written out field by field. -/

namespace Sys2Proof.Machine

theorem deviceAnswer_eq (s : State) : deviceAnswer s = answerAt s 0 := by
  simp only [deviceAnswer, answerAt, Nat.add_zero]
  cases s.rx <;> rfl

theorem answerAt_congr {s t : State} (hr : t.rx = s.rx) (hx : t.xfers = s.xfers) (n : Nat) : answerAt t n = answerAt s n := by
  simp only [answerAt, hr, hx]

/-- After `m` exchanges the device's answers are those from the `m`-th on. -/
theorem answerAt_drop {s t : State} {m : Nat} (hr : t.rx = s.rx.drop m) (hx : t.xfers = s.xfers + m) (n : Nat) :
    answerAt t n = answerAt s (m + n) := by
  simp only [answerAt, hr, hx, List.getElem?_drop, Nat.add_assoc]

theorem tail_tail (l : List Byte) : l.tail.tail = l.drop 2 := by rcases l with _ | ⟨_, _ | ⟨_, _⟩⟩ <;> rfl

theorem deviceGives_append {s : State} {m : Nat} {xs ys : List Byte} :
    deviceGives s m (xs ++ ys) ↔ deviceGives s m xs ∧ deviceGives s (m + xs.length) ys := by
  constructor
  · intro h
    refine ⟨fun j hj => ?_, fun j hj => ?_⟩
    · rw [h j (by simp; omega), List.getElem_append_left hj]
    · have := h (xs.length + j) (by simp; omega)
      rw [← Nat.add_assoc] at this
      rw [this, List.getElem_append_right (by omega)]
      simp
  · rintro ⟨hx, hy⟩ j hj
    by_cases hl : j < xs.length
    · rw [List.getElem_append_left hl, hx j hl]
    · have := hy (j - xs.length) (by simp at hj; omega)
      rw [List.getElem_append_right (by omega), ← this]
      congr 1; omega

theorem deviceGives_cons {s : State} {m : Nat} {b : Byte} {bs : List Byte} :
    deviceGives s m (b :: bs) ↔ answerAt s m = b ∧ deviceGives s (m + 1) bs := by
  constructor
  · intro h
    refine ⟨h 0 (by simp), fun j hj => ?_⟩
    have := h (j + 1) (by simpa using hj)
    rw [show m + 1 + j = m + (j + 1) by omega, this]
    simp
  · rintro ⟨hb, hs⟩ j hj
    cases j with
    | zero => exact hb
    | succ j => rw [show m + (j + 1) = m + 1 + j by omega]; simpa using hs j (by simpa using hj)

theorem deviceGives_nil (s : State) (m : Nat) : deviceGives s m [] := fun _ h => absurd h (Nat.not_lt_zero _)

theorem deviceGives_eq {s : State} {m n : Nat} {bs : List Byte} (h : deviceGives s m bs) (hn : bs.length = n) :
    (List.range n).map (fun j => answerAt s (m + j)) = bs := by
  subst hn
  apply List.ext_getElem
  · simp
  · intro i h1 h2
    simp [h i h2]

/-- A script gives what stands in it. -/
theorem deviceGives_of_rx {s : State} {m : Nat} {bytes : List Byte} (rest : List Byte)
    (h : s.rx.drop m = bytes ++ rest) : deviceGives s m bytes := by
  intro j hj
  have : s.rx[m + j]? = some bytes[j] := by
    rw [← List.getElem?_drop, h, List.getElem?_append_left hj, List.getElem?_eq_getElem hj]
  simp only [answerAt, this]

/-! Single transactions. -/

/-- A status transaction (20_memory.md R72). -/
theorem statusProbe_eq (s : State) :
    statusProbe s =
      { s with
        statb := answerAt s 1, trace := s.trace ++ probeEvents (answerAt s 1)
        rx := s.rx.drop 2, xfers := s.xfers + 2, cs := false } := by
  have h : deviceAnswer (busWrite Config.mStatus (csAssert s)) = answerAt s 1 := by
    rw [deviceAnswer_eq, answerAt_drop (m := 1) (s := s) (by simp) (by simp)]
  ext1 <;> simp [statusProbe, h, probeEvents, tail_tail]

theorem openRead_eq (s : State) :
    openRead s =
      { s with
        trace := s.trace ++ [.csAssert, .write Config.mRead], rx := s.rx.drop 1, xfers := s.xfers + 1, cs := true } := by
  ext1 <;> simp [openRead]

/-! The poller. -/

theorem waitEvents_cons (b : Byte) {bs : List Byte} (h : bs ≠ []) :
    waitEvents (b :: bs) = probeEvents b ++ [.delay Config.pollInterval] ++ waitEvents bs := by
  cases bs with
  | nil => exact absurd rfl h
  | cons c cs => rfl

theorem statuses_succ (s : State) (n : Nat) : statuses s (n + 1) = statusAt s 0 :: (List.range n).map (fun i => statusAt s (i + 1)) := by
  simp [statuses, List.range_succ_eq_map, Function.comp_def]

theorem statuses_ne_nil (s : State) (n : Nat) : statuses s (n + 1) ≠ [] := by rw [statuses_succ]; simp

theorem statusAt_drop {s t : State} (hr : t.rx = s.rx.drop 2) (hx : t.xfers = s.xfers + 2) (i : Nat) :
    statusAt t i = statusAt s (i + 1) := by
  simp only [statusAt]; rw [answerAt_drop hr hx]; congr 1; omega

/-- What a wait leaves: `n` probes made, `sleeps` of them followed by ten ticks counted. -/
def waited (s : State) (n sleeps : Nat) : State :=
  { s with
    elapsed := s.elapsed + BitVec.ofNat 17 (10 * sleeps), statb := statusAt s (n - 1)
    trace := s.trace ++ waitEvents (statuses s n), rx := s.rx.drop (2 * n), xfers := s.xfers + 2 * n, cs := false }

theorem waited_step (s : State) (n k : Nat) :
    waited (delay Config.pollInterval (addInterval (statusProbe s))) (n + 1) k = waited s (n + 2) (k + 1) := by
  have hs : ∀ i, statusAt (delay Config.pollInterval (addInterval (statusProbe s))) i = statusAt s (i + 1) :=
    fun i => statusAt_drop (by simp [statusProbe_eq]) (by simp [statusProbe_eq]) i
  have hst : statuses (delay Config.pollInterval (addInterval (statusProbe s))) (n + 1) =
      (List.range (n + 1)).map (fun i => statusAt s (i + 1)) := by
    simp only [statuses]; exact List.map_congr_left fun i _ => hs i
  have hw : waitEvents (statuses s (n + 2)) =
      probeEvents (statusAt s 0) ++ [.delay Config.pollInterval] ++
        waitEvents ((List.range (n + 1)).map (fun i => statusAt s (i + 1))) := by
    rw [statuses_succ, waitEvents_cons _ (by simp)]
  have he : s.elapsed + BitVec.ofNat 17 Config.pollInterval + BitVec.ofNat 17 (10 * k) =
      s.elapsed + BitVec.ofNat 17 (10 * (k + 1)) := by
    rw [BitVec.add_assoc]; congr 1
    simp only [Config.pollInterval, ← BitVec.ofNat_add]
    congr 1; omega
  ext1 <;> simp only [waited]
  case elapsed => simpa [statusProbe_eq] using he
  case statb => rw [hs]; simp
  case trace =>
    rw [hst, hw]
    simp [statusProbe_eq, statusAt]
  case rx => simp [statusProbe_eq]; congr 1; omega
  case xfers => simp [statusProbe_eq]; omega
  all_goals simp [statusProbe_eq]

theorem ready_statusProbe (s : State) : ready (statusProbe s) = readyBit (statusAt s 0) := by
  simp [ready, statusProbe_eq, statusAt]

/-- After a probe that was not ready, when the count allows another (41_ready_poller.md R131 steps 3 to 7). -/
theorem pollLoop_again (n : Nat) (s : State) (h0 : readyBit (statusAt s 0) = false)
    (hc : s.elapsed.toNat + 10 ≤ s.timeout.toNat) :
    ∃ u, u = delay Config.pollInterval (addInterval (statusProbe s)) ∧ pollLoop (n + 1) s = pollLoop n u ∧
      u.elapsed.toNat = s.elapsed.toNat + 10 ∧ u.timeout = s.timeout ∧ ∀ i, statusAt u i = statusAt s (i + 1) := by
  refine ⟨_, rfl, ?_, ?_, ?_, ?_⟩
  · have h1 : ready (statusProbe s) = false := by rw [ready_statusProbe]; exact h0
    have hadd := addInterval_toNat (s := statusProbe s) (by rw [statusProbe_elapsed, statusProbe_timeout]; omega)
    have ht : ¬ timedOut (addInterval (statusProbe s)) = true := by
      rw [timedOut_iff, hadd, addInterval_timeout, statusProbe_timeout, statusProbe_elapsed]; omega
    rw [pollLoop]
    simp only [h1, ht]
    rfl
  · rw [delay_elapsed, addInterval_toNat (by rw [statusProbe_elapsed, statusProbe_timeout]; omega), statusProbe_elapsed]
  · rw [delay_timeout, addInterval_timeout, statusProbe_timeout]
  · exact fun i => statusAt_drop (by simp [statusProbe_eq]) (by simp [statusProbe_eq]) i

/-- The loop when probe `k` is the first ready one and the count allows it (41_ready_poller.md R133). -/
theorem pollLoop_ready (k n : Nat) (s : State) (hk : k < n) (hn : ∀ i, i < k → readyBit (statusAt s i) = false)
    (hr : readyBit (statusAt s k) = true) (hc : s.elapsed.toNat + 10 * k ≤ s.timeout.toNat) :
    pollLoop n s = (true, waited s (k + 1) k) := by
  induction k generalizing n s with
  | zero =>
    obtain ⟨n, rfl⟩ : ∃ m, n = m + 1 := ⟨n - 1, by omega⟩
    simp only [pollLoop, ready_statusProbe, hr, if_true]
    refine Prod.ext rfl ?_
    show statusProbe s = waited s 1 0
    ext1 <;> simp [statusProbe_eq, waited, statuses_succ, waitEvents, statusAt]
  | succ k ih =>
    obtain ⟨n, rfl⟩ : ∃ m, n = m + 1 := ⟨n - 1, by omega⟩
    obtain ⟨u, rfl, hu, he, ht, hs⟩ := pollLoop_again n s (hn 0 (by omega)) (by omega)
    rw [hu, ih n _ (by omega) (fun i hi => by rw [hs]; exact hn (i + 1) (by omega)) (by rw [hs]; exact hr)
      (by rw [he, ht]; omega), waited_step]

/-- The loop when no probe of the budget is ready (41_ready_poller.md R133). -/
theorem pollLoop_never (n : Nat) (s : State) (hn : ∀ i, i < n + 1 → readyBit (statusAt s i) = false)
    (hc : s.elapsed.toNat + 10 * n ≤ s.timeout.toNat) (hb : s.timeout.toNat < s.elapsed.toNat + 10 * (n + 1)) :
    pollLoop (n + 1) s = (false, waited s (n + 1) (n + 1)) := by
  induction n generalizing s with
  | zero =>
    have h0 : ready (statusProbe s) = false := by rw [ready_statusProbe]; exact hn 0 (by omega)
    have ht : timedOut (addInterval (statusProbe s)) = true := by
      rw [timedOut_iff, addInterval_toNat (by rw [statusProbe_elapsed, statusProbe_timeout]; omega),
        addInterval_timeout, statusProbe_timeout, statusProbe_elapsed]
      omega
    rw [pollLoop]
    simp only [h0, ht, if_true]
    rw [if_neg (by simp)]
    refine Prod.ext rfl ?_
    show addInterval (statusProbe s) = waited s 1 1
    ext1 <;> simp [statusProbe_eq, waited, statuses_succ, waitEvents, statusAt, Config.pollInterval]
  | succ n ih =>
    obtain ⟨u, rfl, hu, he, ht, hs⟩ := pollLoop_again (n + 1) s (hn 0 (by omega)) (by omega)
    rw [hu, ih _ (fun i hi => by rw [hs]; exact hn (i + 1) (by omega)) (by rw [he, ht]; omega)
      (by rw [he, ht]; omega), waited_step]

theorem answerAt_clearElapsed (s : State) (n : Nat) : answerAt (clearElapsed s) n = answerAt s n := rfl

theorem statusAt_clearElapsed (s : State) (n : Nat) : statusAt (clearElapsed s) n = statusAt s n := rfl

/-- The whole wait when probe `k` is the first ready one (41_ready_poller.md R133). -/
theorem pollReady_ready {s : State} {k : Nat} (h : readyAtProbe s k) :
    pollReady s = (true, waited (clearElapsed s) (k + 1) k) := by
  obtain ⟨hk, hn, hr⟩ := h
  refine pollLoop_ready k _ (clearElapsed s) hk hn hr ?_
  simp only [probeBudget, Config.pollInterval] at hk
  have : (0 : BitVec 17).toNat = 0 := rfl
  simp only [clearElapsed_elapsed, clearElapsed_timeout]
  omega

/-- The whole wait when no probe of the budget is ready (41_ready_poller.md R133). -/
theorem pollReady_never {s : State} (h : neverReady s) :
    pollReady s = (false, waited (clearElapsed s) (probeBudget s) (probeBudget s)) := by
  have h0 : (0 : BitVec 17).toNat = 0 := rfl
  have e : probeBudget s = s.timeout.toNat / 10 + 1 := rfl
  have := pollLoop_never (s.timeout.toNat / 10) (clearElapsed s) (fun i hi => h i (by rw [e]; exact hi))
    (by simp only [clearElapsed_elapsed, clearElapsed_timeout]; omega)
    (by simp only [clearElapsed_elapsed, clearElapsed_timeout]; omega)
  rw [← e] at this
  exact this

/-- A wait has one of the two outcomes. -/
theorem ready_or_never (s : State) : (∃ k, readyAtProbe s k) ∨ neverReady s := by
  by_cases h : ∃ k, k < probeBudget s ∧ readyBit (statusAt s k) = true
  · left
    have hex : ∃ k, readyBit (statusAt s k) = true := ⟨_, h.choose_spec.2⟩
    refine ⟨Nat.find hex, ?_, fun i hi => ?_, Nat.find_spec hex⟩
    · exact lt_of_le_of_lt (Nat.find_min' hex h.choose_spec.2) h.choose_spec.1
    · simpa using Nat.find_min hex hi
  · right
    intro i hi
    by_contra hr
    exact h ⟨i, hi, by simpa using hr⟩

end Sys2Proof.Machine
end

