-- ==== Sys2Proof/Laws/Frames.lean ====
section
/-! SUPPORT. Laws/Frames.lean: what the data-write and the data-read transactions do, the state after each written
out field by field. -/

namespace Sys2Proof.Machine

/-! The data-write transaction (42_frame_encoder.md). -/

theorem one_add_ofNat (n : Nat) : 1#8 + BitVec.ofNat 8 n = BitVec.ofNat 8 (n + 1) := by
  rw [Nat.add_comm n 1, BitVec.ofNat_add]

theorem drop_tail (l : List Byte) (n : Nat) : l.tail.drop n = l.drop (n + 1) := by
  cases l <;> simp

theorem sendBytes_eq (bs : List Byte) (s : State) :
    sendBytes bs s =
      { s with
        csum := s.csum + sum8 bs, idx := s.idx + BitVec.ofNat 8 bs.length, trace := s.trace ++ bs.map .write
        rx := s.rx.drop bs.length, xfers := s.xfers + bs.length } := by
  induction bs generalizing s with
  | nil => ext1 <;> simp [sendBytes, sum8]
  | cons b bs ih =>
    rw [sendBytes, ih]
    ext1 <;> simp [sum8, BitVec.add_assoc]
    · exact one_add_ofNat _
    · omega

theorem startFrame_eq (v : Byte) (s : State) :
    startFrame v s =
      { s with
        len := v, csum := Config.dirH2d, idx := 0, cs := true
        trace := s.trace ++ [.csAssert, .settle, .write Config.mWrite, .write Config.preamble, .write Config.start1,
          .write Config.start2, .write v, .write (lcsOf v), .write Config.dirH2d]
        rx := s.rx.drop 7, xfers := s.xfers + 7 } := by
  ext1 <;> simp [startFrame, writeStart, openWrite, ← List.drop_one, List.drop_drop]

/-- The data-write transaction of a payload (42_frame_encoder.md R143). -/
theorem sendFrame_eq (payload : List Byte) (s : State) :
    sendFrame payload s =
      { s with
        len := lenOf payload, csum := Config.dirH2d + sum8 payload, idx := BitVec.ofNat 8 payload.length, cs := false
        trace := s.trace ++ writeEvents (frameBytes Config.dirH2d payload)
        rx := s.rx.drop (payload.length + 9), xfers := s.xfers + (payload.length + 9) } := by
  rw [sendFrame, startFrame_eq, sendBytes_eq]
  ext1 <;> simp [endFrame, ← List.drop_one, List.drop_drop, writeEvents, frameBytes, frameHeader, dcsOf]
  · omega
  · omega

/-- `CBUF[0..n-1]` walked and sent: the bytes sent are those `CBUF` holds, free where it holds none. -/
theorem iter_sendFromCbuf (n : Nat) (s : State) (h : s.idx.toNat + n < 256) :
    ∃ bs d, bs.length = n ∧ (∀ j (hj : j < bs.length) b, Memory.read s.cbuf (s.idx.toNat + j) = some b → bs[j] = b) ∧
      ((∀ j, j < n → (Memory.read s.cbuf (s.idx.toNat + j)).isSome = true) → d = s.draws) ∧
      iter n sendFromCbuf s = { sendBytes bs s with draws := d } := by
  induction n generalizing s with
  | zero => exact ⟨[], s.draws, rfl, fun j hj => absurd hj (Nat.not_lt_zero _), fun _ => rfl, rfl⟩
  | succ n ih =>
    have hi : (sendFromCbuf s).idx.toNat = s.idx.toNat + 1 := by
      rw [sendFromCbuf_idx, BitVec.toNat_add]
      have h1 : (1 : BitVec 8).toNat = 1 := rfl
      omega
    have hcb : (sendFromCbuf s).cbuf = s.cbuf := by
      obtain ⟨d, h⟩ := memRead_state s.cbuf s.idx.toNat s
      simp [sendFromCbuf, h]
    obtain ⟨bs, d, hl, hb, hd, he⟩ := ih (sendFromCbuf s) (by omega)
    rw [hi, hcb] at hb hd
    obtain ⟨b, d0, hbs, hd0, h0⟩ : ∃ b d0, (∀ c, Memory.read s.cbuf s.idx.toNat = some c → b = c) ∧
        ((Memory.read s.cbuf s.idx.toNat).isSome = true → d0 = s.draws) ∧
        sendFromCbuf s = { sendByte b s with draws := d0 } := by
      cases hc : Memory.read s.cbuf s.idx.toNat with
      | none =>
        refine ⟨Config.freeByte s.draws, s.draws + 1, by simp, by simp, ?_⟩
        simp only [sendFromCbuf, memRead_of_unlisted hc]
        ext1 <;> simp [freeDraw, sendByte, busWrite, emit, exchanged]
      | some c =>
        refine ⟨c, s.draws, by simp, by simp, ?_⟩
        simp only [sendFromCbuf, memRead_of_listed hc]
        ext1 <;> simp
    refine ⟨b :: bs, d, by simp [hl], ?_, ?_, ?_⟩
    · intro j hj c hc
      cases j with
      | zero => exact hbs c hc
      | succ j =>
        simp only [List.getElem_cons_succ]
        exact hb j _ c (by rw [show s.idx.toNat + 1 + j = s.idx.toNat + (j + 1) by omega]; exact hc)
    · intro hs
      have e0 := hd0 (hs 0 (by omega))
      rw [hd fun j hj => by rw [show s.idx.toNat + 1 + j = s.idx.toNat + (j + 1) by omega]; exact hs (j + 1) (by omega), h0]
      exact e0
    · rw [iter, he, h0, sendBytes_eq, sendBytes, sendBytes_eq]

theorem clenLegal_iff (s : State) : clenLegal s = true ↔ s.clen.toNat ≤ 254 := by
  rw [clenLegal, decide_eq_true_eq]; rfl

theorem maxlenLegal_iff (s : State) : maxlenLegal s = true ↔ s.maxlen.toNat ≤ 254 := by
  rw [maxlenLegal, decide_eq_true_eq]; rfl

/-- The data-write transaction of ENCODE_SEND is the one of some payload of `CLEN` bytes that agrees with `CBUF`
wherever `CBUF` holds a value the spec fixes; a fully specified `CBUF` draws no free value. -/
theorem sendCommand_eq {s : State} (h : s.clen.toNat ≤ 254) :
    ∃ bs d, bs.length = s.clen.toNat ∧ (∀ j (hj : j < bs.length) b, Memory.read s.cbuf j = some b → bs[j] = b) ∧
      (specified s.cbuf s.clen.toNat → d = s.draws) ∧ sendCommand s = { sendFrame bs s with draws := d } := by
  obtain ⟨bs, d, hl, hb, hd, he⟩ := iter_sendFromCbuf s.clen.toNat (startFrame (s.clen + 1) s)
    (by rw [startFrame_eq]; have : (0 : BitVec 8).toNat = 0 := rfl; simp only; omega)
  have hi : (startFrame (s.clen + 1) s).idx.toNat = 0 := by rw [startFrame_eq]; rfl
  have hcb : (startFrame (s.clen + 1) s).cbuf = s.cbuf := by rw [startFrame_eq]
  have hdr : (startFrame (s.clen + 1) s).draws = s.draws := by rw [startFrame_eq]
  rw [hi, hcb] at hb hd
  rw [hdr] at hd
  refine ⟨bs, d, hl, fun j hj b hr => hb j hj b (by rw [Nat.zero_add]; exact hr),
    fun hs => hd fun j hj => by rw [Nat.zero_add]; exact hs j hj, ?_⟩
  have hlen : lenOf bs = s.clen + 1 := by
    rw [lenOf, hl, BitVec.ofNat_add, BitVec.ofNat_toNat, BitVec.setWidth_eq]; rfl
  rw [sendCommand, he, sendFrame, hlen, sendBytes_eq]
  ext1 <;> simp [endFrame]

theorem holdsBytes_eq {m : Memory} {xs ys : List Byte} (hx : holdsBytes m xs) (hl : ys.length = xs.length)
    (hy : ∀ j (hj : j < ys.length) b, Memory.read m j = some b → ys[j] = b) : ys = xs := by
  apply List.ext_getElem hl
  intro i h1 h2
  exact hy i h1 _ (hx i h2)

theorem specified_of_holdsBytes {m : Memory} {xs : List Byte} (hx : holdsBytes m xs) : specified m xs.length :=
  fun i hi => by rw [hx i hi]; rfl

/-- With `CBUF` fully specified the transaction is that of `CBUF`'s bytes. -/
theorem sendCommand_of_holdsBytes {s : State} {bytes : List Byte} (hl : bytes.length = s.clen.toNat)
    (h : s.clen.toNat ≤ 254) (hb : holdsBytes s.cbuf bytes) : sendCommand s = sendFrame bytes s := by
  obtain ⟨bs, d, hbl, hbb, hd, he⟩ := sendCommand_eq h
  have hbs : bs = bytes := holdsBytes_eq hb (by omega) hbb
  subst hbs
  rw [he, hd (by rw [← hl]; exact specified_of_holdsBytes hb), sendFrame_eq]

/-! The acknowledgment's read transaction (43_ack_handshake.md). -/

@[simp] theorem given_length (s : State) (m n : Nat) : (given s m n).length = n := by simp [given]

theorem given_succ (s : State) (m n : Nat) : given s m (n + 1) = answerAt s m :: given s (m + 1) n := by
  simp only [given, List.range_succ_eq_map, List.map_cons, List.map_map, Function.comp_def]
  congr 1
  apply List.map_congr_left
  intro j _
  congr 1
  simp only [Nat.succ_eq_add_one]
  omega

theorem given_drop {s t : State} {m : Nat} (hr : t.rx = s.rx.drop m) (hx : t.xfers = s.xfers + m) (k n : Nat) :
    given t k n = given s (m + k) n := by
  simp only [given]
  apply List.map_congr_left
  intro j _
  rw [answerAt_drop hr hx, Nat.add_assoc]

theorem given_eq {s : State} {m n : Nat} {bs : List Byte} (h : deviceGives s m bs) (hn : bs.length = n) :
    given s m n = bs := deviceGives_eq h hn

theorem iter_readAckByte (n : Nat) (s : State) (h : s.idx.toNat + n < 256) :
    iter n readAckByte s =
      { s with
        abuf := Memory.writeAll s.abuf s.idx.toNat (given s 0 n), idx := s.idx + BitVec.ofNat 8 n
        trace := s.trace ++ (given s 0 n).map .read, rx := s.rx.drop n, xfers := s.xfers + n } := by
  induction n generalizing s with
  | zero => ext1 <;> simp [iter, given, Memory.writeAll]
  | succ n ih =>
    have hi : (readAckByte s).idx.toNat = s.idx.toNat + 1 := by
      rw [readAckByte_idx, BitVec.toNat_add]
      have h1 : (1 : BitVec 8).toNat = 1 := rfl
      omega
    have hg : given (readAckByte s) 0 n = given s 1 n := given_drop (by simp) (by simp) 0 n
    rw [iter, ih _ (by omega), hi, hg]
    ext1 <;> simp [given_succ, Memory.writeAll, deviceAnswer_eq, BitVec.add_assoc]
    · exact one_add_ofNat _
    · omega

/-- The read transaction of AWAIT_ACK (43_ack_handshake.md R159). -/
theorem readAck_eq (s : State) :
    readAck s =
      { s with
        abuf := Memory.writeAll s.abuf 0 (given s 1 6), idx := 6, cs := false
        trace := s.trace ++ readEvents (given s 1 6), rx := s.rx.drop 7, xfers := s.xfers + 7 } := by
  have hg : given (clearIdx (openRead s)) 0 6 = given s 1 6 :=
    given_drop (by simp [openRead_eq]) (by simp [openRead_eq]) 0 6
  have h0 : (clearIdx (openRead s)).idx.toNat = 0 := rfl
  rw [readAck, Config.ackSize, iter_readAckByte _ _ (by rw [h0]; omega), h0, hg]
  ext1 <;> simp [openRead_eq, readEvents]

theorem ackMatches_iff {s : State} {m : Memory} {bytes : List Byte} (hs : s.abuf = Memory.writeAll m 0 bytes)
    (hl : bytes.length = 6) : ackMatches s = true ↔ bytes = Config.ackPattern := by
  have hr : (List.range 6).map (Memory.read s.abuf) = bytes.map some := by
    apply List.ext_getElem
    · simp [hl]
    · intro i h1 h2
      have hi : i < bytes.length := by simpa using h2
      have := Memory.read_writeAll bytes m 0 (j := i) hi
      rw [Nat.zero_add] at this
      simp [hs, this]
  rw [ackMatches, Config.ackSize, hr, decide_eq_true_eq]
  constructor
  · intro h; exact List.map_injective_iff.2 (Option.some_injective _) h
  · intro h; rw [h]

/-! The response frame's read transaction (44_frame_decoder.md). -/

theorem iter_readPayloadByte (n : Nat) (s : State) (h : s.idx.toNat + n < 256) :
    iter n readPayloadByte s =
      { s with
        pbuf := Memory.writeAll s.pbuf s.idx.toNat (given s 0 n), csum := s.csum + sum8 (given s 0 n)
        idx := s.idx + BitVec.ofNat 8 n
        trace := s.trace ++ (given s 0 n).map .read, rx := s.rx.drop n, xfers := s.xfers + n } := by
  induction n generalizing s with
  | zero => ext1 <;> simp [iter, given, Memory.writeAll, sum8]
  | succ n ih =>
    have hi : (readPayloadByte s).idx.toNat = s.idx.toNat + 1 := by
      rw [readPayloadByte_idx, BitVec.toNat_add]
      have h1 : (1 : BitVec 8).toNat = 1 := rfl
      omega
    have hg : given (readPayloadByte s) 0 n = given s 1 n := given_drop (by simp) (by simp) 0 n
    rw [iter, ih _ (by omega), hi, hg]
    ext1 <;> simp [given_succ, Memory.writeAll, deviceAnswer_eq, sum8, BitVec.add_assoc]
    · exact one_add_ofNat _
    · omega

/-- The header bytes as read: three skipped bytes, `LEN`, `LCSR` (44_frame_decoder.md R171 steps 3 to 7). -/
theorem readHeader_eq (s : State) :
    readLcs (readLen (skipByte (skipByte (skipByte (openRead s))))) =
      { s with
        len := answerAt s 4, lcsr := answerAt s 5, cs := true
        trace := s.trace ++ [.csAssert, .write Config.mRead] ++ (given s 1 5).map .read
        rx := s.rx.drop 6, xfers := s.xfers + 6 } := by
  have d : ∀ (t : State) (m : Nat), t.rx = s.rx.drop m → t.xfers = s.xfers + m → deviceAnswer t = answerAt s m :=
    fun t m hr hx => by rw [deviceAnswer_eq, answerAt_drop hr hx, Nat.add_zero]
  have h1 : deviceAnswer (openRead s) = answerAt s 1 := d _ 1 (by simp [openRead_eq]) (by simp [openRead_eq])
  have h2 : deviceAnswer (skipByte (openRead s)) = answerAt s 2 :=
    d _ 2 (by simp [openRead_eq, ← List.drop_one]) (by simp [openRead_eq])
  have h3 : deviceAnswer (skipByte (skipByte (openRead s))) = answerAt s 3 :=
    d _ 3 (by simp [openRead_eq, ← List.drop_one]) (by simp [openRead_eq])
  have h4 : deviceAnswer (skipByte (skipByte (skipByte (openRead s)))) = answerAt s 4 :=
    d _ 4 (by simp [openRead_eq, ← List.drop_one]) (by simp [openRead_eq])
  have h5 : deviceAnswer (readLen (skipByte (skipByte (skipByte (openRead s))))) = answerAt s 5 :=
    d _ 5 (by simp [openRead_eq, ← List.drop_one]) (by simp [openRead_eq])
  have hg : given s 1 5 = [answerAt s 1, answerAt s 2, answerAt s 3, answerAt s 4, answerAt s 5] := rfl
  rw [hg]
  ext1 <;> simp [h1, h2, h3, h4, h5]
  all_goals simp [openRead_eq, ← List.drop_one]

theorem given_append (s : State) (m k n : Nat) : given s m (k + n) = given s m k ++ given s (m + k) n := by
  induction k generalizing m with
  | zero => simp [given]
  | succ k ih =>
    rw [Nat.succ_add_eq_add_succ, given_succ]
    rw [show k + n.succ = (k + n) + 1 by omega, given_succ, ih (m + 1)]
    simp only [List.cons_append]
    rw [show m + 1 + k = m + (k + 1) by omega]

theorem given_one (s : State) (m : Nat) : given s m 1 = [answerAt s m] := by simp [given]

/-- What stands when the header has been read up to the length checksum: after six exchanges. -/
def headerRead (s : State) : State :=
  { s with
    len := answerAt s 4, lcsr := answerAt s 5, cs := true
    trace := s.trace ++ [.csAssert, .write Config.mRead] ++ (given s 1 5).map .read
    rx := s.rx.drop 6, xfers := s.xfers + 6 }

/-- What stands when the direction byte has been read too: after seven exchanges. -/
def dirRead (s : State) : State :=
  { s with
    len := answerAt s 4, lcsr := answerAt s 5, dirr := answerAt s 6, cs := true
    trace := s.trace ++ [.csAssert, .write Config.mRead] ++ (given s 1 6).map .read
    rx := s.rx.drop 7, xfers := s.xfers + 7 }

/-- What stands when `m` payload bytes and the data checksum have been read: after `m + 8` exchanges. -/
def bodyRead (s : State) (m : Nat) : State :=
  { s with
    len := answerAt s 4 - 1, lcsr := answerAt s 5, dirr := answerAt s 6, cs := true
    csum := Config.dirD2h + sum8 (given s 7 m), idx := BitVec.ofNat 8 m
    pbuf := Memory.writeAll s.pbuf 0 (given s 7 m)
    trace := s.trace ++ [.csAssert, .write Config.mRead] ++ (given s 1 (m + 7)).map .read
    rx := s.rx.drop (m + 8), xfers := s.xfers + (m + 8) }

/-- What stands when the whole frame has been read and the transaction closed: after `m + 9` exchanges. -/
def frameRead (s : State) (m : Nat) : State :=
  { bodyRead s m with
    cs := false, trace := s.trace ++ readEvents (given s 1 (m + 8)), rx := s.rx.drop (m + 9), xfers := s.xfers + (m + 9) }

theorem readDir_headerRead (s : State) : readDir (headerRead s) = dirRead s := by
  have h : deviceAnswer (headerRead s) = answerAt s 6 := by
    rw [deviceAnswer_eq, answerAt_drop (m := 6) (s := s) rfl rfl]
  ext1 <;> simp [h]
  all_goals simp [headerRead, dirRead, given_append s 1 5 1, given_one]

/-- Step 8 fails (44_frame_decoder.md R176). -/
theorem readFrame_badLength {s : State} (h : lengthLaw (answerAt s 4) (answerAt s 5) = false) :
    readFrame s = (some .checksumMismatch, headerRead s) := by
  rw [readFrame, readHeader_eq]
  exact if_neg (by show ¬ lengthLaw (answerAt s 4) (answerAt s 5) = true; simp [h])

theorem readFrame_header {s : State} (h : lengthLaw (answerAt s 4) (answerAt s 5) = true) :
    readFrame s = readDirected (headerRead s) := by
  rw [readFrame, readHeader_eq]
  exact if_pos h

/-- Step 10 fails (44_frame_decoder.md R177). -/
theorem readFrame_badDirection {s : State} (h : lengthLaw (answerAt s 4) (answerAt s 5) = true)
    (hd : answerAt s 6 ≠ Config.dirD2h) : readFrame s = (some .unexpectedDirection, dirRead s) := by
  rw [readFrame_header h, readDirected, readDir_headerRead]
  exact if_neg (by show ¬ decide (answerAt s 6 = Config.dirD2h) = true; simp [hd])

theorem readFrame_directed {s : State} (h : lengthLaw (answerAt s 4) (answerAt s 5) = true)
    (hd : answerAt s 6 = Config.dirD2h) : readFrame s = readCounted (dirRead s) := by
  rw [readFrame_header h, readDirected, readDir_headerRead]
  exact if_pos (by show decide (answerAt s 6 = Config.dirD2h) = true; simp [hd])

/-- Step 11 fails (44_frame_decoder.md R178). -/
theorem readFrame_lenZero {s : State} (h : lengthLaw (answerAt s 4) (answerAt s 5) = true)
    (hd : answerAt s 6 = Config.dirD2h) (h0 : answerAt s 4 = 0) : readFrame s = (some .bufferTooSmall, dirRead s) := by
  rw [readFrame_directed h hd, readCounted]
  exact if_pos h0

/-- Step 13 fails (44_frame_decoder.md R179). -/
theorem readFrame_overCapacity {s : State} (h : lengthLaw (answerAt s 4) (answerAt s 5) = true)
    (hd : answerAt s 6 = Config.dirD2h) (h0 : answerAt s 4 ≠ 0) (hc : s.maxlen.toNat < (answerAt s 4 - 1).toNat) :
    readFrame s = (some .bufferTooSmall, { dirRead s with len := answerAt s 4 - 1 }) := by
  rw [readFrame_directed h hd, readCounted]
  have hc' : overCapacity (dropDir (dirRead s)) = true := by
    show decide (s.maxlen < answerAt s 4 - 1) = true
    simpa [BitVec.lt_def] using hc
  rw [if_neg (show ¬ (dirRead s).len = 0 from h0), if_pos hc']
  rfl

theorem readFrame_counted {s : State} (h : lengthLaw (answerAt s 4) (answerAt s 5) = true)
    (hd : answerAt s 6 = Config.dirD2h) (h0 : answerAt s 4 ≠ 0) (hc : (answerAt s 4 - 1).toNat ≤ s.maxlen.toNat) :
    readFrame s = readBody (seedPayload (dropDir (dirRead s))) := by
  rw [readFrame_directed h hd, readCounted]
  have hc' : ¬ overCapacity (dropDir (dirRead s)) = true := by
    show ¬ decide (s.maxlen < answerAt s 4 - 1) = true
    simpa [BitVec.lt_def] using hc
  rw [if_neg (show ¬ (dirRead s).len = 0 from h0), if_neg hc']

theorem readPayload_dirRead (s : State) {m : Nat} (hm : (answerAt s 4 - 1).toNat = m) :
    (busRead (iter m readPayloadByte (seedPayload (dropDir (dirRead s))))) = (answerAt s (7 + m), bodyRead s m) := by
  have hlt : m < 256 := by have := (answerAt s 4 - 1).isLt; omega
  have hg : given (seedPayload (dropDir (dirRead s))) 0 m = given s 7 m :=
    given_drop (m := 7) (by simp [dirRead]) (by simp [dirRead]) 0 m
  have h0 : (seedPayload (dropDir (dirRead s))).idx.toNat = 0 := rfl
  have ha : deviceAnswer (iter m readPayloadByte (seedPayload (dropDir (dirRead s)))) = answerAt s (7 + m) := by
    rw [deviceAnswer_eq, answerAt_drop (m := 7 + m) (s := s) _ _ 0]
    · rfl
    · rw [iter_readPayloadByte _ _ (by rw [h0]; omega)]; simp [dirRead, List.drop_drop]
    · rw [iter_readPayloadByte _ _ (by rw [h0]; omega)]; simp [dirRead]; omega
  have hgg : given s 1 (m + 7) = given s 1 6 ++ given s 7 m ++ [answerAt s (7 + m)] := by
    rw [show m + 7 = 6 + m + 1 by omega, given_append, given_append, given_one, show 1 + (6 + m) = 7 + m by omega]
  refine Prod.ext ha ?_
  ext1 <;> simp only [busRead_opsel, busRead_timeout, busRead_maxlen, busRead_clen, busRead_busy, busRead_ok, busRead_err,
    busRead_plen, busRead_cs, busRead_csum, busRead_len, busRead_lcsr, busRead_dirr, busRead_statb, busRead_idx,
    busRead_elapsed, busRead_phase, busRead_cbuf, busRead_pbuf, busRead_abuf, busRead_rx, busRead_xfers, busRead_draws,
    busRead_trace, busRead_host, busRead_inbox, ha]
  all_goals rw [iter_readPayloadByte _ _ (by rw [h0]; omega)]
  all_goals simp only [h0, hg]
  all_goals simp [dirRead, bodyRead, hgg, List.drop_drop, ← List.drop_one]
  · omega
  · omega

/-- Step 17 fails (44_frame_decoder.md R181). -/
theorem readFrame_badData {s : State} {m : Nat} (h : lengthLaw (answerAt s 4) (answerAt s 5) = true)
    (hd : answerAt s 6 = Config.dirD2h) (h0 : answerAt s 4 ≠ 0) (hm : (answerAt s 4 - 1).toNat = m)
    (hc : m ≤ s.maxlen.toNat)
    (hp : dataLaw (Config.dirD2h + sum8 (given s 7 m)) (answerAt s (7 + m)) = false) :
    readFrame s = (some .checksumMismatch, bodyRead s m) := by
  rw [readFrame_counted h hd h0 (by omega), readBody]
  rw [show (seedPayload (dropDir (dirRead s))).len.toNat = m from hm, readPayload_dirRead s hm]
  exact if_neg (by
    show ¬ dataLaw (Config.dirD2h + sum8 (given s 7 m)) (answerAt s (7 + m)) = true
    simp [hp])

/-- Every check passes (44_frame_decoder.md R180 to R182). -/
theorem readFrame_good {s : State} {m : Nat} (h : lengthLaw (answerAt s 4) (answerAt s 5) = true)
    (hd : answerAt s 6 = Config.dirD2h) (h0 : answerAt s 4 ≠ 0) (hm : (answerAt s 4 - 1).toNat = m)
    (hc : m ≤ s.maxlen.toNat)
    (hp : dataLaw (Config.dirD2h + sum8 (given s 7 m)) (answerAt s (7 + m)) = true) :
    readFrame s = (none, frameRead s m) := by
  rw [readFrame_counted h hd h0 (by omega), readBody]
  rw [show (seedPayload (dropDir (dirRead s))).len.toNat = m from hm, readPayload_dirRead s hm]
  have hb : payloadLaw (answerAt s (7 + m)) (bodyRead s m) = true := hp
  show (if payloadLaw (answerAt s (7 + m)) (bodyRead s m) = true then _ else _) = _
  rw [if_pos hb]
  refine Prod.ext rfl ?_
  have ha : deviceAnswer (bodyRead s m) = answerAt s (8 + m) := by
    rw [deviceAnswer_eq, answerAt_drop (m := m + 8) (s := s) rfl rfl, Nat.add_zero, Nat.add_comm]
  have hgg : given s 1 (m + 8) = given s 1 (m + 7) ++ [answerAt s (8 + m)] := by
    rw [show m + 8 = m + 7 + 1 by omega, given_append, given_one, show 1 + (m + 7) = 8 + m by omega]
  ext1 <;> simp [ha]
  all_goals simp [frameRead, bodyRead, readEvents, hgg, ← List.drop_one]
  omega

end Sys2Proof.Machine
end

