-- ==== Sys2Proof/Laws/Outcomes.lean ====
section
/-! SUPPORT. Laws/Outcomes.lean: how each operation ends, the state after it written out field by field: one
equation per way of ending. -/

namespace Sys2Proof.Machine

/-! Completion and the failure exit. -/

theorem complete_eq (op : Operation) (s : State) :
    complete op s =
      { s with abuf := if op = .awaitAck then [] else s.abuf, phase := .idle, busy := false } := by
  cases op <;> rfl

/-- The failure exit, field by field (60_exceptions.md R236). -/
theorem raise_eq (op : Operation) (e : ErrKind) (s : State) :
    raise op e s =
      { s with
        ok := false, err := e, cs := false, trace := s.trace ++ if s.cs then [.csRelease] else []
        plen := if op = .receive then 0 else s.plen, pbuf := if op = .receive then [] else s.pbuf
        abuf := if op = .awaitAck then [] else s.abuf, phase := .idle, busy := false } := by
  by_cases h : s.cs = true
  · cases op <;> simp only [raise, csReleaseIfAsserted, h] <;> rfl
  · have h' : s.cs = false := by simpa using h
    cases op <;> simp only [raise, csReleaseIfAsserted, h'] <;> ext1 <;>
      simp [complete, forgetAck, failReceive, fail, h']

/-- Steps 8 to 10 of AWAIT_ACK, the transaction closed (43_ack_handshake.md R158). -/
theorem judgeAck_eq {s : State} (h : s.cs = false) :
    judgeAck s =
      { s with
        ok := ackMatches s, err := if ackMatches s then .none else .handshakeMismatch
        abuf := [], phase := .idle, busy := false } := by
  by_cases ha : ackMatches s = true
  · rw [judgeAck, if_pos ha, complete_eq, ha]; rfl
  · rw [judgeAck, if_neg ha, raise_eq]
    simp only [Bool.not_eq_true] at ha
    ext1 <;> simp [ha, h]

/-- A frame that passed every check (44_frame_decoder.md R171 steps 20 and 21). -/
theorem judgeFrame_good (s : State) :
    judgeFrame (none, s) = { s with plen := s.len, ok := true, err := .none, phase := .idle, busy := false } := rfl

theorem judgeFrame_bad (e : ErrKind) (s : State) : judgeFrame (some e, s) = raise .receive e s := rfl

/-! The operations. -/

/-- What a wait of `s` leaves that probe `k` ends. -/
abbrev readyState (s : State) (k : Nat) : State := waited (clearElapsed s) (k + 1) k

/-- What a wait of `s` leaves that no probe ends. -/
abbrev timedOutState (s : State) : State := waited (clearElapsed s) (probeBudget s) (probeBudget s)

theorem waitReady_ready {s : State} {k : Nat} (h : readyAtProbe s k) :
    waitReady s = { readyState s k with ok := true, err := .none, phase := .idle, busy := false } := by
  rw [waitReady, pollReady_ready h]; rfl

theorem waitReady_never {s : State} (h : neverReady s) :
    waitReady s = { timedOutState s with ok := false, err := .timeout, phase := .idle, busy := false } := by
  rw [waitReady, pollReady_never h]; rfl

theorem encodeSend_eq {s : State} (h : s.clen.toNat ≤ 254) :
    ∃ bs d, bs.length = s.clen.toNat ∧ (∀ j (hj : j < bs.length) b, Memory.read s.cbuf j = some b → bs[j] = b) ∧
      (specified s.cbuf s.clen.toNat → d = s.draws) ∧
      encodeSend s = { sendFrame bs s with draws := d, ok := true, err := .none, phase := .idle, busy := false } := by
  obtain ⟨bs, d, hl, hb, hd, he⟩ := sendCommand_eq h
  refine ⟨bs, d, hl, hb, hd, ?_⟩
  rw [encodeSend, he, sendFrame_eq]
  rfl

theorem awaitAck_ready {s : State} {k : Nat} (h : readyAtProbe s k) :
    awaitAck s = judgeAck (readAck (readyState s k)) := by
  simp only [awaitAck, pollReady_ready h, if_true]

theorem awaitAck_never {s : State} (h : neverReady s) :
    awaitAck s = { timedOutState s with ok := false, err := .timeout, abuf := [], phase := .idle, busy := false } := by
  simp only [awaitAck, pollReady_never h]
  rw [if_neg (by simp), raise_eq]
  ext1 <;> simp [waited]

theorem receive_ready {s : State} {k : Nat} (h : readyAtProbe s k) :
    receive s = judgeFrame (readFrame (readyState s k)) := by
  simp only [receive, pollReady_ready h, if_true]

theorem receive_never {s : State} (h : neverReady s) :
    receive s =
      { timedOutState s with
        ok := false, err := .timeout, plen := 0, pbuf := [], phase := .idle, busy := false } := by
  simp only [receive, pollReady_never h]
  rw [if_neg (by simp), raise_eq]
  ext1 <;> simp [waited]

/-- After a wait of `k + 1` probes the device's answers are those from exchange `2 k + 2` on. -/
theorem answerAt_readyState (s : State) (k n : Nat) : answerAt (readyState s k) n = answerAt s (2 * (k + 1) + n) :=
  answerAt_drop (s := s) rfl rfl n

theorem given_readyState (s : State) (k m n : Nat) : given (readyState s k) m n = given s (2 * (k + 1) + m) n :=
  given_drop (s := s) rfl rfl m n

theorem headerPasses_iff (s : State) :
    headerPasses s = true ↔ answerAt s 4 + answerAt s 5 = 0 ∧ answerAt s 6 = Config.dirD2h ∧ answerAt s 4 ≠ 0 ∧
      (answerAt s 4).toNat ≤ s.maxlen.toNat + 1 := decide_eq_true_iff

theorem toNat_sub_one {b : Byte} (h : b ≠ 0) : (b - 1).toNat = b.toNat - 1 ∧ 0 < b.toNat := by
  have h0 : b.toNat ≠ 0 := fun h' => h (BitVec.eq_of_toNat_eq h')
  have h1 : (1 : BitVec 8).toNat = 1 := rfl
  have := b.isLt
  rw [BitVec.toNat_sub, h1]
  omega

theorem payloadReads_le (s : State) : payloadReads s ≤ s.maxlen.toNat := by
  unfold payloadReads
  split
  · next h => have := (headerPasses_iff s).1 h; omega
  · omega

theorem frameReads_bounds (s : State) : 5 ≤ frameReads s ∧ frameReads s ≤ payloadReads s + 8 := by
  unfold frameReads
  split
  · omega
  split
  · omega
  split <;> omega

/-- Everything one reading of a response frame does: the bytes it reads and those of them it puts into `PBUF` are
counted by `frameReads` and `payloadReads`; an error kind with chip-select still asserted or none with the transaction
closed (44_frame_decoder.md R171 to R184). -/
theorem readFrame_exact (s : State) :
    ∃ e u, readFrame s = (e, u) ∧ (e = none → u.len.toNat = payloadReads s) ∧
      (e = none ∨ e = some .checksumMismatch ∨ e = some .unexpectedDirection ∨ e = some .bufferTooSmall) ∧
      u = { s with
        len := u.len, lcsr := u.lcsr, dirr := u.dirr, csum := u.csum, idx := u.idx, cs := e.isSome
        pbuf := Memory.writeAll s.pbuf 0 (given s 7 (payloadReads s))
        trace := s.trace ++ ([.csAssert, .write Config.mRead] ++ (given s 1 (frameReads s)).map .read ++
          if e.isSome then [] else [.csRelease])
        rx := s.rx.drop (frameReads s + 1), xfers := s.xfers + (frameReads s + 1) } := by
  by_cases h : lengthLaw (answerAt s 4) (answerAt s 5) = true
  case neg =>
    have hz : answerAt s 4 + answerAt s 5 ≠ 0 := by simpa [lengthLaw] using h
    have hn : frameReads s = 5 := by rw [frameReads, if_pos hz]
    have hp : payloadReads s = 0 := by rw [payloadReads, if_neg (by rw [headerPasses_iff]; exact fun h => hz h.1)]
    refine ⟨_, _, readFrame_badLength (by simpa using h), by simp, by simp, ?_⟩
    rw [hn, hp]
    ext1 <;> simp [headerRead, given, Memory.writeAll]
  have hz : answerAt s 4 + answerAt s 5 = 0 := by simpa [lengthLaw] using h
  by_cases hh : headerPasses s = true
  case neg =>
    have hn : frameReads s = 6 := by rw [frameReads, if_neg (by simpa using hz), if_pos (by simpa using hh)]
    have hp : payloadReads s = 0 := by rw [payloadReads, if_neg hh]
    rw [headerPasses_iff] at hh
    by_cases hd : answerAt s 6 = Config.dirD2h
    case neg =>
      refine ⟨_, _, readFrame_badDirection h hd, by simp, by simp, ?_⟩
      rw [hn, hp]
      ext1 <;> simp [dirRead, given, Memory.writeAll]
    by_cases h0 : answerAt s 4 = 0
    · refine ⟨_, _, readFrame_lenZero h hd h0, by simp, by simp, ?_⟩
      rw [hn, hp]
      ext1 <;> simp [dirRead, given, Memory.writeAll]
    · have hc : s.maxlen.toNat < (answerAt s 4 - 1).toNat := by
        have := toNat_sub_one h0
        by_contra hc
        exact hh ⟨hz, hd, h0, by omega⟩
      refine ⟨_, _, readFrame_overCapacity h hd h0 hc, by simp, by simp, ?_⟩
      rw [hn, hp]
      ext1 <;> simp [dirRead, given, Memory.writeAll]
  obtain ⟨_, hd, h0, hc⟩ := (headerPasses_iff s).1 hh
  have hs := toNat_sub_one h0
  have hm : (answerAt s 4 - 1).toNat = payloadReads s := by rw [payloadReads, if_pos hh]; exact hs.1
  have hle := payloadReads_le s
  by_cases hp : dataLaw (Config.dirD2h + sum8 (given s 7 (payloadReads s))) (answerAt s (7 + payloadReads s)) = true
  · have hn : frameReads s = payloadReads s + 8 := by
      rw [frameReads, if_neg (by simpa using hz), if_neg (by simp [hh]), if_neg (by simpa [dataLaw] using hp)]
    refine ⟨_, _, readFrame_good h hd h0 hm hle hp, fun _ => hm, by simp, ?_⟩
    rw [hn]
    ext1
    case trace => simp only [frameRead, readEvents]; rfl
    all_goals simp [frameRead, bodyRead]
  · have hn : frameReads s = payloadReads s + 7 := by
      rw [frameReads, if_neg (by simpa using hz), if_neg (by simp [hh]), if_pos (by simpa [dataLaw] using hp)]
    refine ⟨_, _, readFrame_badData h hd h0 hm hle (by simpa using hp), by simp, by simp, ?_⟩
    rw [hn]
    ext1
    case trace => simp only [bodyRead, List.append_assoc]; simp
    all_goals simp [bodyRead]

/-- The same with the two counts bounded only. -/
theorem readFrame_cases (s : State) :
    ∃ n m e u, readFrame s = (e, u) ∧ 5 ≤ n ∧ n ≤ s.maxlen.toNat + 8 ∧ m ≤ s.maxlen.toNat ∧
      (e = none → u.len.toNat = m) ∧
      (e = none ∨ e = some .checksumMismatch ∨ e = some .unexpectedDirection ∨ e = some .bufferTooSmall) ∧
      u = { s with
        len := u.len, lcsr := u.lcsr, dirr := u.dirr, csum := u.csum, idx := u.idx, cs := e.isSome
        pbuf := Memory.writeAll s.pbuf 0 (given s 7 m)
        trace := s.trace ++ ([.csAssert, .write Config.mRead] ++ (given s 1 n).map .read ++
          if e.isSome then [] else [.csRelease])
        rx := s.rx.drop (n + 1), xfers := s.xfers + (n + 1) } := by
  obtain ⟨e, u, h⟩ := readFrame_exact s
  have h1 := frameReads_bounds s
  have h2 := payloadReads_le s
  exact ⟨frameReads s, payloadReads s, e, u, h.1, h1.1, by omega, h2, h.2⟩

/-- A frame no encoder makes has no payload to send (30_encoding.md R91). -/
theorem hostPayload_eq_none {len lcs : Byte} {body : List Byte} (h : sentByNoHost len lcs body) :
    hostPayload len lcs body = none := by
  cases hp : hostPayload len lcs body with
  | none => rfl
  | some p => exact absurd (hostPayload_eq_some hp).1 (h p (hostPayload_eq_some hp).2)

end Sys2Proof.Machine
end

