-- ==== Sys2Proof/Laws/Trace.lean ====
section
/-! SUPPORT. Laws/Trace.lean: whole transactions and whole waits keep a trace well shaped (20_memory.md R85), and
the invariant of a state at rest. -/

namespace Sys2Proof.Machine

theorem busAfter_append (st : Option BusState) (xs ys : List Event) :
    busAfter st (xs ++ ys) = busAfter (busAfter st xs) ys := by
  induction xs generalizing st with
  | nil => rfl
  | cons e es ih => exact ih _

/-- The shape of a trace that goes on. -/
theorem traceState_append {xs ys : List Event} {b : BusState} (h : traceState xs = some b) :
    traceState (xs ++ ys) = busAfter (some b) ys := by
  rw [traceState, busAfter_append]
  exact congrArg (busAfter · ys) h

theorem busAfter_writes (bs : List Byte) : busAfter (some .marked) (bs.map .write) = some .marked := by
  induction bs with
  | nil => rfl
  | cons b bs ih => exact ih

theorem busAfter_reads (bs : List Byte) : busAfter (some .marked) (bs.map .read) = some .marked := by
  induction bs with
  | nil => rfl
  | cons b bs ih => exact ih

/-- A data-write transaction (20_memory.md R73). -/
theorem busAfter_writeEvents (bs : List Byte) : busAfter (some .released) (writeEvents bs) = some .released := by
  rw [writeEvents, busAfter_append, busAfter_append]
  show busAfter (busAfter (some .marked) _) _ = _
  rw [busAfter_writes]; rfl

/-- A data-read transaction up to its last byte. -/
theorem busAfter_openReads (bs : List Byte) :
    busAfter (some .released) ([.csAssert, .write Config.mRead] ++ bs.map .read) = some .marked := by
  rw [busAfter_append]
  exact busAfter_reads bs

/-- A data-read transaction (20_memory.md R74). -/
theorem busAfter_readEvents (bs : List Byte) : busAfter (some .released) (readEvents bs) = some .released := by
  rw [readEvents, busAfter_append, busAfter_openReads]; rfl

theorem busAfter_probeEvents (b : Byte) : busAfter (some .released) (probeEvents b) = some .released := rfl

/-- A wait (41_ready_poller.md R133). -/
theorem busAfter_waitEvents (bs : List Byte) : busAfter (some .released) (waitEvents bs) = some .released := by
  induction bs with
  | nil => rfl
  | cons b bs ih =>
    cases bs with
    | nil => rfl
    | cons c cs =>
      rw [waitEvents_cons _ (by simp), busAfter_append]
      exact ih

/-! The invariant at rest. -/

/-- What the invariant says of a state at rest. -/
theorem inv_of_rest {s : State} (hr : atRest s) (ht : traceState s.trace = some .released)
    (hc : Memory.wf Config.cmdMax s.cbuf = true) (hp : Memory.wf Config.rxCap s.pbuf = true)
    (ha : Memory.wf Config.ackSize s.abuf = true) (ho : s.ok = true → s.err = .none)
    (hl : s.plen.toNat ≤ Config.rxCap ∧ specified s.pbuf s.plen.toNat) : Inv s := by
  obtain ⟨hb, hi, hs⟩ := hr
  constructor
  case busy_iff => simp [hb, hi]
  case shaped => rw [hi]; exact ht
  case selected_iff => simp [hs, hi, Phase.bus]
  case operands => rw [hi]; trivial
  case waiting => rw [hi]; trivial
  case walking => rw [hi]; trivial
  all_goals assumption

/-- A state of the invariant that is not busy is at rest, between transactions (10_state.md R28). -/
theorem Inv.rest {s : State} (h : Inv s) (hb : s.busy = false) :
    atRest s ∧ traceState s.trace = some .released := by
  have hi : s.phase = .idle := by
    by_contra hne
    have := h.busy_iff.2 hne
    simp [hb] at this
  have hs := h.selected_iff
  have ht := h.shaped
  rw [hi] at hs ht
  refine ⟨⟨hb, hi, ?_⟩, ht⟩
  simpa [Phase.bus] using hs

theorem wf_writeAll_zero {cap : Nat} {m : Memory} (bytes : List Byte) (h : Memory.wf cap m = true)
    (hl : bytes.length ≤ cap) : Memory.wf cap (Memory.writeAll m 0 bytes) = true :=
  Memory.wf_writeAll bytes h (by omega)

theorem specified_writeAll {m : Memory} {n : Nat} (i : Nat) (bytes : List Byte) (h : specified m n) :
    specified (Memory.writeAll m i bytes) n := by
  induction bytes generalizing m i with
  | nil => exact h
  | cons b bs ih => exact ih (i + 1) (specified_write i b h)

theorem specified_writeAll_zero (m : Memory) (bytes : List Byte) :
    specified (Memory.writeAll m 0 bytes) bytes.length := by
  intro i hi
  have := Memory.read_writeAll bytes m 0 hi
  rw [Nat.zero_add] at this
  rw [this]; rfl

end Sys2Proof.Machine
end

