-- ==== Sys2Proof/Laws/Invariant.lean ====
section
/-! SUPPORT. Laws/Invariant.lean: how the invariant passes over one numbered step, and over one whole operation. -/

namespace Sys2Proof.Machine

/-- A numbered step that does not end its operation and writes no result register and no buffer keeps the invariant
if its events lead from where the bus stood to where the next phase says it stands, and the next phase's own
conditions hold. -/
theorem Inv.advance {s t : State} (h : Inv s) (hb : t.busy = true) (hi : t.phase ≠ .idle) (events : List Event)
    (ht : t.trace = s.trace ++ events) (hs : busAfter (some s.phase.bus) events = some t.phase.bus)
    (hc : t.cs = true ↔ t.phase.bus ≠ .released) (ho : operandsHeld t.phase t) (hw : waitCount t.phase t)
    (hk : payloadWalk t.phase t) (h1 : t.cbuf = s.cbuf) (h2 : t.pbuf = s.pbuf) (h3 : t.abuf = s.abuf)
    (h4 : t.ok = s.ok) (h5 : t.err = s.err) (h6 : t.plen = s.plen) : Inv t := by
  constructor
  case busy_iff => simp [hb, hi]
  case shaped => rw [ht, traceState_append h.shaped, hs]
  case selected_iff => exact hc
  case operands => exact ho
  case waiting => exact hw
  case walking => exact hk
  case cbuf_wf => rw [h1]; exact h.cbuf_wf
  case pbuf_wf => rw [h2]; exact h.pbuf_wf
  case abuf_wf => rw [h3]; exact h.abuf_wf
  case ok_err => rw [h4, h5]; exact h.ok_err
  case payload => rw [h2, h6]; exact h.payload

/-- The invariant does not look at the device, the host, the schedule, the free values or the working registers of a
block at rest. -/
theorem Inv.of_same {s t : State} (h : Inv s) (hb : s.busy = false) (h0 : sequencerKept s t) (h1 : t.cs = s.cs)
    (h2 : t.trace = s.trace) (h3 : t.cbuf = s.cbuf) (h4 : t.pbuf = s.pbuf) (h5 : t.abuf = s.abuf) (h6 : t.ok = s.ok)
    (h7 : t.err = s.err) (h8 : t.plen = s.plen) : Inv t := by
  obtain ⟨⟨r1, r2, r3⟩, ht⟩ := h.rest hb
  refine inv_of_rest ⟨h0.1.trans r1, h0.2.trans r2, h1.trans r3⟩ (by rw [h2]; exact ht) ?_ ?_ ?_ ?_ ?_
  · rw [h3]; exact h.cbuf_wf
  · rw [h4]; exact h.pbuf_wf
  · rw [h5]; exact h.abuf_wf
  · rw [h6, h7]; exact h.ok_err
  · rw [h4, h8]; exact h.payload

theorem inv_raise {s : State} (h : Inv s) (op : Operation) (e : ErrKind) (hcs : s.cs = true → s.phase.bus = .marked) :
    Inv (raise op e s) := by
  rw [raise_eq]
  refine inv_of_rest ⟨rfl, rfl, rfl⟩ ?_ h.cbuf_wf ?_ ?_ (by simp) ?_
  · rw [traceState_append h.shaped]
    by_cases hc : s.cs = true
    · rw [hcs hc]; simp only [hc]; rfl
    · have : s.phase.bus = .released := by
        by_contra hn; exact hc (h.selected_iff.2 hn)
      simp only [hc, this]; rfl
  · by_cases ho : op = .receive <;> simp only [ho] <;> simp [h.pbuf_wf, Memory.wf_nil]
  · by_cases ho : op = .awaitAck <;> simp only [ho] <;> simp [h.abuf_wf, Memory.wf_nil]
  · by_cases ho : op = .receive <;> simp only [ho]
    · exact ⟨by simp, specified_zero _⟩
    · simpa using h.payload

theorem Inv.advance' {s t : State} (h : Inv s) (hb : t.busy = true) (hi : t.phase ≠ .idle) (events : List Event)
    (ht : t.trace = s.trace ++ events) (hs : busAfter (some s.phase.bus) events = some t.phase.bus)
    (hc : t.cs = true ↔ t.phase.bus ≠ .released) (ho : operandsHeld t.phase t) (hw : waitCount t.phase t)
    (hk : payloadWalk t.phase t) (h1 : t.cbuf = s.cbuf) (h2 : Memory.wf Config.rxCap t.pbuf = true)
    (h3 : Memory.wf Config.ackSize t.abuf = true) (h4 : t.ok = true → t.err = .none)
    (h6 : t.plen.toNat ≤ Config.rxCap ∧ specified t.pbuf t.plen.toNat) : Inv t := by
  constructor
  case busy_iff => simp [hb, hi]
  case shaped => rw [ht, traceState_append h.shaped, hs]
  case selected_iff => exact hc
  case operands => exact ho
  case waiting => exact hw
  case walking => exact hk
  case cbuf_wf => rw [h1]; exact h.cbuf_wf
  all_goals assumption

theorem Inv.isBusy {s : State} (h : Inv s) (hp : s.phase ≠ .idle) : s.busy = true := h.busy_iff.2 hp

theorem operandsHeld_poll {p : Poller} {k : PollStep} {s : State} (h : operandsHeld (.poll p k) s) :
    (∀ j t, t.maxlen = s.maxlen → operandsHeld (.poll p j) t) ∧
      (∀ r t, t.maxlen = s.maxlen → operandsHeld (.polled p r) t) := by
  cases p with
  | receive =>
    exact ⟨fun j t ht => by simpa [operandsHeld, maxlenLegal, ht] using h,
      fun j t ht => by simpa [operandsHeld, maxlenLegal, ht] using h⟩
  | _ => exact ⟨fun _ _ _ => trivial, fun _ _ _ => trivial⟩

theorem Inv.goTo' {s u : State} {p : Phase} (h : Inv s) (hb : u.busy = true) (hi : p ≠ .idle) (events : List Event)
    (ht : u.trace = s.trace ++ events) (hs : busAfter (some s.phase.bus) events = some p.bus)
    (hc : u.cs = decide (p.bus ≠ .released)) (ho : operandsHeld p u) (hw : waitCount p u) (hk : payloadWalk p u)
    (h1 : u.cbuf = s.cbuf) (h2 : Memory.wf Config.rxCap u.pbuf = true) (h3 : Memory.wf Config.ackSize u.abuf = true)
    (h4 : u.ok = true → u.err = .none) (h6 : u.plen.toNat ≤ Config.rxCap ∧ specified u.pbuf u.plen.toNat) :
    Inv (goTo p u) := by
  refine h.advance' (t := goTo p u) hb hi events ht hs ?_ ?_ ?_ ?_ h1 h2 h3 h4 h6
  · show u.cs = true ↔ p.bus ≠ .released
    rw [hc]; simp
  · cases p <;> try exact ho
    next q k => cases q <;> exact ho
    next q k => cases q <;> exact ho
  · cases p <;> try exact hw
    next q k => cases k <;> exact hw
  · cases p <;> try exact hk
    next k => cases k <;> exact hk

theorem Inv.goTo {s u : State} {p : Phase} (h : Inv s) (hb : u.busy = true) (hi : p ≠ .idle) (events : List Event)
    (ht : u.trace = s.trace ++ events) (hs : busAfter (some s.phase.bus) events = some p.bus)
    (hc : u.cs = decide (p.bus ≠ .released)) (ho : operandsHeld p u) (hw : waitCount p u) (hk : payloadWalk p u)
    (h1 : u.cbuf = s.cbuf) (h2 : u.pbuf = s.pbuf) (h3 : u.abuf = s.abuf) (h4 : u.ok = s.ok) (h5 : u.err = s.err)
    (h6 : u.plen = s.plen) : Inv (goTo p u) :=
  h.goTo' hb hi events ht hs hc ho hw hk h1 (by rw [h2]; exact h.pbuf_wf) (by rw [h3]; exact h.abuf_wf)
    (by rw [h4, h5]; exact h.ok_err) (by rw [h2, h6]; exact h.payload)

theorem Inv.cs_eq {s : State} (h : Inv s) {p : Phase} (hp : s.phase = p) : s.cs = decide (p.bus ≠ .released) := by
  have := h.selected_iff
  rw [hp] at this
  cases hc : s.cs
  · simpa [hc] using this
  · simpa [hc] using this

theorem poll_inv {s : State} {p : Poller} {k : PollStep} (h : Inv s) (hp : s.phase = .poll p k) :
    Inv (pollStep p k s) := by
  have hb := h.isBusy (by rw [hp]; simp)
  have ho := operandsHeld_poll (hp ▸ h.operands)
  have hw : waitCount (.poll p k) s := hp ▸ h.waiting
  have hcs := h.cs_eq hp
  cases k with
  | p1 =>
    exact h.advance hb (by simp [pollStep]) [] (by simp [pollStep]) (by rw [hp]; rfl)
      (by simp [pollStep, hcs, Phase.bus]) (ho.1 _ _ rfl) ⟨rfl, Nat.zero_le _⟩ trivial rfl rfl rfl rfl rfl rfl
  | p2a =>
    exact h.goTo (p := .poll p .p2b) (u := csAssert s) (by simpa using hb) (by simp) [.csAssert] (by simp) (by rw [hp]; rfl)
      (by simp [Phase.bus]) (ho.1 _ _ (by simp)) (by simpa [waitCount] using hw) trivial (by simp) (by simp) (by simp) (by simp)
      (by simp) (by simp)
  | p2b =>
    exact h.goTo (p := .poll p .p2c) (u := busWrite Config.mStatus s) (by simpa using hb) (by simp) [.write Config.mStatus] (by simp) (by rw [hp]; rfl)
      (by simp [hcs, Phase.bus]) (ho.1 _ _ (by simp)) (by simpa [waitCount] using hw) trivial (by simp) (by simp) (by simp) (by simp)
      (by simp) (by simp)
  | p2c =>
    exact h.goTo (p := .poll p .p2d) (u := readStatus s) (by simpa using hb) (by simp) [.read (deviceAnswer s)] (by simp) (by rw [hp]; rfl)
      (by simp [hcs, Phase.bus]) (ho.1 _ _ (by simp)) (by simpa [waitCount] using hw) trivial (by simp) (by simp) (by simp) (by simp)
      (by simp) (by simp)
  | p2d =>
    exact h.goTo (p := .poll p .p3) (u := csRelease s) (by simpa using hb) (by simp) [.csRelease] (by simp) (by rw [hp]; rfl)
      (by simp [Phase.bus]) (ho.1 _ _ (by simp)) (by simpa [waitCount] using hw) trivial (by simp) (by simp) (by simp) (by simp)
      (by simp) (by simp)
  | p3 =>
    by_cases hr : ready s = true
    · simp only [pollStep, hr, if_true]
      exact h.advance hb (by simp) [] (by simp) (by rw [hp]; rfl) (by simp [hcs, Phase.bus]) (ho.2 _ _ rfl)
        trivial trivial rfl rfl rfl rfl rfl rfl
    · simp only [pollStep, hr]
      exact h.advance hb (by simp) [] (by simp) (by rw [hp]; rfl) (by simp [hcs, Phase.bus]) (ho.1 _ _ rfl)
        hw trivial rfl rfl rfl rfl rfl rfl
  | p4 =>
    refine h.advance hb (by simp [pollStep]) [] (by simp [pollStep]) (by rw [hp]; rfl)
      (by simp [pollStep, hcs, Phase.bus]) (ho.1 _ _ rfl) ?_ trivial rfl rfl rfl rfl rfl rfl
    have hw : s.elapsed.toNat % 10 = 0 ∧ s.elapsed.toNat ≤ s.timeout.toNat := hw
    have := addInterval_toNat hw.2
    show (addInterval s).elapsed.toNat % 10 = 0 ∧ (addInterval s).elapsed.toNat ≤ s.timeout.toNat + 10
    omega
  | p5 =>
    by_cases hr : timedOut s = true
    · simp only [pollStep, hr, if_true]
      exact h.advance hb (by simp) [] (by simp) (by rw [hp]; rfl) (by simp [hcs, Phase.bus]) (ho.2 _ _ rfl)
        trivial trivial rfl rfl rfl rfl rfl rfl
    · simp only [pollStep, hr]
      refine h.advance hb (by simp) [] (by simp) (by rw [hp]; rfl) (by simp [hcs, Phase.bus]) (ho.1 _ _ rfl)
        ?_ trivial rfl rfl rfl rfl rfl rfl
      have hw : s.elapsed.toNat % 10 = 0 ∧ s.elapsed.toNat ≤ s.timeout.toNat + 10 := hw
      rw [timedOut_iff] at hr
      exact ⟨hw.1, Nat.not_lt.1 hr⟩
  | p6 =>
    exact h.advance hb (by simp [pollStep]) [.delay 10] (by simp [pollStep]; rfl) (by rw [hp]; rfl)
      (by simp [pollStep, hcs, Phase.bus]) (ho.1 _ _ rfl) hw trivial rfl rfl rfl rfl rfl rfl
  | p7 =>
    exact h.advance hb (by simp [pollStep]) [] (by simp [pollStep]) (by rw [hp]; rfl)
      (by simp [pollStep, hcs, Phase.bus]) (ho.1 _ _ rfl) hw trivial rfl rfl rfl rfl rfl rfl

theorem polled_inv {s : State} {p : Poller} {r : Bool} (h : Inv s) (hp : s.phase = .polled p r) :
    Inv (polledStep p r s) := by
  have hb := h.isBusy (by rw [hp]; simp)
  have ho : operandsHeld (.polled p r) s := hp ▸ h.operands
  have hc := h.selected_iff
  rw [hp] at hc
  have hcs : s.cs = false := by simpa [Phase.bus] using hc
  cases p with
  | waitReady =>
    cases r <;> exact h.advance' hb (by simp [polledStep]) [] (by simp [polledStep, recordPoll]) (by rw [hp]; rfl)
      (by simp [polledStep, recordPoll, hcs, Phase.bus]) trivial trivial trivial rfl h.pbuf_wf h.abuf_wf
      (by simp [polledStep, recordPoll]) h.payload
  | awaitAck =>
    cases r
    · exact inv_raise h _ _ (by simp [hcs])
    · exact h.advance hb (by simp [polledStep]) [] (by simp [polledStep]) (by rw [hp]; rfl)
        (by simp [polledStep, hcs, Phase.bus]) trivial trivial trivial rfl rfl rfl rfl rfl rfl
  | receive =>
    cases r
    · exact inv_raise h _ _ (by simp [hcs])
    · exact h.advance hb (by simp [polledStep]) [] (by simp [polledStep]) (by rw [hp]; rfl)
        (by simp [polledStep, hcs, Phase.bus]) ho trivial trivial rfl rfl rfl rfl rfl rfl

theorem inv_complete {s : State} (h : Inv s) (op : Operation) (hr : s.phase.bus = .released) :
    Inv (complete op s) := by
  have hcs : s.cs = false := by
    by_contra hn; exact h.selected_iff.1 (by simpa using hn) hr
  rw [complete_eq]
  refine inv_of_rest ⟨rfl, rfl, hcs⟩ (by show traceState s.trace = _; rw [h.shaped, hr])
    h.cbuf_wf h.pbuf_wf ?_ h.ok_err h.payload
  by_cases ho : op = .awaitAck <;> simp only [ho] <;> simp [h.abuf_wf, Memory.wf_nil]

theorem encode_inv {s : State} {k : EncodeStep} (h : Inv s) (hp : s.phase = .encode k) : Inv (encodeStep k s) := by
  have hb := h.isBusy (by rw [hp]; simp)
  have ho : clenLegal s = true := by have := h.operands; rw [hp] at this; exact this
  have hc := h.cs_eq hp
  cases k with
  | e1 =>
    exact h.goTo (by simpa using hb) (by simp) [] (by simp) (by rw [hp]; rfl) (by simp [hc, Phase.bus])
      ho trivial trivial (by simp) (by simp) (by simp) (by simp) (by simp) (by simp)
  | e2 =>
    exact h.goTo (by simpa using hb) (by simp) [.csAssert] (by simp) (by rw [hp]; rfl) (by simp [Phase.bus])
      ho trivial trivial (by simp) (by simp) (by simp) (by simp) (by simp) (by simp)
  | e3 =>
    exact h.goTo (by simpa using hb) (by simp) [.settle] (by simp) (by rw [hp]; rfl) (by simp [hc, Phase.bus])
      ho trivial trivial (by simp) (by simp) (by simp) (by simp) (by simp) (by simp)
  | e4 =>
    exact h.goTo (by simpa using hb) (by simp) [.write Config.mWrite] (by simp) (by rw [hp]; rfl)
      (by simp [hc, Phase.bus]) ho trivial trivial (by simp) (by simp) (by simp) (by simp) (by simp) (by simp)
  | e5 =>
    exact h.goTo (by simpa using hb) (by simp) [.write Config.preamble] (by simp) (by rw [hp]; rfl)
      (by simp [hc, Phase.bus]) ho trivial trivial (by simp) (by simp) (by simp) (by simp) (by simp) (by simp)
  | e6 =>
    exact h.goTo (by simpa using hb) (by simp) [.write Config.start1] (by simp) (by rw [hp]; rfl)
      (by simp [hc, Phase.bus]) ho trivial trivial (by simp) (by simp) (by simp) (by simp) (by simp) (by simp)
  | e7 =>
    exact h.goTo (by simpa using hb) (by simp) [.write Config.start2] (by simp) (by rw [hp]; rfl)
      (by simp [hc, Phase.bus]) ho trivial trivial (by simp) (by simp) (by simp) (by simp) (by simp) (by simp)
  | e8 =>
    exact h.goTo (by simpa using hb) (by simp) [.write s.len] (by simp) (by rw [hp]; rfl) (by simp [hc, Phase.bus])
      ho trivial trivial (by simp) (by simp) (by simp) (by simp) (by simp) (by simp)
  | e9 =>
    exact h.goTo (by simpa using hb) (by simp) [.write (lcsOf s.len)] (by simp) (by rw [hp]; rfl)
      (by simp [hc, Phase.bus]) ho trivial trivial (by simp) (by simp) (by simp) (by simp) (by simp) (by simp)
  | e10 =>
    exact h.goTo (by simpa using hb) (by simp) [.write Config.dirH2d] (by simp) (by rw [hp]; rfl)
      (by simp [hc, Phase.bus]) ho trivial trivial (by simp) (by simp) (by simp) (by simp) (by simp) (by simp)
  | e11 =>
    exact h.goTo (by simpa using hb) (by simp) [] (by simp) (by rw [hp]; rfl) (by simp [hc, Phase.bus])
      ho trivial trivial (by simp) (by simp) (by simp) (by simp) (by simp) (by simp)
  | e13 =>
    exact h.goTo (by simpa using hb) (by simp) [.write (neg8 s.csum)] (by simp) (by rw [hp]; rfl)
      (by simp [hc, Phase.bus]) ho trivial trivial (by simp) (by simp) (by simp) (by simp) (by simp) (by simp)
  | e14 =>
    exact h.goTo (by simpa using hb) (by simp) [.write Config.postamble] (by simp) (by rw [hp]; rfl)
      (by simp [hc, Phase.bus]) ho trivial trivial (by simp) (by simp) (by simp) (by simp) (by simp) (by simp)
  | e15 =>
    exact h.goTo (by simpa using hb) (by simp) [.csRelease] (by simp) (by rw [hp]; rfl) (by simp [Phase.bus])
      ho trivial trivial (by simp) (by simp) (by simp) (by simp) (by simp) (by simp)
  | e12 =>
    by_cases hi : s.idx < s.clen
    · simp only [encodeStep, hi, if_true]
      obtain ⟨d, hd⟩ := memRead_state s.cbuf s.idx.toNat s
      have e : sendFromCbuf s = { sendByte (memRead s.cbuf s.idx.toNat s).1 s with draws := d } := by
        simp only [sendFromCbuf, hd]; rfl
      rw [e]
      exact h.goTo (by simpa using hb) (by simp) [.write (memRead s.cbuf s.idx.toNat s).1] (by simp) (by rw [hp]; rfl)
        (by simp [hc, Phase.bus]) ho trivial trivial (by simp) (by simp) (by simp) (by simp) (by simp) (by simp)
    · simp only [encodeStep, hi]
      exact h.goTo (by simpa using hb) (by simp) [] (by simp) (by rw [hp]; rfl) (by simp [hc, Phase.bus])
        ho trivial trivial (by simp) (by simp) (by simp) (by simp) (by simp) (by simp)
  | e16 =>
    exact h.goTo' (by simpa using hb) (by simp) [] (by simp) (by rw [hp]; rfl) (by simp [hc, Phase.bus])
      ho trivial trivial rfl h.pbuf_wf h.abuf_wf (fun _ => rfl) h.payload
  | e17 => exact inv_complete h _ (by rw [hp]; rfl)

theorem ack_inv {s : State} {k : AckStep} (h : Inv s) (hp : s.phase = .ack k) : Inv (ackStep k s) := by
  have hb := h.isBusy (by rw [hp]; simp)
  have hc := h.cs_eq hp
  cases k with
  | a3 =>
    exact h.goTo (by simpa using hb) (by simp) [.csAssert] (by simp) (by rw [hp]; rfl) (by simp [Phase.bus])
      trivial trivial trivial (by simp) (by simp) (by simp) (by simp) (by simp) (by simp)
  | a4 =>
    exact h.goTo (by simpa using hb) (by simp) [.write Config.mRead] (by simp) (by rw [hp]; rfl)
      (by simp [hc, Phase.bus]) trivial trivial trivial (by simp) (by simp) (by simp) (by simp) (by simp) (by simp)
  | a5 =>
    exact h.goTo (by simpa using hb) (by simp) [] (by simp) (by rw [hp]; rfl) (by simp [hc, Phase.bus])
      trivial trivial trivial (by simp) (by simp) (by simp) (by simp) (by simp) (by simp)
  | a7 =>
    exact h.goTo (by simpa using hb) (by simp) [.csRelease] (by simp) (by rw [hp]; rfl) (by simp [Phase.bus])
      trivial trivial trivial (by simp) (by simp) (by simp) (by simp) (by simp) (by simp)
  | a6 =>
    by_cases hi : s.idx.toNat < Config.ackSize
    · simp only [ackStep, hi, if_true]
      exact h.goTo' (by simpa using hb) (by simp) [.read (deviceAnswer s)] (by simp) (by rw [hp]; rfl)
        (by simp [hc, Phase.bus]) trivial trivial trivial (by simp) (by simpa using h.pbuf_wf)
        (by simpa using Memory.wf_write _ h.abuf_wf hi) (by simpa using h.ok_err) (by simpa using h.payload)
    · simp only [ackStep, hi]
      exact h.goTo (by simpa using hb) (by simp) [] (by simp) (by rw [hp]; rfl) (by simp [hc, Phase.bus])
        trivial trivial trivial (by simp) (by simp) (by simp) (by simp) (by simp) (by simp)
  | a8 =>
    by_cases hi : ackMatches s = true
    · simp only [ackStep, hi, if_true]
      exact h.goTo (by simpa using hb) (by simp) [] (by simp) (by rw [hp]; rfl) (by simp [hc, Phase.bus])
        trivial trivial trivial (by simp) (by simp) (by simp) (by simp) (by simp) (by simp)
    · simp only [ackStep, hi]
      exact inv_raise h _ _ (by simp [hc, Phase.bus])
  | a9 =>
    exact h.goTo' (by simpa using hb) (by simp) [] (by simp) (by rw [hp]; rfl) (by simp [hc, Phase.bus])
      trivial trivial trivial rfl h.pbuf_wf h.abuf_wf (fun _ => rfl) h.payload
  | a10 => exact inv_complete h _ (by rw [hp]; rfl)

theorem receive_inv {s : State} {k : ReceiveStep} (h : Inv s) (hp : s.phase = .receive k) :
    Inv (receiveStep k s) := by
  have hb := h.isBusy (by rw [hp]; simp)
  have ho : maxlenLegal s = true := by have := h.operands; rw [hp] at this; exact this
  have hm := (maxlenLegal_iff s).1 ho
  have hc := h.cs_eq hp
  have hk := h.walking
  rw [hp] at hk
  have hrx : Config.rxCap = 254 := rfl
  cases k with
  | r3 =>
    exact h.goTo (by simpa using hb) (by simp) [.csAssert] (by simp) (by rw [hp]; rfl) (by simp [Phase.bus])
      ho trivial trivial (by simp) (by simp) (by simp) (by simp) (by simp) (by simp)
  | r4 =>
    exact h.goTo (by simpa using hb) (by simp) [.write Config.mRead] (by simp) (by rw [hp]; rfl)
      (by simp [hc, Phase.bus]) ho trivial trivial (by simp) (by simp) (by simp) (by simp) (by simp) (by simp)
  | r5a =>
    exact h.goTo (by simpa using hb) (by simp) [.read (deviceAnswer s)] (by simp) (by rw [hp]; rfl)
      (by simp [hc, Phase.bus]) ho trivial trivial (by simp) (by simp) (by simp) (by simp) (by simp) (by simp)
  | r5b =>
    exact h.goTo (by simpa using hb) (by simp) [.read (deviceAnswer s)] (by simp) (by rw [hp]; rfl)
      (by simp [hc, Phase.bus]) ho trivial trivial (by simp) (by simp) (by simp) (by simp) (by simp) (by simp)
  | r5c =>
    exact h.goTo (by simpa using hb) (by simp) [.read (deviceAnswer s)] (by simp) (by rw [hp]; rfl)
      (by simp [hc, Phase.bus]) ho trivial trivial (by simp) (by simp) (by simp) (by simp) (by simp) (by simp)
  | r6 =>
    exact h.goTo (by simpa using hb) (by simp) [.read (deviceAnswer s)] (by simp) (by rw [hp]; rfl)
      (by simp [hc, Phase.bus]) ho trivial trivial (by simp) (by simp) (by simp) (by simp) (by simp) (by simp)
  | r7 =>
    exact h.goTo (by simpa using hb) (by simp) [.read (deviceAnswer s)] (by simp) (by rw [hp]; rfl)
      (by simp [hc, Phase.bus]) ho trivial trivial (by simp) (by simp) (by simp) (by simp) (by simp) (by simp)
  | r9 =>
    exact h.goTo (by simpa using hb) (by simp) [.read (deviceAnswer s)] (by simp) (by rw [hp]; rfl)
      (by simp [hc, Phase.bus]) ho trivial trivial (by simp) (by simp) (by simp) (by simp) (by simp) (by simp)
  | r12 =>
    exact h.goTo (by simpa using hb) (by simp) [] (by simp) (by rw [hp]; rfl) (by simp [hc, Phase.bus])
      ho trivial trivial (by simp) (by simp) (by simp) (by simp) (by simp) (by simp)
  | r16 =>
    exact h.goTo (by simpa using hb) (by simp) [.read (deviceAnswer s)] (by simp) (by rw [hp]; rfl)
      (by simp [hc, Phase.bus]) ho trivial hk (by simp) (by simp) (by simp) (by simp) (by simp) (by simp)
  | r18 =>
    exact h.goTo (by simpa using hb) (by simp) [.read (deviceAnswer s)] (by simp) (by rw [hp]; rfl)
      (by simp [hc, Phase.bus]) ho trivial hk (by simp) (by simp) (by simp) (by simp) (by simp) (by simp)
  | r19 =>
    exact h.goTo (by simpa using hb) (by simp) [.csRelease] (by simp) (by rw [hp]; rfl) (by simp [Phase.bus])
      ho trivial hk (by simp) (by simp) (by simp) (by simp) (by simp) (by simp)
  | r14 =>
    exact h.goTo (by simpa using hb) (by simp) [] (by simp) (by rw [hp]; rfl) (by simp [hc, Phase.bus]) ho trivial
      ⟨Nat.zero_le _, hk, specified_zero _⟩ (by simp) (by simp) (by simp) (by simp) (by simp) (by simp)
  | r8 =>
    by_cases hi : headerLaw s = true
    · simp only [receiveStep, hi, if_true]
      exact h.goTo (by simpa using hb) (by simp) [] (by simp) (by rw [hp]; rfl) (by simp [hc, Phase.bus])
        ho trivial trivial (by simp) (by simp) (by simp) (by simp) (by simp) (by simp)
    · simp only [receiveStep, hi]
      exact inv_raise h _ _ (fun _ => by rw [hp]; rfl)
  | r10 =>
    by_cases hi : fromDevice s = true
    · simp only [receiveStep, hi, if_true]
      exact h.goTo (by simpa using hb) (by simp) [] (by simp) (by rw [hp]; rfl) (by simp [hc, Phase.bus])
        ho trivial trivial (by simp) (by simp) (by simp) (by simp) (by simp) (by simp)
    · simp only [receiveStep, hi]
      exact inv_raise h _ _ (fun _ => by rw [hp]; rfl)
  | r11 =>
    by_cases hi : s.len = 0
    · simp only [receiveStep, hi, if_true]
      exact inv_raise h _ _ (fun _ => by rw [hp]; rfl)
    · simp only [receiveStep, hi]
      exact h.goTo (by simpa using hb) (by simp) [] (by simp) (by rw [hp]; rfl) (by simp [hc, Phase.bus])
        ho trivial trivial (by simp) (by simp) (by simp) (by simp) (by simp) (by simp)
  | r13 =>
    by_cases hi : overCapacity s = true
    · simp only [receiveStep, hi, if_true]
      exact inv_raise h _ _ (fun _ => by rw [hp]; rfl)
    · simp only [receiveStep, hi]
      refine h.goTo (by simpa using hb) (by simp) [] (by simp) (by rw [hp]; rfl) (by simp [hc, Phase.bus])
        ho trivial ?_ (by simp) (by simp) (by simp) (by simp) (by simp) (by simp)
      show s.len.toNat ≤ s.maxlen.toNat
      simpa [overCapacity, BitVec.lt_def] using hi
  | r17 c =>
    by_cases hi : payloadLaw c s = true
    · simp only [receiveStep, hi, if_true]
      exact h.goTo (by simpa using hb) (by simp) [] (by simp) (by rw [hp]; rfl) (by simp [hc, Phase.bus])
        ho trivial hk (by simp) (by simp) (by simp) (by simp) (by simp) (by simp)
    · simp only [receiveStep, hi]
      exact inv_raise h _ _ (fun _ => by rw [hp]; rfl)
  | r15 =>
    obtain ⟨k1, k2, k3⟩ : s.idx.toNat ≤ s.len.toNat ∧ s.len.toNat ≤ s.maxlen.toNat ∧
      specified s.pbuf s.idx.toNat := hk
    by_cases hi : s.idx < s.len
    · simp only [receiveStep, hi, if_true]
      have hi' : s.idx.toNat < s.len.toNat := by simpa [BitVec.lt_def] using hi
      have hs : (s.idx + 1).toNat = s.idx.toNat + 1 := by
        have h1 : (1 : BitVec 8).toNat = 1 := rfl
        rw [BitVec.toNat_add, h1]; have := s.len.isLt; omega
      refine h.goTo' (by simpa using hb) (by simp) [.read (deviceAnswer s)] (by simp) (by rw [hp]; rfl)
        (by simp [hc, Phase.bus]) ho trivial ⟨?_, k2, ?_⟩ (by simp) (Memory.wf_write _ h.pbuf_wf (by omega))
        (by simpa using h.abuf_wf) (by simpa using h.ok_err) ⟨h.payload.1, specified_write _ _ h.payload.2⟩
      · show (s.idx + 1).toNat ≤ s.len.toNat
        omega
      · show specified (Memory.write s.pbuf s.idx.toNat (deviceAnswer s)) (s.idx + 1).toNat
        rw [hs]; exact specified_write_succ _ k3
    · simp only [receiveStep, hi]
      have hi' : s.len.toNat ≤ s.idx.toNat := by simpa [BitVec.lt_def] using hi
      refine h.goTo (by simpa using hb) (by simp) [] (by simp) (by rw [hp]; rfl) (by simp [hc, Phase.bus]) ho trivial
        ⟨k2, ?_⟩ (by simp) (by simp) (by simp) (by simp) (by simp) (by simp)
      have : s.idx.toNat = s.len.toNat := by omega
      rw [← this]; exact k3
  | r20 =>
    have hk : s.len.toNat ≤ s.maxlen.toNat ∧ specified s.pbuf s.len.toNat := hk
    exact h.goTo' (by simpa using hb) (by simp) [] (by simp) (by rw [hp]; rfl) (by simp [hc, Phase.bus])
      ho trivial trivial rfl h.pbuf_wf h.abuf_wf (fun _ => rfl) ⟨by show s.len.toNat ≤ Config.rxCap; omega, hk.2⟩
  | r21 => exact inv_complete h _ (by rw [hp]; rfl)

theorem seqStep_inv {s : State} (h : Inv s) : Inv (seqStep s) := by
  cases hp : s.phase with
  | idle => simpa only [seqStep, hp] using h
  | poll p k => simpa only [seqStep, hp] using poll_inv h hp
  | polled p r => simpa only [seqStep, hp] using polled_inv h hp
  | waitReady3 => simpa only [seqStep, hp] using inv_complete h .waitReady (by rw [hp]; rfl)
  | encode k => simpa only [seqStep, hp] using encode_inv h hp
  | ack k => simpa only [seqStep, hp] using ack_inv h hp
  | receive k => simpa only [seqStep, hp] using receive_inv h hp

end Sys2Proof.Machine
end

