-- ==== Sys2Proof/Laws/Kept.lean ====
section
/-! SUPPORT. Laws/Kept.lean: what a guarded meaning was guarded by, and what no operation of the block writes. -/

namespace Sys2Proof.Machine

theorem whenIdle_next {s t : State} {k} (h : whenIdle s k = .next t) : s.busy = false ∧ k = .next t := by
  by_cases hb : s.busy = true
  · simp [whenIdle, hb] at h
  · simp only [whenIdle, hb] at h; exact ⟨by simpa using hb, h⟩

theorem whenClenLegal_next {s t : State} {k} (h : whenClenLegal s k = .next t) :
    s.clen.toNat ≤ 254 ∧ k = .next t := by
  by_cases hb : clenLegal s = true
  · simp only [whenClenLegal, hb] at h; exact ⟨(clenLegal_iff s).1 hb, h⟩
  · simp [whenClenLegal, hb] at h

theorem whenMaxlenLegal_next {s t : State} {k} (h : whenMaxlenLegal s k = .next t) :
    s.maxlen.toNat ≤ 254 ∧ k = .next t := by
  by_cases hb : maxlenLegal s = true
  · simp only [whenMaxlenLegal, hb] at h; exact ⟨(maxlenLegal_iff s).1 hb, h⟩
  · simp [whenMaxlenLegal, hb] at h

theorem whenIdle_of_idle {s : State} {k} (hb : s.busy = false) : whenIdle s k = k := by simp [whenIdle, hb]

/-- No numbered step writes an operand register or `CBUF`, and none rewrites the trace (10_state.md R29). -/
theorem seqStep_kept (s : State) :
    (seqStep s).opsel = s.opsel ∧ (seqStep s).timeout = s.timeout ∧ (seqStep s).maxlen = s.maxlen ∧
      (seqStep s).clen = s.clen ∧ (seqStep s).cbuf = s.cbuf ∧ s.trace <+: (seqStep s).trace := by
  have sfc : (sendFromCbuf s).opsel = s.opsel ∧ (sendFromCbuf s).timeout = s.timeout ∧
    (sendFromCbuf s).maxlen = s.maxlen ∧ (sendFromCbuf s).clen = s.clen ∧ (sendFromCbuf s).cbuf = s.cbuf ∧ s.trace <+:
    (sendFromCbuf s).trace := by
    obtain ⟨d, hd⟩ := memRead_state s.cbuf s.idx.toNat s
    simp only [sendFromCbuf, hd]; simp
  cases hp : s.phase with
  | idle => simp [seqStep, hp]
  | poll p k => cases k <;> simp [seqStep, hp, pollStep]
  | polled p r => cases p <;> cases r <;> simp [seqStep, hp, polledStep, recordPoll, raise_eq]
  | waitReady3 => simp [seqStep, hp, complete_eq]
  | encode k =>
    cases k <;> simp [seqStep, hp, encodeStep, complete_eq]
    split <;> simp [sfc]
  | ack k =>
    cases k <;> simp [seqStep, hp, ackStep, complete_eq]
    all_goals (split <;> simp [raise_eq])
  | receive k =>
    cases k <;> simp [seqStep, hp, receiveStep, complete_eq]
    all_goals (split <;> simp [raise_eq])

/-- The operands are as they were and the trace has only grown. -/
structure Keeps (s t : State) : Prop where
  opsel : t.opsel = s.opsel
  timeout : t.timeout = s.timeout
  maxlen : t.maxlen = s.maxlen
  clen : t.clen = s.clen
  cbuf : t.cbuf = s.cbuf
  trace : s.trace <+: t.trace

theorem Keeps.operands {s t : State} (h : Keeps s t) : operandsKept s t :=
  ⟨h.opsel, h.timeout, h.maxlen, h.clen, fun i => by rw [h.cbuf]⟩

theorem Keeps.trans {s t u : State} (h : Keeps s t) (k : Keeps t u) : Keeps s u :=
  ⟨k.opsel.trans h.opsel, k.timeout.trans h.timeout, k.maxlen.trans h.maxlen, k.clen.trans h.clen,
    k.cbuf.trans h.cbuf,
    h.trace.trans k.trace⟩

theorem waitReady_keeps (s : State) : Keeps s (waitReady s) := by
  rcases ready_or_never s with ⟨k, hk⟩ | hk
  · rw [waitReady_ready hk]; exact ⟨rfl, rfl, rfl, rfl, rfl, List.prefix_append _ _⟩
  · rw [waitReady_never hk]; exact ⟨rfl, rfl, rfl, rfl, rfl, List.prefix_append _ _⟩

theorem sendFrame_keeps (bs : List Byte) (s : State) : Keeps s (sendFrame bs s) := by
  rw [sendFrame_eq]; exact ⟨rfl, rfl, rfl, rfl, rfl, List.prefix_append _ _⟩

theorem complete_keeps (op : Operation) (s : State) : Keeps s (complete op s) := by
  rw [complete_eq]; exact ⟨rfl, rfl, rfl, rfl, rfl, List.prefix_rfl⟩

theorem raise_keeps (op : Operation) (e) (s : State) : Keeps s (raise op e s) := by
  rw [raise_eq]; exact ⟨rfl, rfl, rfl, rfl, rfl, List.prefix_append _ _⟩

theorem succeed_keeps (s : State) : Keeps s (succeed s) := ⟨rfl, rfl, rfl, rfl, rfl, List.prefix_rfl⟩

theorem sendCommand_keeps {s : State} (hc : s.clen.toNat ≤ 254) : Keeps s (sendCommand s) := by
  obtain ⟨bs, d, _, _, _, he⟩ := sendCommand_eq hc
  rw [he, sendFrame_eq]; exact ⟨rfl, rfl, rfl, rfl, rfl, List.prefix_append _ _⟩

theorem readAck_keeps (s : State) : Keeps s (readAck s) := by
  rw [readAck_eq]; exact ⟨rfl, rfl, rfl, rfl, rfl, List.prefix_append _ _⟩

theorem judgeAck_keeps (s : State) : Keeps s (judgeAck s) := by
  unfold judgeAck; split
  · exact (succeed_keeps s).trans (complete_keeps _ _)
  · exact raise_keeps _ _ _

theorem readyState_keeps (s : State) (k) : Keeps s (readyState s k) :=
  ⟨rfl, rfl, rfl, rfl, rfl, List.prefix_append _ _⟩

theorem awaitAck_keeps (s : State) : Keeps s (awaitAck s) := by
  rcases ready_or_never s with ⟨k, hk⟩ | hk
  · rw [awaitAck_ready hk]; exact (readyState_keeps s k).trans ((readAck_keeps _).trans (judgeAck_keeps _))
  · rw [awaitAck_never hk]; exact ⟨rfl, rfl, rfl, rfl, rfl, List.prefix_append _ _⟩

theorem readFrame_keeps (s : State) : Keeps s (readFrame s).2 := by
  obtain ⟨n, m, e, u, he, hn1, hn2, hm', hl, hk', hu⟩ := readFrame_cases s
  rw [he, hu]; exact ⟨rfl, rfl, rfl, rfl, rfl, List.prefix_append _ _⟩

theorem judgeFrame_keeps (x : Option ErrKind × State) : Keeps x.2 (judgeFrame x) := by
  obtain ⟨_ | e, u⟩ := x
  · exact ⟨rfl, rfl, rfl, rfl, rfl, List.prefix_rfl⟩
  · exact raise_keeps _ _ _

theorem receive_keeps (s : State) : Keeps s (receive s) := by
  rcases ready_or_never s with ⟨k, hk⟩ | hk
  · rw [receive_ready hk]; exact (readyState_keeps s k).trans ((readFrame_keeps _).trans (judgeFrame_keeps _))
  · rw [receive_never hk]; exact ⟨rfl, rfl, rfl, rfl, rfl, List.prefix_append _ _⟩

theorem statusProbe_keeps (s : State) : Keeps s (statusProbe s) := by
  rw [statusProbe_eq]; exact ⟨rfl, rfl, rfl, rfl, rfl, List.prefix_append _ _⟩

theorem csReleaseIfAsserted_keeps (s : State) : Keeps s (csReleaseIfAsserted s) := by
  unfold csReleaseIfAsserted; split
  · exact ⟨rfl, rfl, rfl, rfl, rfl, List.prefix_append _ _⟩
  · exact ⟨rfl, rfl, rfl, rfl, rfl, List.prefix_rfl⟩

theorem frameJudged_keeps (frame : List Byte) (s : State) : Keeps s (frameJudged frame s) := by
  have h0 : Keeps s (withAnswers frame s) := ⟨rfl, rfl, rfl, rfl, rfl, List.prefix_rfl⟩
  obtain ⟨a, b, c, d, e, f⟩ := (h0.trans (readFrame_keeps _)).trans (judgeFrame_keeps _)
  exact ⟨a, b, c, d, e, f⟩

theorem encodeSend_keeps {s : State} (hc : s.clen.toNat ≤ 254) : Keeps s (encodeSend s) :=
  (sendCommand_keeps hc).trans ((succeed_keeps _).trans (complete_keeps _ _))

end Sys2Proof.Machine
end

