-- ==== Sys2Proof/Laws/InvariantOps.lean ====
section
/-! SUPPORT. Laws/InvariantOps.lean: each whole operation, each transaction and each part of a host sequence keeps
the invariant of a state at rest. -/

namespace Sys2Proof.Machine

theorem waitReady_inv {s : State} (h : Inv s) (hb : s.busy = false) : Inv (waitReady s) := by
  obtain ⟨⟨r1, r2, r3⟩, ht⟩ := h.rest hb
  rcases ready_or_never s with ⟨k, hk⟩ | hk
  · rw [waitReady_ready hk]
    exact inv_of_rest ⟨rfl, rfl, rfl⟩
      (by simp only [waited, clearElapsed_trace]; rw [traceState_append ht, busAfter_waitEvents])
      h.cbuf_wf h.pbuf_wf h.abuf_wf (fun _ => rfl) h.payload
  · rw [waitReady_never hk]
    exact inv_of_rest ⟨rfl, rfl, rfl⟩
      (by simp only [waited, clearElapsed_trace]; rw [traceState_append ht, busAfter_waitEvents])
      h.cbuf_wf h.pbuf_wf h.abuf_wf (by simp) h.payload

theorem sendFrame_inv {s : State} (h : Inv s) (hb : s.busy = false) (bs : List Byte) : Inv (sendFrame bs s) := by
  obtain ⟨⟨r1, r2, r3⟩, ht⟩ := h.rest hb
  rw [sendFrame_eq]
  exact inv_of_rest ⟨r1, r2, rfl⟩ (by simp only; rw [traceState_append ht, busAfter_writeEvents])
    h.cbuf_wf h.pbuf_wf h.abuf_wf h.ok_err h.payload

theorem succeed_inv {s : State} (h : Inv s) (hb : s.busy = false) (op : Operation) :
    Inv (complete op (succeed s)) := by
  obtain ⟨⟨r1, r2, r3⟩, ht⟩ := h.rest hb
  rw [complete_eq]
  refine inv_of_rest ⟨rfl, rfl, r3⟩ ht h.cbuf_wf h.pbuf_wf ?_ (fun _ => rfl) h.payload
  by_cases ho : op = .awaitAck <;> simp only [ho] <;> simp [h.abuf_wf, Memory.wf_nil]

theorem sendCommand_inv {s : State} (h : Inv s) (hb : s.busy = false) (hc : s.clen.toNat ≤ 254) :
    Inv (sendCommand s) := by
  obtain ⟨bs, d, _, _, _, he⟩ := sendCommand_eq hc
  rw [he]
  have := sendFrame_inv h hb bs
  exact this.of_same (by rw [sendFrame_eq]; exact hb) ⟨rfl, rfl⟩ rfl rfl rfl rfl rfl rfl rfl rfl

theorem sendCommand_busy {s : State} (hc : s.clen.toNat ≤ 254) : (sendCommand s).busy = s.busy := by
  obtain ⟨bs, d, _, _, _, he⟩ := sendCommand_eq hc
  rw [he, sendFrame_eq]

theorem encodeSend_inv {s : State} (h : Inv s) (hb : s.busy = false) (hc : s.clen.toNat ≤ 254) : Inv (encodeSend s) :=
  succeed_inv (sendCommand_inv h hb hc) (by rw [sendCommand_busy hc]; exact hb) _

theorem readAck_inv {s : State} (h : Inv s) (hb : s.busy = false) : Inv (readAck s) := by
  obtain ⟨⟨r1, r2, r3⟩, ht⟩ := h.rest hb
  rw [readAck_eq]
  exact inv_of_rest ⟨r1, r2, rfl⟩ (by simp only; rw [traceState_append ht, busAfter_readEvents]) h.cbuf_wf h.pbuf_wf
    (wf_writeAll_zero _ h.abuf_wf (by simp [Config.ackSize])) h.ok_err h.payload

theorem judgeAck_inv {s : State} (h : Inv s) (hb : s.busy = false) : Inv (judgeAck s) := by
  obtain ⟨⟨r1, r2, r3⟩, ht⟩ := h.rest hb
  rw [judgeAck_eq r3]
  exact inv_of_rest ⟨rfl, rfl, r3⟩ ht h.cbuf_wf h.pbuf_wf rfl (fun hh => by simp [show ackMatches s = true from hh])
    h.payload

theorem readyState_inv {s : State} (h : Inv s) (hb : s.busy = false) (k : Nat) : Inv (readyState s k) := by
  obtain ⟨⟨r1, r2, r3⟩, ht⟩ := h.rest hb
  exact inv_of_rest ⟨r1, r2, rfl⟩
    (by simp only [waited, clearElapsed_trace]; rw [traceState_append ht, busAfter_waitEvents])
    h.cbuf_wf h.pbuf_wf h.abuf_wf h.ok_err h.payload

theorem awaitAck_inv {s : State} (h : Inv s) (hb : s.busy = false) : Inv (awaitAck s) := by
  obtain ⟨⟨r1, r2, r3⟩, ht⟩ := h.rest hb
  rcases ready_or_never s with ⟨k, hk⟩ | hk
  · rw [awaitAck_ready hk]
    exact judgeAck_inv (readAck_inv (readyState_inv h hb k) hb) (by rw [readAck_eq]; exact hb)
  · rw [awaitAck_never hk]
    exact inv_of_rest ⟨rfl, rfl, rfl⟩
      (by simp only [waited, clearElapsed_trace]; rw [traceState_append ht, busAfter_waitEvents])
      h.cbuf_wf h.pbuf_wf rfl (by simp) h.payload

theorem judgeFrame_inv {s : State} (h : Inv s) (hb : s.busy = false) (hm : s.maxlen.toNat ≤ 254) :
    Inv (judgeFrame (readFrame s)) := by
  obtain ⟨⟨r1, r2, r3⟩, ht⟩ := h.rest hb
  obtain ⟨n, m, e, u, he, hn1, hn2, hm', hl, hk', hu⟩ := readFrame_cases s
  have hrx : Config.rxCap = 254 := rfl
  rw [he]
  cases e with
  | none =>
    have hl := hl rfl
    rw [judgeFrame_good, hu]
    refine inv_of_rest ⟨rfl, rfl, rfl⟩ ?_ h.cbuf_wf (wf_writeAll_zero _ h.pbuf_wf (by simp; omega)) h.abuf_wf
      (fun _ => rfl) ⟨?_, ?_⟩
    · show traceState (s.trace ++ readEvents (given s 1 n)) = _
      rw [traceState_append ht, busAfter_readEvents]
    · show u.len.toNat ≤ _; omega
    · show specified (Memory.writeAll s.pbuf 0 (given s 7 m)) u.len.toNat
      have := specified_writeAll_zero s.pbuf (given s 7 m)
      rw [given_length] at this
      rw [hl]; exact this
  | some e =>
    rw [judgeFrame_bad, raise_eq, hu]
    refine inv_of_rest ⟨rfl, rfl, rfl⟩ ?_ h.cbuf_wf rfl h.abuf_wf (by simp) ⟨by simp, specified_zero _⟩
    show traceState (s.trace ++ (_ ++ []) ++ [.csRelease]) = _
    rw [List.append_nil, List.append_assoc, traceState_append ht, busAfter_append, busAfter_openReads]; rfl

theorem frameJudged_inv {s : State} (h : Inv s) (hb : s.busy = false) (hm : s.maxlen.toNat ≤ 254)
    (frame : List Byte) : Inv (frameJudged frame s) := by
  have h1 : Inv (withAnswers frame s) := h.of_same hb ⟨rfl, rfl⟩ rfl rfl rfl rfl rfl rfl rfl rfl
  refine (judgeFrame_inv h1 hb hm).of_same ?_ ⟨rfl, rfl⟩ rfl rfl rfl rfl rfl rfl rfl rfl
  rcases readFrame (withAnswers frame s) with ⟨_ | e, u⟩
  · rfl
  · rw [judgeFrame_bad, raise_eq]

theorem receive_inv_whole {s : State} (h : Inv s) (hb : s.busy = false) (hm : s.maxlen.toNat ≤ 254) :
    Inv (receive s) := by
  obtain ⟨⟨r1, r2, r3⟩, ht⟩ := h.rest hb
  rcases ready_or_never s with ⟨k, hk⟩ | hk
  · rw [receive_ready hk]
    exact judgeFrame_inv (readyState_inv h hb k) hb hm
  · rw [receive_never hk]
    exact inv_of_rest ⟨rfl, rfl, rfl⟩
      (by simp only [waited, clearElapsed_trace]; rw [traceState_append ht, busAfter_waitEvents])
      h.cbuf_wf rfl h.abuf_wf (by simp) ⟨by simp, specified_zero _⟩

theorem statusProbe_inv {s : State} (h : Inv s) (hb : s.busy = false) : Inv (statusProbe s) := by
  obtain ⟨⟨r1, r2, r3⟩, ht⟩ := h.rest hb
  rw [statusProbe_eq]
  exact inv_of_rest ⟨r1, r2, rfl⟩ (by simp only; rw [traceState_append ht, busAfter_probeEvents])
    h.cbuf_wf h.pbuf_wf h.abuf_wf h.ok_err h.payload

theorem dataRead_inv {s : State} (h : Inv s) (hb : s.busy = false) (op : Operation)
    (hm : op = .receive → s.maxlen.toNat ≤ 254) : Inv (dataRead op s) := by
  obtain ⟨⟨r1, r2, r3⟩, ht⟩ := h.rest hb
  have e : Inv (csRelease (openRead s)) := by
    rw [openRead_eq]
    refine inv_of_rest ⟨r1, r2, rfl⟩ ?_ h.cbuf_wf h.pbuf_wf h.abuf_wf h.ok_err h.payload
    show traceState (s.trace ++ [.csAssert, .write Config.mRead] ++ [.csRelease]) = _
    rw [List.append_assoc, traceState_append ht]; rfl
  cases op with
  | waitReady => exact e
  | encodeSend => exact e
  | awaitAck => exact readAck_inv h hb
  | receive =>
    obtain ⟨n, m, e, u, he, hn1, hn2, hm', hl, hk', hu⟩ := readFrame_cases s
    have hm := hm rfl
    have hrx : Config.rxCap = 254 := rfl
    have hc : csReleaseIfAsserted u = { u with cs := false, trace := s.trace ++ readEvents (given s 1 n) } := by
      cases e with
      | none => rw [hu]; ext1 <;> simp [csReleaseIfAsserted, readEvents]
      | some e => rw [hu]; ext1 <;> simp [csReleaseIfAsserted, readEvents]
    rw [dataRead, he, hc, hu]
    exact inv_of_rest ⟨r1, r2, rfl⟩ (by simp only; rw [traceState_append ht, busAfter_readEvents]) h.cbuf_wf
      (wf_writeAll_zero _ h.pbuf_wf (by simp; omega)) h.abuf_wf h.ok_err
      ⟨h.payload.1, specified_writeAll _ _ h.payload.2⟩

theorem loadCommand_inv {s : State} (h : Inv s) (hb : s.busy = false) (cmd : List Byte) (hl : cmd.length ≤ 254) :
    Inv (loadCommand cmd s) := by
  obtain ⟨⟨r1, r2, r3⟩, ht⟩ := h.rest hb
  exact inv_of_rest ⟨r1, r2, r3⟩ ht (wf_writeAll_zero _ h.cbuf_wf hl) h.pbuf_wf h.abuf_wf h.ok_err h.payload

theorem Inv.host {s : State} (h : Inv s) (hb : s.busy = false) (x : Session) : Inv { s with host := x } :=
  h.of_same hb ⟨rfl, rfl⟩ rfl rfl rfl rfl rfl rfl rfl rfl

theorem awaitAck_busy (s : State) : (awaitAck s).busy = false := by
  rcases ready_or_never s with ⟨k, hk⟩ | hk
  · rw [awaitAck_ready hk, judgeAck_eq (by rw [readAck_eq])]
  · rw [awaitAck_never hk]

theorem receive_busy (s : State) : (receive s).busy = false := by
  rcases ready_or_never s with ⟨k, hk⟩ | hk
  · rw [receive_ready hk]
    rcases h : readFrame (readyState s k) with ⟨_ | e, u⟩
    · rfl
    · rw [judgeFrame_bad, raise_eq]
  · rw [receive_never hk]

theorem sendAndAwait_inv {s : State} (h : Inv s) (hb : s.busy = false) (cmd : List Byte) (hl : cmd.length ≤ 254) :
    Inv (sendAndAwait cmd s) ∧ (sendAndAwait cmd s).busy = false := by
  have h1 := loadCommand_inv h hb cmd hl
  have hc : (loadCommand cmd s).clen.toNat ≤ 254 := by
    show (BitVec.ofNat 8 cmd.length).toNat ≤ 254
    simp; omega
  have h2 := encodeSend_inv h1 hb hc
  have h3 : Inv (loadAck (encodeSend (loadCommand cmd s))) := h2.of_same rfl ⟨rfl, rfl⟩
    rfl rfl rfl rfl rfl rfl rfl rfl
  exact ⟨awaitAck_inv h3 rfl, awaitAck_busy _⟩

theorem exchange_inv {s t : State} {cmd m e} (h : Inv s) (hb : s.busy = false) (hl : cmd.length ≤ 254)
    (he : exchange cmd m s = .ok (e, t)) : Inv t ∧ t.busy = false := by
  obtain ⟨h1, h2⟩ := sendAndAwait_inv h hb cmd hl
  simp only [exchange] at he
  split at he
  · cases he; exact ⟨h1, h2⟩
  split at he
  · next hm =>
    cases he
    have h3 : Inv (loadReceive m (sendAndAwait cmd s)) := h1.of_same h2 ⟨rfl, rfl⟩ rfl rfl rfl rfl rfl rfl rfl rfl
    exact ⟨receive_inv_whole h3 h2 ((maxlenLegal_iff _).1 hm), receive_busy _⟩
  · cases he

theorem memRead_inv {s : State} (h : Inv s) (hb : s.busy = false) (m : Memory) (i : Nat) :
    Inv (memRead m i s).2 ∧ (memRead m i s).2.busy = false := by
  obtain ⟨d, hd⟩ := memRead_state m i s
  rw [hd]
  exact ⟨h.of_same hb ⟨rfl, rfl⟩ rfl rfl rfl rfl rfl rfl rfl rfl, hb⟩

theorem payloadBytes_inv {s : State} (h : Inv s) (hb : s.busy = false) (i n : Nat) :
    Inv (payloadBytes i n s).2 ∧ (payloadBytes i n s).2.busy = false := by
  induction n generalizing i s with
  | zero => exact ⟨h, hb⟩
  | succ n ih =>
    obtain ⟨h1, h2⟩ := memRead_inv h hb s.pbuf i
    exact ih h1 h2 (i + 1)

theorem readVersion_inv {s t : State} (h : Inv s) (hb : s.busy = false) (he : readVersion s = .next t) : Inv t := by
  simp only [readVersion] at he
  split at he
  · cases he
  · cases he
    obtain ⟨h1, h2⟩ := payloadBytes_inv h hb 1 4
    exact h1.host h2 _

theorem readIdentifier_inv {s t : State} (h : Inv s) (hb : s.busy = false) (he : readIdentifier s = .next t) :
    Inv t := by
  simp only [readIdentifier] at he
  split at he
  · cases he
  split at he
  · cases he
  split at he
  · cases he
  · cases he
    obtain ⟨h0, h00⟩ := memRead_inv h hb s.pbuf 6
    obtain ⟨h1, h2⟩ := payloadBytes_inv h0 h00 7 (payloadByte 6 s).1.toNat
    exact h1.host h2 _

theorem readTargetCount_inv {s t : State} (h : Inv s) (hb : s.busy = false) (he : readTargetCount s = .next t) :
    Inv t := by
  simp only [readTargetCount] at he
  obtain ⟨h0, h00⟩ := memRead_inv h hb s.pbuf 1
  split at he
  · cases he
  split at he
  · exact readIdentifier_inv h0 h00 he
  · cases he; exact h0.host h00 _

theorem readTarget_inv {s t : State} (h : Inv s) (hb : s.busy = false) (he : readTarget s = .next t) : Inv t := by
  simp only [readTarget] at he
  obtain ⟨h0, h00⟩ := memRead_inv h hb s.pbuf 0
  split at he
  · cases he
  split at he
  · exact readTargetCount_inv h0 h00 he
  · cases he; exact h0.host h00 _

theorem Inv.outside {s t : State} (h : Inv s) (e : t = { s with host := t.host, draws := t.draws, inbox :=
  t.inbox }) : Inv t := by
  rw [e]
  refine ⟨h.busy_iff, h.shaped, h.selected_iff, ?_, ?_, ?_, h.cbuf_wf, h.pbuf_wf, h.abuf_wf, h.ok_err, h.payload⟩
  · have := h.operands
    cases hp : s.phase <;> simp only [hp] at this ⊢ <;> try exact this
    next q k => cases q <;> exact this
    next q k => cases q <;> exact this
  · have := h.waiting
    cases hp : s.phase <;> simp only [hp] at this ⊢ <;> try exact this
    next q k => cases k <;> exact this
  · have := h.walking
    cases hp : s.phase <;> simp only [hp] at this ⊢ <;> try exact this
    next k => cases k <;> exact this

/-- Acceptance of a legal request (10_state.md R43). -/
theorem accept_inv {s : State} (h : Inv s) (hb : s.busy = false) (op : Operation) (hl : operandsLegal op s = true) :
    Inv (accept op s) := by
  obtain ⟨⟨_, r2, r3⟩, _⟩ := h.rest hb
  have ho : operandsHeld op.entry { s with busy := true } := by
    cases op
    · trivial
    · exact hl
    · trivial
    · exact hl
  cases op <;> exact h.goTo (u := { s with busy := true }) rfl (by simp [Operation.entry]) [] (by simp)
    (by rw [r2]; rfl) (by simp only [r3]; rfl) ho trivial trivial rfl rfl rfl rfl rfl rfl

end Sys2Proof.Machine
end

