-- ==== Sys2Proof/Laws/PerInstr.lean ====
section
/-! SUPPORT. Laws/PerInstr.lean: per instruction, how long its encoding is (30_encoding.md R91, R101 to R104). -/

namespace Sys2Proof.Laws.EncodeLength

/-- The bytes of a well-formed instruction's word: one for an operation, a marker or a code, six for the
acknowledgment, six and what `LEN` announces for a frame. -/
def expected : Instr → Nat
  | .frameH2d len _ _ => 6 + bodyLength len
  | .frameD2h len _ _ => 6 + bodyLength len
  | .ack => 6
  | .waitReady | .encodeSend | .awaitAck | .receive => 1
  | .markerDataWrite | .markerStatusRead | .markerDataRead => 1
  | .getFirmwareVersion | .configureSecurityModule | .enumeratePassiveTarget => 1
  | .respFirmwareVersion | .respConfigureSecurityModule | .respEnumeratePassiveTarget => 1

/-- A well-formed instruction is encoded in as many bytes as the spec gives it. -/
def Statement (i : Instr) : Prop := i.wellFormed = true → (encode i).length = expected i

theorem waitReady : Statement .waitReady := fun _ => rfl
theorem encodeSend : Statement .encodeSend := fun _ => rfl
theorem awaitAck : Statement .awaitAck := fun _ => rfl
theorem receive : Statement .receive := fun _ => rfl
theorem markerDataWrite : Statement .markerDataWrite := fun _ => rfl
theorem markerStatusRead : Statement .markerStatusRead := fun _ => rfl
theorem markerDataRead : Statement .markerDataRead := fun _ => rfl

theorem frameH2d (len lcs : Byte) (body : List Byte) : Statement (.frameH2d len lcs body) := by
  intro h
  have h : body.length = bodyLength len := of_decide_eq_true h
  simp [encode, expected, frameHeader, h]
  omega

theorem frameD2h (len lcs : Byte) (body : List Byte) : Statement (.frameD2h len lcs body) := by
  intro h
  have h : body.length = bodyLength len := of_decide_eq_true h
  simp [encode, expected, frameHeader, h]
  omega

theorem ack : Statement .ack := fun _ => rfl
theorem getFirmwareVersion : Statement .getFirmwareVersion := fun _ => rfl
theorem configureSecurityModule : Statement .configureSecurityModule := fun _ => rfl
theorem enumeratePassiveTarget : Statement .enumeratePassiveTarget := fun _ => rfl
theorem respFirmwareVersion : Statement .respFirmwareVersion := fun _ => rfl
theorem respConfigureSecurityModule : Statement .respConfigureSecurityModule := fun _ => rfl
theorem respEnumeratePassiveTarget : Statement .respEnumeratePassiveTarget := fun _ => rfl

end Sys2Proof.Laws.EncodeLength
end

