-- ==== Sys2Proof/Laws/Received.lean ====
section
/-! SUPPORT. Laws/Received.lean: what RECEIVE makes of the bytes a ready device gives (44_frame_decoder.md R171 to
R187), and what one flipped bit does to them. -/

namespace Sys2Proof.Machine

theorem answerAt_ready_gives {s : State} {k j : Nat} {bs : List Byte} (h : deviceGives s (afterProbe k) bs)
    (hj : j < bs.length) : answerAt (readyState s k) (j + 1) = bs[j] := by
  rw [answerAt_readyState, ← h j hj]; congr 1; unfold afterProbe; omega

theorem given_ready_gives {s : State} {k m n : Nat} {bs : List Byte} (h : deviceGives s (afterProbe k) bs)
    (hj : m + n ≤ bs.length) : given (readyState s k) (m + 1) n = (bs.drop m).take n := by
  apply List.ext_getElem
  · simp; omega
  · intro i h1 h2
    simp only [given, List.getElem_map, List.getElem_range, List.getElem_take, List.getElem_drop]
    rw [show m + 1 + i = (m + i) + 1 by omega, answerAt_ready_gives h]

/-- A frame with good checks and any framing bytes is accepted (44_frame_decoder.md R107, R187). -/
theorem receive_good {s : State} {k : Nat} {p : List Byte} {x y z post : Byte} (hp : p.length ≤ s.maxlen.toNat)
    (hm : s.maxlen.toNat ≤ 254) (hr : readyAtProbe s k)
    (hg : deviceGives s (afterProbe k) ([x, y, z, lenOf p, lcsOf (lenOf p), 0xD5] ++ p ++ [dcsOf 0xD5 p, post])) :
    receive s = judgeFrame (none, frameRead (readyState s k) p.length) ∧ given (readyState s k) 7 p.length = p ∧
      given (readyState s k) 1 (p.length + 8) = ([x, y, z, lenOf p, lcsOf (lenOf p), 0xD5] ++ p ++ [dcsOf 0xD5 p,
      post]) ∧ answerAt (readyState s k) 4 = lenOf p := by
  have hlen := lenOf_toNat (payload := p) (show p.length ≤ 254 by omega)
  have a4 : answerAt (readyState s k) 4 = lenOf p := answerAt_ready_gives (j := 3) hg (by simp)
  have a5 : answerAt (readyState s k) 5 = lcsOf (lenOf p) := answerAt_ready_gives (j := 4) hg (by simp)
  have a6 : answerAt (readyState s k) 6 = 0xD5 := answerAt_ready_gives (j := 5) hg (by simp)
  have g7 : given (readyState s k) 7 p.length = p := by
    rw [given_ready_gives (m := 6) hg (by simp; omega)]; simp
  have g1 : given (readyState s k) 1 (p.length + 8) =
    ([x, y, z, lenOf p, lcsOf (lenOf p), 0xD5] ++ p ++ [dcsOf 0xD5 p, post]) := by
    rw [given_ready_gives (m := 0) hg (by simp)]; simp
  have ad : answerAt (readyState s k) (7 + p.length) = dcsOf 0xD5 p := by
    rw [show 7 + p.length = (6 + p.length) + 1 by omega, answerAt_ready_gives hg (by simp; omega)]
    rw [List.getElem_append_right (by simp; omega)]
    have e : ∀ (i : Nat) (hi : i < [dcsOf 0xD5 p, post].length), i = 0 → [dcsOf 0xD5 p, post][i] = dcsOf 0xD5 p := by
      rintro i hi rfl; rfl
    exact e _ _ (by simp; omega)
  refine ⟨?_, g7, g1, a4⟩
  rw [receive_ready hr, readFrame_good (m := p.length)]
  · rw [a4, a5]; exact lengthLaw_lcsOf _
  · exact a6
  · rw [a4]; exact lenOf_ne_zero (show p.length ≤ 254 by omega)
  · rw [a4]
    have h1 : (1 : BitVec 8).toNat = 1 := rfl
    rw [BitVec.toNat_sub, hlen, h1]; omega
  · exact hp
  · rw [g7, ad]; exact dataLaw_dcsOf _ _

theorem lenOf_sub_one {p : List Byte} (h : p.length ≤ 254) : (lenOf p - 1).toNat = p.length := by
    have h1 : (1 : BitVec 8).toNat = 1 := rfl
    rw [BitVec.toNat_sub, lenOf_toNat h, h1]; omega

theorem frameBytes_eq (p : List Byte) (d : Byte) :
    frameBytes d p = [0x00, 0x00, 0xFF, lenOf p, lcsOf (lenOf p), d] ++ p ++ [dcsOf d p, 0x00] := by
  simp [frameBytes, frameHeader, Config.preamble, Config.start1, Config.start2, Config.postamble]

/-- What RECEIVE leaves of such a frame: the payload, `PBUF` beyond it as it was, and the trace. -/
theorem receive_good_results {s : State} {k : Nat} {p : List Byte} {x y z post : Byte}
    (hp : p.length ≤ s.maxlen.toNat) (hm : s.maxlen.toNat ≤ 254) (hr : readyAtProbe s k)
    (hg : deviceGives s (afterProbe k) ([x, y, z, lenOf p, lcsOf (lenOf p), 0xD5] ++ p ++ [dcsOf 0xD5 p, post])) :
    succeeded (receive s) ∧ (receive s).plen.toNat = p.length ∧ holdsBytes (receive s).pbuf p ∧
      (∀ i, p.length ≤ i → Memory.read (receive s).pbuf i = Memory.read s.pbuf i) ∧
      (receive s).trace = s.trace ++ waitEvents (statuses s (k + 1)) ++ readEvents ([x, y, z, lenOf p,
      lcsOf (lenOf p), 0xD5] ++ p ++ [dcsOf 0xD5 p, post]) := by
  obtain ⟨he, g7, g1, a4⟩ := receive_good hp hm hr hg
  rw [he]
  refine ⟨⟨rfl, rfl⟩, ?_, ?_, fun i hi => ?_, ?_⟩
  · show (answerAt (readyState s k) 4 - 1).toNat = _
    rw [a4, lenOf_sub_one (by omega)]
  · show holdsBytes (Memory.writeAll s.pbuf 0 (given (readyState s k) 7 p.length)) p
    rw [g7]
    intro i hi
    have := Memory.read_writeAll p s.pbuf 0 hi
    rwa [Nat.zero_add] at this
  · show Memory.read (Memory.writeAll s.pbuf 0 (given (readyState s k) 7 p.length)) i = _
    exact Memory.read_writeAll_above _ _ (by simpa using hi)
  · show s.trace ++ waitEvents _ ++ readEvents (given (readyState s k) 1 (p.length + 8)) = _
    rw [g1]; rfl

theorem receive_failed {s : State} {k : Nat} {e : ErrKind} {u : State} (hr : readyAtProbe s k)
    (h : readFrame (readyState s k) = (some e, u)) (hcs : u.cs = true) {bs : List Byte}
    (htr : u.trace = s.trace ++ waitEvents (statuses s (k + 1)) ++ ([.csAssert,
    .write Config.mRead] ++ bs.map .read)) :
    atRest (receive s) ∧ failedWith e (receive s) ∧ payloadLost (receive s) ∧
      (receive s).trace = s.trace ++ waitEvents (statuses s (k + 1)) ++ readEvents bs := by
  rw [receive_ready hr, h, judgeFrame_bad, raise_eq]
  refine ⟨⟨rfl, rfl, rfl⟩, ⟨rfl, rfl⟩, ⟨rfl, fun _ => rfl⟩, ?_⟩
  simp only [htr, hcs, readEvents]
  simp

theorem lengthLaw_eq (a b : Byte) : lengthLaw a b = decide (a + b = 0) := rfl

theorem receive_badData {s : State} {k : Nat} {p : List Byte} {x y z dcs : Byte} (hm : s.maxlen.toNat ≤ 254)
    (hp : p.length ≤ s.maxlen.toNat) (hr : readyAtProbe s k) (hne : 0xD5 + sum8 p + dcs ≠ 0)
    (hg : deviceGives s (afterProbe k) ([x, y, z, lenOf p, lcsOf (lenOf p), 0xD5] ++ p ++ [dcs])) :
    atRest (receive s) ∧ failedWith .checksumMismatch (receive s) ∧ payloadLost (receive s) ∧
      (receive s).trace = s.trace ++ waitEvents (statuses s (k + 1)) ++ readEvents ([x, y, z, lenOf p,
      lcsOf (lenOf p), 0xD5] ++ p ++ [dcs]) := by
  have a4 : answerAt (readyState s k) 4 = lenOf p := answerAt_ready_gives (j := 3) hg (by simp)
  have a5 : answerAt (readyState s k) 5 = lcsOf (lenOf p) := answerAt_ready_gives (j := 4) hg (by simp)
  have a6 : answerAt (readyState s k) 6 = 0xD5 := answerAt_ready_gives (j := 5) hg (by simp)
  have g7 : given (readyState s k) 7 p.length = p := by
    rw [given_ready_gives (m := 6) hg (by simp; omega)]; simp
  have g1 : given (readyState s k) 1 (p.length + 7) = ([x, y, z, lenOf p, lcsOf (lenOf p), 0xD5] ++ p ++ [dcs]) := by
    rw [given_ready_gives (m := 0) hg (by simp)]; simp
  have ad : answerAt (readyState s k) (7 + p.length) = dcs := by
    rw [show 7 + p.length = (6 + p.length) + 1 by omega, answerAt_ready_gives hg (by simp; omega)]
    rw [List.getElem_append_right (by simp; omega)]
    simp
  refine receive_failed hr (readFrame_badData (m := p.length) (by rw [a4, a5]; exact lengthLaw_lcsOf _) a6
    (by rw [a4]; exact lenOf_ne_zero (show p.length ≤ 254 by omega)) (by rw [a4]; exact lenOf_sub_one (by omega))
    hp ?_) rfl ?_
  · rw [g7, ad]; exact decide_eq_false hne
  · rw [bodyRead]; simp only [g1]; simp [waited, statuses]; rfl

theorem xor_twoPow_ne (b : Byte) {k : Nat} (h : k < 8) : b ^^^ BitVec.twoPow 8 k ≠ b := by
  intro he
  have := congrArg (fun x => x.getLsbD k) he
  simp [h] at this

theorem sum8_modify_ne {f : Byte → Byte} (hf : ∀ b, f b ≠ b) (p : List Byte) (i : Nat) (h : i < p.length) :
    sum8 (p.modify i f) ≠ sum8 p := by
  induction p generalizing i with
  | nil => simp at h
  | cons b p ih =>
    cases i with
    | zero =>
      simp only [List.modify_zero_cons, sum8]
      intro he
      exact hf b (add_right_cancel he)
    | succ i =>
      simp only [List.modify_succ_cons, sum8]
      intro he
      exact ih i (by simpa using h) (add_left_cancel he)

theorem flipBit_getElem (bs : List Byte) (j b i : Nat) (h : i < bs.length) :
    (flipBit bs j b)[i]'(by simpa [flipBit] using h) = if j = i then bs[i] ^^^ BitVec.twoPow 8 b else bs[i] := by
  simp [flipBit, List.getElem_modify]

theorem add_ne_zero_left {a b c : Byte} (h : a + b = 0) (hc : c ≠ a) : c + b ≠ 0 := by
  intro h2
  exact hc (add_right_cancel (h2.trans h.symm))

theorem add_ne_zero_right {a b c : Byte} (h : a + b = 0) (hc : c ≠ b) : a + c ≠ 0 := by
  intro h2
  exact hc (add_left_cancel (h2.trans h.symm))

theorem flipBit_append_left (xs ys : List Byte) (j b : Nat) (h : j < xs.length) :
    flipBit (xs ++ ys) j b = flipBit xs j b ++ ys := by
  apply List.ext_getElem
  · simp [flipBit]
  · intro i h1 h2
    rw [flipBit_getElem _ _ _ _ (by simpa [flipBit] using h1)]
    by_cases hi : i < xs.length
    · rw [List.getElem_append_left hi, List.getElem_append_left (by simpa [flipBit] using hi),
        flipBit_getElem _ _ _ _ hi]
    · rw [if_neg (by omega), List.getElem_append_right (by omega), List.getElem_append_right
        (by simp [flipBit]; omega)]
      simp [flipBit]

theorem flipBit_append_right (xs ys : List Byte) (j b : Nat) :
    flipBit (xs ++ ys) (xs.length + j) b = xs ++ flipBit ys j b := by
  apply List.ext_getElem
  · simp [flipBit]
  · intro i h1 h2
    rw [flipBit_getElem _ _ _ _ (by simpa [flipBit] using h1)]
    by_cases hi : i < xs.length
    · rw [if_neg (by omega), List.getElem_append_left hi, List.getElem_append_left hi]
    · rw [List.getElem_append_right (by omega), List.getElem_append_right (by omega), flipBit_getElem _ _ _ _
        (by simp [flipBit] at h1; omega)]
      by_cases hj : j = i - xs.length
      · rw [if_pos (by omega), if_pos hj]
      · rw [if_neg (by omega), if_neg hj]

end Sys2Proof.Machine
end

