-- ==== Sys2Proof/Laws/Refinement.lean ====
section
/-! SUPPORT. Laws/Refinement.lean: no operation reads `BUSY`, so each does the same from the state that its
acceptance leaves (10_state.md R43). -/

namespace Sys2Proof.Machine

/-- `BUSY <- 1`. -/
def setBusy (s : State) : State := { s with busy := true }

theorem readyAtProbe_setBusy (s : State) (k) : readyAtProbe (setBusy s) k ↔ readyAtProbe s k := Iff.rfl

theorem neverReady_setBusy (s : State) : neverReady (setBusy s) ↔ neverReady s := Iff.rfl

theorem readFrame_setBusy (s : State) : readFrame (setBusy s) = ((readFrame s).1, setBusy (readFrame s).2) := by
  by_cases h : lengthLaw (answerAt s 4) (answerAt s 5) = true
  case neg =>
    have h : lengthLaw (answerAt s 4) (answerAt s 5) = false := by simpa using h
    rw [readFrame_badLength h, readFrame_badLength (s := setBusy s) h]; rfl
  by_cases hd : answerAt s 6 = Config.dirD2h
  case neg => rw [readFrame_badDirection h hd, readFrame_badDirection (s := setBusy s) h hd]; rfl
  by_cases h0 : answerAt s 4 = 0
  · rw [readFrame_lenZero h hd h0, readFrame_lenZero (s := setBusy s) h hd h0]; rfl
  by_cases hc : s.maxlen.toNat < (answerAt s 4 - 1).toNat
  · rw [readFrame_overCapacity h hd h0 hc, readFrame_overCapacity (s := setBusy s) h hd h0 hc]; rfl
  by_cases hp : dataLaw (Config.dirD2h + sum8 (given s 7 (answerAt s 4 - 1).toNat))
      (answerAt s (7 + (answerAt s 4 - 1).toNat)) = true
  · rw [readFrame_good h hd h0 rfl (by omega) hp, readFrame_good (s := setBusy s) h hd h0 rfl
      (by show (answerAt s 4 - 1).toNat ≤ s.maxlen.toNat; omega) hp]; rfl
  · have hp : dataLaw (Config.dirD2h + sum8 (given s 7 (answerAt s 4 - 1).toNat))
      (answerAt s (7 + (answerAt s 4 - 1).toNat)) = false := by simpa using hp
    rw [readFrame_badData h hd h0 rfl (by omega) hp, readFrame_badData (s := setBusy s) h hd h0 rfl
      (by show (answerAt s 4 - 1).toNat ≤ s.maxlen.toNat; omega) hp]; rfl

theorem judgeFrame_setBusy (x : Option ErrKind × State) : judgeFrame (x.1, setBusy x.2) = judgeFrame x := by
  obtain ⟨_ | e, u⟩ := x
  · rfl
  · rw [judgeFrame_bad, judgeFrame_bad, raise_eq, raise_eq]; rfl

theorem waitReady_setBusy (s : State) : waitReady (setBusy s) = waitReady s := by
  rcases ready_or_never s with ⟨k, hk⟩ | hk
  · rw [waitReady_ready hk, waitReady_ready (s := setBusy s) hk]; rfl
  · rw [waitReady_never hk, waitReady_never (s := setBusy s) hk]; rfl

theorem receive_setBusy (s : State) : receive (setBusy s) = receive s := by
  rcases ready_or_never s with ⟨k, hk⟩ | hk
  · rw [receive_ready hk, receive_ready (s := setBusy s) hk]
    rw [show readyState (setBusy s) k = setBusy (readyState s k) from rfl, readFrame_setBusy, judgeFrame_setBusy]
  · rw [receive_never hk, receive_never (s := setBusy s) hk]; rfl

theorem awaitAck_setBusy (s : State) : awaitAck (setBusy s) = awaitAck s := by
  rcases ready_or_never s with ⟨k, hk⟩ | hk
  · rw [awaitAck_ready hk, awaitAck_ready (s := setBusy s) hk, judgeAck_eq (by rw [readAck_eq]), judgeAck_eq
      (by rw [readAck_eq]), readAck_eq, readAck_eq]; rfl
  · rw [awaitAck_never hk, awaitAck_never (s := setBusy s) hk]; rfl

theorem sendFromCbuf_setBusy (s : State) : sendFromCbuf (setBusy s) = setBusy (sendFromCbuf s) := by
  simp only [sendFromCbuf, memRead]
  rw [show (setBusy s).cbuf = s.cbuf from rfl, show (setBusy s).idx = s.idx from rfl]
  cases Memory.read s.cbuf s.idx.toNat <;> rfl

theorem iter_sendFromCbuf_setBusy (n) (s : State) :
    iter n sendFromCbuf (setBusy s) = setBusy (iter n sendFromCbuf s) := by
  induction n generalizing s with
  | zero => rfl
  | succ n ih => rw [iter, sendFromCbuf_setBusy, ih]; rfl

theorem encodeSend_setBusy (s : State) : encodeSend (setBusy s) = encodeSend s := by
  have e : startFrame ((setBusy s).clen + 1) (setBusy s) = setBusy (startFrame (s.clen + 1) s) := by
    rw [startFrame_eq, startFrame_eq]; rfl
  rw [encodeSend, encodeSend, sendCommand, sendCommand, e]
  show complete _ (succeed (endFrame (iter s.clen.toNat sendFromCbuf (setBusy _)))) = _
  rw [iter_sendFromCbuf_setBusy, complete_eq, complete_eq]
  generalize iter s.clen.toNat sendFromCbuf (startFrame (s.clen + 1) s) = u
  ext1 <;> simp [endFrame, setBusy]

end Sys2Proof.Machine
end

