-- ==== Sys2Proof/Laws/Sequences.lean ====
section
/-! SUPPORT. Laws/Sequences.lean: `Exchange`, the parts of the host's sequences, and the readings of delivered
responses (45_command_session.md). -/

namespace Sys2Proof.Machine

theorem encodeSend_host (s : State) (hc : s.clen.toNat ≤ 254) :
    (encodeSend s).host = s.host ∧ (encodeSend s).inbox = s.inbox := by
  obtain ⟨bs, d, _, _, _, he⟩ := encodeSend_eq hc
  rw [he, sendFrame_eq]; exact ⟨rfl, rfl⟩

theorem awaitAck_host (s : State) :
    (awaitAck s).host = s.host ∧ (awaitAck s).inbox = s.inbox ∧ (awaitAck s).abuf = [] ∧ (awaitAck s).cs = false := by
  rcases ready_or_never s with ⟨k, hk⟩ | hk
  · rw [awaitAck_ready hk, judgeAck_eq (by rw [readAck_eq]), readAck_eq]; exact ⟨rfl, rfl, rfl, rfl⟩
  · rw [awaitAck_never hk]; exact ⟨rfl, rfl, rfl, rfl⟩

theorem receive_host (s : State) :
    (receive s).host = s.host ∧ (receive s).inbox = s.inbox ∧ (receive s).abuf = s.abuf ∧ (receive s).cs = false := by
  rcases ready_or_never s with ⟨k, hk⟩ | hk
  · rw [receive_ready hk]
    obtain ⟨n, m, e, u, he, hn1, hn2, hm', hl, hk', hu⟩ := readFrame_cases (readyState s k)
    rw [he]
    cases e with
    | none => rw [judgeFrame_good, hu]; exact ⟨rfl, rfl, rfl, rfl⟩
    | some e => rw [judgeFrame_bad, raise_eq, hu]; exact ⟨rfl, rfl, rfl, rfl⟩
  · rw [receive_never hk]; exact ⟨rfl, rfl, rfl, rfl⟩

theorem loadCommand_clen (cmd : List Byte) (s : State) (hl : cmd.length ≤ 254) :
    (loadCommand cmd s).clen.toNat = cmd.length := by
  show (BitVec.ofNat 8 cmd.length).toNat = _
  simp; omega

theorem sendAndAwait_host (cmd : List Byte) (s : State) (hl : cmd.length ≤ 254) :
    (sendAndAwait cmd s).host = s.host ∧ (sendAndAwait cmd s).inbox = s.inbox := by
  obtain ⟨h1, h2, h3⟩ := awaitAck_host (loadAck (encodeSend (loadCommand cmd s)))
  obtain ⟨g1, g2⟩ := encodeSend_host (loadCommand cmd s) (by rw [loadCommand_clen cmd s hl]; exact hl)
  exact ⟨h1.trans g1, h2.trans g2⟩

/-- The exchange that goes on ends as its RECEIVE does (45_command_session.md R201 steps 4 and 5). -/
theorem exchange_goesOn {cmd : List Byte} {m : BitVec 8} {s : State} (hm : m.toNat ≤ 254) (hg : goesOn cmd s) :
    exchange cmd m s =
      .ok (if (receive (receiveBegins cmd m s)).ok then ErrKind.none else (receive (receiveBegins cmd m s)).err,
        receive (receiveBegins cmd m s)) := by
  simp only [exchange]
  rw [if_neg (by rcases hg with h | h <;> simp [h]), if_pos ((maxlenLegal_iff _).2 hm)]
  rfl

/-- The exchange that goes on with a capacity out of range is refused at its RECEIVE (10_state.md R43). -/
theorem exchange_refused {cmd : List Byte} {m : BitVec 8} {s : State} (hm : 254 < m.toNat) (hg : goesOn cmd s) :
    exchange cmd m s = .error .maxlenOutOfRange := by
  simp only [exchange]
  rw [if_neg (by rcases hg with h | h <;> simp [h]), if_neg (by
    rw [maxlenLegal_iff]; exact Nat.not_le.2 hm)]

/-- The exchange that does not go on ends with the handshake's kind (45_command_session.md R201 step 3). -/
theorem exchange_aborted {cmd : List Byte} {m : BitVec 8} {s : State} (hg : ¬ goesOn cmd s) :
    exchange cmd m s = .ok ((sendAndAwait cmd s).err, sendAndAwait cmd s) := by
  have h1 : s.host.params.ackPolicy = .abort := by
    cases h : s.host.params.ackPolicy
    · exact absurd (.inl h) hg
    · rfl
  have h2 : (sendAndAwait cmd s).ok = false := by simpa using fun h => hg (.inr h)
  simp only [exchange]
  rw [if_pos (by simp [h1, h2])]

theorem receiveBegins_host (cmd : List Byte) (m) (s : State) (hl : cmd.length ≤ 254) :
    (receiveBegins cmd m s).host = s.host ∧ (receiveBegins cmd m s).inbox = s.inbox :=
  sendAndAwait_host cmd s hl

theorem receive_delivered {s : State} {k : Nat} {p : List Byte} (hm : s.maxlen.toNat ≤ 254)
    (hp : p.length ≤ s.maxlen.toNat) (h : deliversFrame s k p) :
    (receive s).ok = true ∧ (receive s).plen.toNat = p.length ∧ holdsBytes (receive s).pbuf p := by
  have h2 := h.2
  rw [frameBytes_eq] at h2
  obtain ⟨h3, h4, h5, _⟩ := receive_good_results hp hm h.1 h2
  exact ⟨h3.1, h4, h5⟩

theorem receiveBegins_busy (cmd : List Byte) (m) (s : State) : (receiveBegins cmd m s).busy = false := awaitAck_busy _

theorem payloadByte_holds {s : State} {p : List Byte} {i : Nat} (h : holdsBytes s.pbuf p) (hi : i < p.length) :
    payloadByte i s = (p[i], s) := by
  rw [payloadByte, memRead_of_listed (h i hi)]

theorem payloadBytes_holds {s : State} {p : List Byte} (n i : Nat) (h : holdsBytes s.pbuf p) (hi : i + n ≤ p.length) :
    payloadBytes i n s = ((p.drop i).take n, s) := by
  induction n generalizing i with
  | zero => simp [payloadBytes]
  | succ n ih =>
    rw [payloadBytes, payloadByte_holds h (by omega)]
    simp only [ih (i + 1) (by omega)]
    rw [List.drop_eq_getElem_cons (by omega : i < p.length)]
    rfl

theorem word32_toNat (a b c d : Byte) :
    (word32 [a, b, c, d]).toNat = a.toNat * 2 ^ 24 + b.toNat * 2 ^ 16 + c.toNat * 2 ^ 8 + d.toNat := by
  have := a.isLt; have := b.isLt; have := c.isLt; have := d.isLt
  simp only [word32, BitVec.toNat_append]
  rw [← Nat.shiftLeft_add_eq_or_of_lt d.isLt, ← Nat.shiftLeft_add_eq_or_of_lt c.isLt,
    ← Nat.shiftLeft_add_eq_or_of_lt b.isLt]
  simp only [Nat.shiftLeft_eq]; omega

theorem readVersion_holds {s : State} {p0 p1 p2 p3 p4 : Byte} {rest : List Byte}
    (h : holdsBytes s.pbuf (p0 :: p1 :: p2 :: p3 :: p4 :: rest)) (hl : 5 ≤ s.plen.toNat) :
    readVersion s = .next { s with host := { s.host with version := word32 [p1, p2, p3, p4] } } := by
  simp only [readVersion]
  rw [if_neg (by omega), payloadBytes_holds 4 1 h (by simp)]; rfl

theorem exchange_host {cmd : List Byte} {m e} {s u : State} (hl : cmd.length ≤ 254)
    (he : exchange cmd m s = .ok (e, u)) : u.host = s.host ∧ u.inbox = s.inbox := by
      simp only [exchange] at he
      split at he
      · cases he; exact (sendAndAwait_host _ _ hl)
      split at he
      · cases he; exact ⟨(receive_host _).1.trans (receiveBegins_host cmd _ s hl).1, (receive_host _).2.1.trans
          (receiveBegins_host cmd _ s hl).2⟩
      · cases he

theorem exchange_answers {cmd : List Byte} {m} {s : State} (hm : m.toNat ≤ 254) :
    ∃ e u, exchange cmd m s = .ok (e, u) := by
  simp only [exchange]
  split
  · exact ⟨_, _, rfl⟩
  · rw [if_pos ((maxlenLegal_iff _).2 hm)]; exact ⟨_, _, rfl⟩

theorem receive_ok_iff (s : State) : (receive s).ok = true ↔ (receive s).err = .none := by
  rcases ready_or_never s with ⟨k, hk⟩ | hk
  · rw [receive_ready hk]
    obtain ⟨n, m, e, u, he, hn1, hn2, hm', hl, hk', hu⟩ := readFrame_cases (readyState s k)
    rw [he]
    cases e with
    | none => rw [judgeFrame_good]; simp
    | some e =>
      rw [judgeFrame_bad, raise_eq]
      rcases hk' with h | h | h | h <;> simp at h <;> subst h <;> simp
  · rw [receive_never hk]; simp

theorem awaitAck_ok_iff (s : State) : (awaitAck s).ok = true ↔ (awaitAck s).err = .none := by
  rcases ready_or_never s with ⟨k, hk⟩ | hk
  · rw [awaitAck_ready hk, judgeAck_eq (by rw [readAck_eq])]
    by_cases h : ackMatches (readAck (readyState s k)) = true <;> simp [h]
  · rw [awaitAck_never hk]; simp

/-- AWAIT_ACK ends at rest and leaves the payload alone (43_ack_handshake.md R157). -/
theorem awaitAck_rest (s : State) : atRest (awaitAck s) ∧ payloadKept s (awaitAck s) := by
  rcases ready_or_never s with ⟨k, hk⟩ | hk
  · rw [awaitAck_ready hk, judgeAck_eq (by rw [readAck_eq]), readAck_eq]
    exact ⟨⟨rfl, rfl, rfl⟩, rfl, fun _ => rfl⟩
  · rw [awaitAck_never hk]; exact ⟨⟨rfl, rfl, rfl⟩, rfl, fun _ => rfl⟩

/-- RECEIVE ends at rest (44_frame_decoder.md R171). -/
theorem receive_rest (s : State) : atRest (receive s) := by
  rcases ready_or_never s with ⟨k, hk⟩ | hk
  · refine ⟨receive_busy s, ?_, (receive_host s).2.2.2⟩
    rw [receive_ready hk]
    rcases h : readFrame (readyState s k) with ⟨_ | e, u⟩
    · rfl
    · rw [judgeFrame_bad, raise_eq]
  · rw [receive_never hk]; exact ⟨rfl, rfl, rfl⟩

theorem readTarget_found {s : State} {tg sens1 sens2 sel l : Byte} {ident rest : List Byte} (hl7 : l.toNat ≤ 7)
    (hil : ident.length = l.toNat) (hp : 7 + l.toNat ≤ s.plen.toNat)
    (h : holdsBytes s.pbuf ([0x4B, 0x01, tg, sens1, sens2, sel, l] ++ ident ++ rest)) :
    readTarget s = .next { s with host := { s.host with found := true, ident := ident, identLen := l } } := by
  rw [List.append_assoc] at h
  simp only [readTarget]
  rw [if_neg (by omega), payloadByte_holds h (by simp)]
  show (if (0x4B : Byte) = 0x4B then readTargetCount s else _) = _
  rw [if_pos rfl]
  simp only [readTargetCount]
  rw [if_neg (by omega), payloadByte_holds h (by simp)]
  show (if (0x01 : Byte) = 0x01 then readIdentifier s else _) = _
  rw [if_pos rfl]
  simp only [readIdentifier]
  rw [if_neg (by omega), payloadByte_holds h (by simp)]
  show (if 7 < l.toNat then _ else _) = _
  rw [if_neg (by omega)]
  show (if s.plen.toNat < 7 + l.toNat then _ else _) = _
  rw [if_neg (by omega)]
  show Host.Outcome.next (foundTarget l (payloadBytes 7 l.toNat s).1 (payloadBytes 7 l.toNat s).2) = _
  rw [payloadBytes_holds _ _ h (by simp; omega)]
  simp [← hil, foundTarget]

theorem readTarget_code {s : State} {code : Byte} {rest : List Byte} (hc : code ≠ 0x4B) (hp : 1 ≤ s.plen.toNat)
    (h : holdsBytes s.pbuf (code :: rest)) :
    readTarget s = .next { s with host := { s.host with found := false } } := by
  simp only [readTarget]
  rw [if_neg (by omega), payloadByte_holds h (by simp)]
  exact if_neg hc

theorem readTarget_count {s : State} {count : Byte} {rest : List Byte} (hc : count ≠ 0x01) (hp : 2 ≤ s.plen.toNat)
    (h : holdsBytes s.pbuf (0x4B :: count :: rest)) :
    readTarget s = .next { s with host := { s.host with found := false } } := by
  simp only [readTarget]
  rw [if_neg (by omega), payloadByte_holds h (by simp)]
  show (if (0x4B : Byte) = 0x4B then readTargetCount s else _) = _
  rw [if_pos rfl]
  simp only [readTargetCount]
  rw [if_neg (by omega), payloadByte_holds h (by simp)]
  exact if_neg hc

/-! Everything a reading of a response can do: it changes the host's results and the count of free values, or faults. -/

/-- The host's results and the count of free values may differ, its parameters and all else not. -/
def HostOnly (s t : State) : Prop := ∃ x d, x.params = s.host.params ∧ t = { s with host := x, draws := d }

theorem HostOnly.trans {s t u : State} (h : HostOnly s t) (k : HostOnly t u) : HostOnly s u := by
  obtain ⟨x, d, h1, rfl⟩ := h
  obtain ⟨y, e, k1, rfl⟩ := k
  exact ⟨y, e, k1.trans h1, rfl⟩

theorem HostOnly.operands {s t : State} (h : HostOnly s t) : operandsKept s t := by
  obtain ⟨x, d, -, rfl⟩ := h
  exact ⟨rfl, rfl, rfl, rfl, fun _ => rfl⟩

theorem payloadByte_hostOnly (i : Nat) (s : State) : HostOnly s (payloadByte i s).2 := by
  obtain ⟨d, hd⟩ := memRead_state s.pbuf i s
  exact ⟨s.host, d, rfl, hd⟩

theorem payloadBytes_hostOnly (i n : Nat) (s : State) : HostOnly s (payloadBytes i n s).2 := by
  induction n generalizing i s with
  | zero => exact ⟨s.host, s.draws, rfl, rfl⟩
  | succ n ih => exact (payloadByte_hostOnly i s).trans (ih (i + 1) _)

theorem versionUnknown_hostOnly (s : State) : HostOnly s (versionUnknown s) :=
  ⟨{ s.host with version := 0 }, s.draws, rfl, rfl⟩

theorem recordSam_hostOnly (ok : Bool) (s : State) : HostOnly s (recordSam ok s) :=
  ⟨{ s.host with samOk := ok }, s.draws, rfl, rfl⟩

theorem notFound_hostOnly (s : State) : HostOnly s (notFound s) := ⟨{ s.host with found := false }, s.draws, rfl, rfl⟩

theorem foundTarget_hostOnly (n : Byte) (ident : List Byte) (s : State) : HostOnly s (foundTarget n ident s) :=
  ⟨{ s.host with found := true, ident := ident, identLen := n }, s.draws, rfl, rfl⟩

theorem readVersion_hostOnly {s t : State} (he : readVersion s = .next t) : HostOnly s t := by
  simp only [readVersion] at he
  split at he
  · cases he
  · cases he
    exact (payloadBytes_hostOnly 1 4 s).trans
      ⟨{ (payloadBytes 1 4 s).2.host with version := word32 (payloadBytes 1 4 s).1 }, _, rfl, rfl⟩

theorem readIdentifier_hostOnly {s t : State} (he : readIdentifier s = .next t) : HostOnly s t := by
  simp only [readIdentifier] at he
  split at he
  · cases he
  split at he
  · cases he
  split at he
  · cases he
  · cases he
    exact (payloadByte_hostOnly 6 s).trans ((payloadBytes_hostOnly 7 _ _).trans (foundTarget_hostOnly _ _ _))

theorem readTargetCount_hostOnly {s t : State} (he : readTargetCount s = .next t) : HostOnly s t := by
  simp only [readTargetCount] at he
  split at he
  · cases he
  split at he
  · exact (payloadByte_hostOnly 1 s).trans (readIdentifier_hostOnly he)
  · cases he; exact (payloadByte_hostOnly 1 s).trans (notFound_hostOnly _)

theorem readTarget_hostOnly {s t : State} (he : readTarget s = .next t) : HostOnly s t := by
  simp only [readTarget] at he
  split at he
  · cases he
  split at he
  · exact (payloadByte_hostOnly 0 s).trans (readTargetCount_hostOnly he)
  · cases he; exact (payloadByte_hostOnly 0 s).trans (notFound_hostOnly _)

/-! Where the reading of an enumeration response faults (45_command_session.md R211). -/

theorem readTarget_empty {s : State} (hp : s.plen.toNat = 0) : readTarget s = .fault .readBeyondPayload := by
  simp only [readTarget]; rw [if_pos (by omega)]

theorem readTarget_coded {s : State} {rest : List Byte} (hp : 1 ≤ s.plen.toNat) (h : holdsBytes s.pbuf (0x4B :: rest)) :
    readTarget s = readTargetCount s := by
  simp only [readTarget]
  rw [if_neg (by omega), payloadByte_holds h (by simp)]
  exact if_pos rfl

theorem readTarget_single {s : State} {rest : List Byte} (hp : s.plen.toNat = 1)
    (h : holdsBytes s.pbuf (0x4B :: rest)) : readTarget s = .fault .readBeyondPayload := by
  rw [readTarget_coded (by omega) h]
  simp only [readTargetCount]; rw [if_pos (by omega)]

theorem readTarget_counted {s : State} {rest : List Byte} (hp : 2 ≤ s.plen.toNat)
    (h : holdsBytes s.pbuf (0x4B :: 0x01 :: rest)) : readTarget s = readIdentifier s := by
  rw [readTarget_coded (by omega) h]
  simp only [readTargetCount]
  rw [if_neg (by omega), payloadByte_holds h (by simp)]
  exact if_pos rfl

theorem readTarget_short {s : State} {rest : List Byte} (hp : 2 ≤ s.plen.toNat) (hp7 : s.plen.toNat < 7)
    (h : holdsBytes s.pbuf (0x4B :: 0x01 :: rest)) : readTarget s = .fault .readBeyondPayload := by
  rw [readTarget_counted hp h]
  simp only [readIdentifier]; rw [if_pos hp7]

theorem readTarget_long {s : State} {tg sens1 sens2 sel l : Byte} {rest : List Byte} (hp : 7 ≤ s.plen.toNat)
    (hl : 7 < l.toNat) (h : holdsBytes s.pbuf (0x4B :: 0x01 :: tg :: sens1 :: sens2 :: sel :: l :: rest)) :
    readTarget s = .fault .identifierTooLong := by
  rw [readTarget_counted (by omega) h]
  simp only [readIdentifier]
  rw [if_neg (by omega), payloadByte_holds h (by simp)]
  exact if_pos hl

theorem readTarget_cut {s : State} {tg sens1 sens2 sel l : Byte} {rest : List Byte} (hp : 7 ≤ s.plen.toNat)
    (hl : l.toNat ≤ 7) (hc : s.plen.toNat < 7 + l.toNat)
    (h : holdsBytes s.pbuf (0x4B :: 0x01 :: tg :: sens1 :: sens2 :: sel :: l :: rest)) :
    readTarget s = .fault .readBeyondPayload := by
  rw [readTarget_counted (by omega) h]
  simp only [readIdentifier]
  rw [if_neg (by omega), payloadByte_holds h (by simp)]
  show (if 7 < l.toNat then _ else _) = _
  rw [if_neg (by omega)]
  exact if_pos hc

end Sys2Proof.Machine
end

