-- ==== Sys2Proof/Laws/Timeouts.lean ====
section
/-! SUPPORT. Laws/Timeouts.lean: of `TIMEOUT` a wait uses the quotient by ten only, and nothing after it uses any of it
(41_ready_poller.md R133, 70_reset_and_hazards.md R283). -/

namespace Sys2Proof.Machine

/-- `TIMEOUT` set to `v`. -/
def setTimeout (v : BitVec 16) (s : State) : State := { s with timeout := v }

theorem probeBudget_setTimeout {v : BitVec 16} {s : State} (h : v.toNat / 10 = s.timeout.toNat / 10) :
    probeBudget (setTimeout v s) = probeBudget s := by
  show v.toNat / 10 + 1 = s.timeout.toNat / 10 + 1
  rw [h]

theorem readyAtProbe_setTimeout {v : BitVec 16} {s : State} (h : v.toNat / 10 = s.timeout.toNat / 10) {k : Nat}
    (hk : readyAtProbe s k) : readyAtProbe (setTimeout v s) k :=
  ⟨by rw [probeBudget_setTimeout h]; exact hk.1, hk.2.1, hk.2.2⟩

theorem neverReady_setTimeout {v : BitVec 16} {s : State} (h : v.toNat / 10 = s.timeout.toNat / 10)
    (hk : neverReady s) : neverReady (setTimeout v s) :=
  fun i hi => hk i (by rw [probeBudget_setTimeout h] at hi; exact hi)

theorem timedOutState_setTimeout {v : BitVec 16} {s : State} (h : v.toNat / 10 = s.timeout.toNat / 10) :
    timedOutState (setTimeout v s) = setTimeout v (timedOutState s) := by
  simp only [timedOutState, probeBudget_setTimeout h]; rfl

theorem waitReady_setTimeout {v : BitVec 16} {s : State} (h : v.toNat / 10 = s.timeout.toNat / 10) :
    waitReady (setTimeout v s) = setTimeout v (waitReady s) := by
  rcases ready_or_never s with ⟨k, hk⟩ | hk
  · rw [waitReady_ready hk, waitReady_ready (readyAtProbe_setTimeout h hk)]; rfl
  · rw [waitReady_never hk, waitReady_never (neverReady_setTimeout h hk), timedOutState_setTimeout h]; rfl

theorem awaitAck_setTimeout {v : BitVec 16} {s : State} (h : v.toNat / 10 = s.timeout.toNat / 10) :
    awaitAck (setTimeout v s) = setTimeout v (awaitAck s) := by
  rcases ready_or_never s with ⟨k, hk⟩ | hk
  · rw [awaitAck_ready hk, awaitAck_ready (readyAtProbe_setTimeout h hk), judgeAck_eq (by rw [readAck_eq]),
      judgeAck_eq (by rw [readAck_eq]), readAck_eq, readAck_eq]
    rfl
  · rw [awaitAck_never hk, awaitAck_never (neverReady_setTimeout h hk), timedOutState_setTimeout h]; rfl

theorem readFrame_setTimeout (v : BitVec 16) (s : State) :
    readFrame (setTimeout v s) = ((readFrame s).1, setTimeout v (readFrame s).2) := by
  by_cases h : lengthLaw (answerAt s 4) (answerAt s 5) = true
  case neg =>
    have h : lengthLaw (answerAt s 4) (answerAt s 5) = false := by simpa using h
    rw [readFrame_badLength h, readFrame_badLength (s := setTimeout v s) h]; rfl
  by_cases hd : answerAt s 6 = Config.dirD2h
  case neg => rw [readFrame_badDirection h hd, readFrame_badDirection (s := setTimeout v s) h hd]; rfl
  by_cases h0 : answerAt s 4 = 0
  · rw [readFrame_lenZero h hd h0, readFrame_lenZero (s := setTimeout v s) h hd h0]; rfl
  by_cases hc : s.maxlen.toNat < (answerAt s 4 - 1).toNat
  · rw [readFrame_overCapacity h hd h0 hc, readFrame_overCapacity (s := setTimeout v s) h hd h0 hc]; rfl
  by_cases hp : dataLaw (Config.dirD2h + sum8 (given s 7 (answerAt s 4 - 1).toNat))
      (answerAt s (7 + (answerAt s 4 - 1).toNat)) = true
  · rw [readFrame_good h hd h0 rfl (by omega) hp, readFrame_good (s := setTimeout v s) h hd h0 rfl
      (by show (answerAt s 4 - 1).toNat ≤ s.maxlen.toNat; omega) hp]; rfl
  · have hp : dataLaw (Config.dirD2h + sum8 (given s 7 (answerAt s 4 - 1).toNat))
      (answerAt s (7 + (answerAt s 4 - 1).toNat)) = false := by simpa using hp
    rw [readFrame_badData h hd h0 rfl (by omega) hp, readFrame_badData (s := setTimeout v s) h hd h0 rfl
      (by show (answerAt s 4 - 1).toNat ≤ s.maxlen.toNat; omega) hp]; rfl

theorem judgeFrame_setTimeout (v : BitVec 16) (x : Option ErrKind × State) :
    judgeFrame (x.1, setTimeout v x.2) = setTimeout v (judgeFrame x) := by
  obtain ⟨_ | e, u⟩ := x
  · rfl
  · rw [judgeFrame_bad, judgeFrame_bad, raise_eq, raise_eq]; rfl

theorem receive_setTimeout {v : BitVec 16} {s : State} (h : v.toNat / 10 = s.timeout.toNat / 10) :
    receive (setTimeout v s) = setTimeout v (receive s) := by
  rcases ready_or_never s with ⟨k, hk⟩ | hk
  · rw [receive_ready hk, receive_ready (readyAtProbe_setTimeout h hk)]
    rw [show readyState (setTimeout v s) k = setTimeout v (readyState s k) from rfl, readFrame_setTimeout,
      judgeFrame_setTimeout]
  · rw [receive_never hk, receive_never (neverReady_setTimeout h hk), timedOutState_setTimeout h]; rfl

end Sys2Proof.Machine
end

