-- ==== Sys2Proof/Tests/Slice0.lean ====
section
/-! SUPPORT. Tests/Slice0.lean: the refused ill-formed terms, decoded words, one or two single runs per instruction
with their results from spec/95_test_vectors.md, and a witness for the hypotheses of every obligation. -/

namespace Sys2Proof.Tests

open Sys2Proof.Machine

/-! Helpers. -/

/-- The reset state before a device that answers `rx`, one byte an exchange. -/
def device (rx : List Byte) : State := { State.reset with rx := rx }

/-- What a device answers to one status probe: a byte that is dropped, the status byte. -/
def probe (status : Byte) : List Byte := [0x00, status]

/-- What a device answers to one read transaction: a byte that is dropped, then `bytes`. -/
def gives (bytes : List Byte) : List Byte := 0x00 :: bytes

/-- What a device answers to a data-write transaction of `n` exchanges: bytes that are dropped. -/
def drops (n : Nat) : List Byte := List.replicate n 0x00

/-- One field of the next state, if there is one. -/
def ofNext {α : Type} (o : Host.Outcome State Fault Refusal) (f : State → α) : Option α :=
  match o with
  | .next t => some (f t)
  | .fault _ => none
  | .refused _ => none

/-- The refusal, if it is one. -/
def ofRefused (o : Host.Outcome State Fault Refusal) : Option Refusal :=
  match o with
  | .refused r => some r
  | .next _ => none
  | .fault _ => none

/-- The fault, if it is one. -/
def ofFault (o : Host.Outcome State Fault Refusal) : Option Fault :=
  match o with
  | .fault r => some r
  | .next _ => none
  | .refused _ => none

/-- The first `n` bytes of `PBUF`. -/
def payload (n : Nat) (s : State) : List (Option Byte) := (List.range n).map (Memory.read s.pbuf)

/-- The firmware response of V-SRC-7. -/
def firmwareFrame : List Byte := [0x00, 0x00, 0xFF, 0x06, 0xFA, 0xD5, 0x03, 0x32, 0x01, 0x06, 0x07, 0xE8, 0x00]

/-- The enumeration response of V-SRC-8. -/
def targetFrame : List Byte :=
  [0x00, 0x00, 0xFF, 0x0C, 0xF4, 0xD5, 0x4B, 0x01, 0x01, 0x00, 0x44, 0x00, 0x04, 0x04, 0x9A, 0x3C, 0x7F, 0x3D, 0x00]

/-- The acknowledgment of V-SRC-6. -/
def ackFrame : List Byte := [0x00, 0x00, 0xFF, 0x00, 0xFF, 0x00]

/-- A device for a whole `Exchange` of a command sent in `n` exchanges, ready at every probe. -/
def exchanger (n : Nat) (response : List Byte) : State :=
  device (drops n ++ probe 0x01 ++ gives ackFrame ++ probe 0x01 ++ gives response)

/-- The same exchange under the policy ABORT. -/
def aborting (s : State) : State :=
  { s with host := { s.host with params := { s.host.params with ackPolicy := .abort } } }

/-- The same for a response frame of `payload`. -/
def delivering (n : Nat) (payload : List Byte) : State := exchanger n (frameBytes 0xD5 payload)

/-- A device that does not raise its ready flag within the handshake's wait, under ABORT. -/
def unanswered (n : Nat) : State := aborting (device (drops n ++ probe 0x00 ++ probe 0x00))

/-! Well-formedness. -/

theorem test_wf_refuses_short_body :
    (Instr.frameH2d 0x02 0xFE [0x02, 0x2A]).wellFormed = false ∧
    (Instr.frameD2h 0x02 0xFE [0x15, 0x16]).wellFormed = false := by decide

theorem test_wf_refuses_long_body :
    (Instr.frameH2d 0x00 0x00 [0x2C]).wellFormed = false ∧ (Instr.frameD2h 0x01 0xFF [0x2B, 0x00, 0x00]).wellFormed = false := by
  decide

theorem test_wf_allows_len_zero_and_255 :
    (Instr.frameD2h 0x00 0x00 []).wellFormed = true ∧
    (Instr.frameH2d 0xFF 0x01 (List.replicate 256 0)).wellFormed = true := by decide +kernel

/-! Decoding: words written out from 30_encoding.md R91, R101 to R104. -/

theorem test_decode_op :
    decode .op [0b00] = .ok .waitReady ∧ decode .op [0b01] = .ok .encodeSend ∧ decode .op [0b10] = .ok .awaitAck ∧
    decode .op [0b11] = .ok .receive ∧ decode .op [0b100] = .error .code := by decide

theorem test_decode_marker :
    decode .marker [0x01] = .ok .markerDataWrite ∧ decode .marker [0x02] = .ok .markerStatusRead ∧
    decode .marker [0x03] = .ok .markerDataRead ∧ decode .marker [0x00] = .error .code ∧
    decode .marker [0x04] = .error .code := by decide

theorem test_decode_command :
    decode .cmd [0x02] = .ok .getFirmwareVersion ∧ decode .cmd [0x14] = .ok .configureSecurityModule ∧
    decode .cmd [0x4A] = .ok .enumeratePassiveTarget ∧ decode .cmd [0x01] = .error .code := by decide

theorem test_decode_response :
    decode .cmd [0x03] = .ok .respFirmwareVersion ∧ decode .cmd [0x15] = .ok .respConfigureSecurityModule ∧
    decode .cmd [0x4B] = .ok .respEnumeratePassiveTarget ∧ decode .cmd [] = .error .truncated := by decide

theorem test_decode_ack :
    decode .ack [0x00, 0x00, 0xFF, 0x00, 0xFF, 0x00] = .ok .ack ∧
    decode .ack [0x00, 0x00, 0xFE, 0x00, 0xFF, 0x00] = .error .ackPattern := by decide

theorem test_decode_h2d :
    decode .frame [0x00, 0x00, 0xFF, 0x04, 0xFC, 0xD4, 0x4A, 0x01, 0x00, 0xE1, 0x00] =
      .ok (.frameH2d 0x04 0xFC [0x4A, 0x01, 0x00, 0xE1, 0x00]) ∧
    decode .frame [0x00, 0x01, 0xFF, 0x02, 0xFE, 0xD4, 0x02, 0x2A, 0x00] = .error .header ∧
    decode .frame [0x00, 0x00, 0xFF, 0x02, 0xFE, 0xD4, 0x02, 0x2A] = .error .truncated := by decide

theorem test_decode_d2h :
    decode .frame firmwareFrame = .ok (.frameD2h 0x06 0xFA [0x03, 0x32, 0x01, 0x06, 0x07, 0xE8, 0x00]) ∧
    decode .frame [0x00, 0x00, 0xFF, 0x06, 0xFA, 0xD6, 0x03] = .error .direction := by decide

theorem test_table_words :
    decodeTableWord 2 3 = some .receive ∧ decodeTableWord 8 0x4B = some .respEnumeratePassiveTarget ∧
    decodeTableWord 48 0x0000FF00FF00 = some .ack ∧
    decodeTableWord 48 0x0000FF0000D5 = some (.frameD2h 0x00 0x00 []) ∧
    decodeTableWord 48 0x0000FF0000D4 = some (.frameH2d 0x00 0x00 []) ∧
    decodeTableWord 48 0x0000FF01FFD6 = none := by decide +kernel

theorem test_fetched_word_runs :
    ofNext (step (State.reset.withFetchWord 8 0x4B)) (fun t => t.host.found) = some false ∧
    ofNext (step (State.reset.withFetchWord 48 0x0000FF00FF00)) (fun t => (t.ok, t.xfers)) = some (true, 7) := by decide

/-! Checksums: V-ARITH-1, V-SRC-1. -/

theorem test_neg8 : neg8 0x00 = 0x00 ∧ neg8 0x80 = 0x80 ∧ neg8 0xD4 = 0x2C ∧ neg8 0x02 = 0xFE := by decide

theorem test_encoded_frame :
    frameBytes 0xD4 (List.replicate 16 0xFF) =
      [0x00, 0x00, 0xFF, 0x11, 0xEF, 0xD4] ++ List.replicate 16 0xFF ++ [0x3C, 0x00] := by decide

/-! WAIT_READY: V-POLL-7, V-POLL-2. -/

theorem test_wait_ready :
    ofNext (exec .waitReady { device (probe 0x02 ++ probe 0xFE ++ probe 0xFF) with timeout := 30 })
      (fun t => (t.ok, t.err, t.trace)) =
    some (true, .none, [.csAssert, .write 0x02, .read 0x02, .csRelease, .delay 10, .csAssert, .write 0x02, .read 0xFE,
      .csRelease, .delay 10, .csAssert, .write 0x02, .read 0xFF, .csRelease]) := by decide

theorem test_wait_timeout :
    ofNext (exec .waitReady { device (probe 0x00 ++ probe 0x00 ++ probe 0x01) with timeout := 10 })
      (fun t => (t.ok, t.err, t.trace, t.elapsed)) =
    some (false, .timeout, [.csAssert, .write 0x02, .read 0x00, .csRelease, .delay 10, .csAssert, .write 0x02,
      .read 0x00, .csRelease], 20) := by decide

/-! ENCODE_SEND: V-ENC-2, V-ENC-8. -/

theorem test_encode_send :
    ofNext (exec .encodeSend
        { device (drops 13) with clen := 4, cbuf := [(0, 0x14), (1, 0x01), (2, 0x14), (3, 0x01)] })
      (fun t => (t.ok, t.trace)) =
    some (true, [.csAssert, .settle, .write 0x01, .write 0x00, .write 0x00, .write 0xFF, .write 0x05, .write 0xFB,
      .write 0xD4, .write 0x14, .write 0x01, .write 0x14, .write 0x01, .write 0x02, .write 0x00, .csRelease]) := by decide

theorem test_encode_send_refused :
    ofRefused (exec .encodeSend { State.reset with clen := 255 }) = some .clenOutOfRange := by decide

/-! AWAIT_ACK: V-ACK-1, V-ACK-5. -/

theorem test_await_ack :
    ofNext (exec .awaitAck { device (probe 0x01 ++ gives ackFrame) with timeout := 10 })
      (fun t => (t.ok, t.err, t.xfers)) = some (true, .none, 9) := by decide

theorem test_await_ack_mismatch :
    ofNext (exec .awaitAck
        { device (probe 0x01 ++ gives [0xFF, 0x00, 0xFF, 0x00, 0xFF, 0x00]) with timeout := 10 })
      (fun t => (t.ok, t.err, t.xfers)) = some (false, .handshakeMismatch, 9) := by decide

/-! RECEIVE: V-DEC-1, V-DEC-2. -/

theorem test_receive :
    ofNext (exec .receive { device (probe 0x01 ++ gives firmwareFrame) with timeout := 1000, maxlen := 5 })
      (fun t => (t.ok, t.err, t.plen, payload 6 t)) =
    some (true, .none, 5, [some 0x03, some 0x32, some 0x01, some 0x06, some 0x07, none]) := by decide

theorem test_receive_too_long :
    ofNext (exec .receive { device (probe 0x01 ++ gives firmwareFrame) with timeout := 1000, maxlen := 4 })
      (fun t => (t.ok, t.err, t.plen, t.xfers, t.cs)) = some (false, .bufferTooSmall, 0, 9, false) := by decide

/-! The transactions: 20_memory.md R72 to R74. -/

theorem test_marker_status_read :
    ofNext (exec .markerStatusRead (device (probe 0x01))) (fun t => (t.statb, t.trace, t.ok)) =
    some (0x01, [.csAssert, .write 0x02, .read 0x01, .csRelease], false) := by decide

theorem test_marker_data_write :
    ofNext (exec .markerDataWrite { device (drops 9) with clen := 0 }) (fun t => (t.trace, t.ok)) =
    some ([.csAssert, .settle, .write 0x01, .write 0x00, .write 0x00, .write 0xFF, .write 0x01, .write 0xFF,
      .write 0xD4, .write 0x2C, .write 0x00, .csRelease], false) := by decide

theorem test_marker_data_read :
    ofNext (exec .markerDataRead { device (gives [0x00, 0x00, 0xFF, 0x06, 0x7A]) with opsel := 3, maxlen := 5 })
      (fun t => (t.trace, t.err)) =
    some ([.csAssert, .write 0x03, .read 0x00, .read 0x00, .read 0xFF, .read 0x06, .read 0x7A, .csRelease], .none) := by
  decide

/-! Frames: V-ENC-5, V-DEC-5, V-DEC-11, V-DEC-12, V-ACK-1. -/

theorem test_frame_h2d :
    ofNext (exec (.frameH2d 0x02 0xFE [0x2C, 0x00, 0x00]) (device (drops 10))) (fun t => (t.ok, t.trace)) =
    some (true, [.csAssert, .settle, .write 0x01, .write 0x00, .write 0x00, .write 0xFF, .write 0x02, .write 0xFE,
      .write 0xD4, .write 0x2C, .write 0x00, .write 0x00, .csRelease]) := by decide

theorem test_frame_h2d_from_device :
    ofNext (exec (.frameH2d 0x06 0xFA [0x03, 0x32, 0x01, 0x06, 0x07, 0xE8, 0x00]) { State.reset with maxlen := 5 })
      (fun t => (t.ok, t.err, t.xfers, t.rx)) = some (false, .unexpectedDirection, 7, []) := by decide

theorem test_frame_d2h :
    ofNext (exec (.frameD2h 0x06 0xFA [0x03, 0x32, 0x01, 0x06, 0x07, 0xE8, 0x77]) { State.reset with maxlen := 5 })
      (fun t => (t.ok, t.plen, payload 5 t)) =
    some (true, 5, [some 0x03, some 0x32, some 0x01, some 0x06, some 0x07]) := by decide

theorem test_frame_d2h_bad_length :
    ofNext (exec (.frameD2h 0x06 0xFB [0x03, 0x32, 0x01, 0x06, 0x07, 0xE8, 0x00]) { State.reset with maxlen := 5 })
      (fun t => (t.ok, t.err, t.xfers, t.rx)) = some (false, .checksumMismatch, 6, []) := by decide

theorem test_ack :
    ofNext (exec .ack State.reset) (fun t => (t.ok, t.trace)) =
    some (true, [.csAssert, .write 0x03, .read 0x00, .read 0x00, .read 0xFF, .read 0x00, .read 0xFF, .read 0x00,
      .csRelease]) := by decide

/-! The host's sequences: V-SRC-7, V-SRC-8, V-SES-1, V-SES-2. -/

theorem test_get_firmware_version :
    ofNext (exec .getFirmwareVersion (exchanger 10 firmwareFrame)) (fun t => t.host.version) = some 0x32010607 := by
  decide

theorem test_get_firmware_version_failed :
    ofNext (exec .getFirmwareVersion (exchanger 10 [0x00, 0x00, 0xFF, 0x06, 0xFA, 0xD4])) (fun t => t.host.version) =
      some 0 := by decide

theorem test_configure_security_module :
    ofNext (exec .configureSecurityModule (exchanger 13 [0x00, 0x00, 0xFF, 0x02, 0xFE, 0xD5, 0x15, 0x16, 0x00]))
      (fun t => (t.host.samOk, t.trace.take 16)) =
    some (true, [.csAssert, .settle, .write 0x01, .write 0x00, .write 0x00, .write 0xFF, .write 0x05, .write 0xFB,
      .write 0xD4, .write 0x14, .write 0x01, .write 0x14, .write 0x01, .write 0x02, .write 0x00, .csRelease]) := by decide

theorem test_enumerate_passive_target :
    ofNext (exec .enumeratePassiveTarget (exchanger 12 targetFrame))
      (fun t => (t.host.found, t.host.ident, t.host.identLen)) =
    some (true, [0x04, 0x9A, 0x3C, 0x7F], 4) := by decide

theorem test_enumerate_without_target :
    ofNext (exec .enumeratePassiveTarget (exchanger 12 [0x00, 0x00, 0xFF, 0x03, 0xFD, 0xD5, 0x4B, 0x00, 0xE0, 0x00]))
      (fun t => (t.host.found, t.host.ident)) = some (false, []) ∧
    ofFault (exec .enumeratePassiveTarget (delivering 12 [0x4B, 0x01, 0x01])) = some .readBeyondPayload := by decide

theorem test_configure_security_module_aborted :
    ofNext (exec .configureSecurityModule (unanswered 13)) (fun t => (t.host.samOk, t.opsel, t.err)) =
      some (false, 2, .timeout) := by decide

/-- `PBUF` holding `bytes`, `PLEN` of them. -/
def holding (bytes : List Byte) : State :=
  { State.reset with pbuf := Memory.writeAll [] 0 bytes, plen := BitVec.ofNat 8 bytes.length, ok := true }

theorem test_resp_firmware_version :
    ofNext (exec .respFirmwareVersion (holding [0x03, 0xFF, 0xFE, 0xFD, 0xFC])) (fun t => t.host.version) =
      some 0xFFFEFDFC ∧
    ofFault (exec .respFirmwareVersion (holding [0x03, 0xFF, 0xFE, 0xFD])) = some .readBeyondPayload := by decide

theorem test_resp_configure_security_module :
    ofNext (exec .respConfigureSecurityModule (holding [0x15])) (fun t => t.host.samOk) = some true ∧
    ofNext (exec .respConfigureSecurityModule State.reset) (fun t => t.host.samOk) = some false := by decide

theorem test_resp_enumerate_passive_target :
    ofNext (exec .respEnumeratePassiveTarget
        (holding [0x4B, 0x01, 0x01, 0x00, 0x44, 0x00, 0x07, 0x04, 0x9A, 0x3C, 0x7F, 0x11, 0x22, 0x33]))
      (fun t => (t.host.found, t.host.ident)) = some (true, [0x04, 0x9A, 0x3C, 0x7F, 0x11, 0x22, 0x33]) := by decide

theorem test_resp_enumerate_meaningless :
    ofFault (exec .respEnumeratePassiveTarget (holding [0x4B, 0x01, 0x01, 0x00, 0x44, 0x00, 0x08])) =
      some .identifierTooLong ∧
    ofFault (exec .respEnumeratePassiveTarget (holding [0x4B, 0x01, 0x01])) = some .readBeyondPayload := by decide

/-! Witnesses: for each obligation with hypotheses, states and operands that meet all of them; for one of several
clauses, each clause at a boundary of its range. -/

/-- An idle block before a device that is ready at the first probe of a wait and then gives `bytes`. -/
def readyDevice (bytes : List Byte) : State := device (probe 0x01 ++ gives bytes)

theorem readyDevice_ready (bytes : List Byte) : readyAtProbe (readyDevice bytes) 0 :=
  ⟨Nat.succ_pos _, fun _ h => absurd h (Nat.not_lt_zero _), (by decide : readyBit 0x01 = true)⟩

theorem readyDevice_gives (bytes : List Byte) : deviceGives (readyDevice bytes) (afterProbe 0) bytes :=
  deviceGives_of_rx [] (by simp [readyDevice, device, probe, gives, afterProbe])

/-- The same with a capacity. -/
def receiver (m : BitVec 8) (bytes : List Byte) : State := { readyDevice bytes with maxlen := m }

theorem receiver_ready (m : BitVec 8) (bytes : List Byte) : readyAtProbe (receiver m bytes) 0 :=
  readyDevice_ready bytes

theorem receiver_gives (m : BitVec 8) (bytes : List Byte) : deviceGives (receiver m bytes) (afterProbe 0) bytes :=
  readyDevice_gives bytes

/-- A device that is not ready. -/
def unready : State := device (probe 0x00)

/-- A schedule of one entry. -/
def scheduled (inp : Input) : State := { State.reset with inbox := [inp] }

theorem test_witness_DecodedWordBeginsWithItsEncoding : decode .ack (ackFrame ++ [0x01]) = .ok .ack := by decide

theorem test_witness_HostFramesFollowTheLayoutAndBothLaws :
    ([] : List Byte).length ≤ 254 ∧ (List.replicate 254 (0xFF : Byte)).length ≤ 254 :=
  ⟨Nat.zero_le _, List.length_replicate.le⟩

theorem test_witness_StepRunsTheDecodedInstruction :
    (scheduled (.word .op [0x03])).inbox = .word .op [0x03] :: [] ∧ decode .op [0x03] = .ok .receive ∧
    (scheduled (.word .op [0x04])).inbox = .word .op [0x04] :: [] ∧ decode .op [0x04] = .error .code ∧
    State.reset.inbox = [] ∧ (scheduled .pass).inbox = .pass :: [] ∧
    (scheduled .awaitIdle).inbox = .awaitIdle :: [] ∧ (scheduled .awaitIdle).busy = false ∧
    ({ scheduled .awaitIdle with busy := true, phase := .waitReady3 } : State).busy = true ∧
    (scheduled (.setParams Params.reset)).inbox = .setParams Params.reset :: [] := by decide

theorem test_witness_ResetAbandonsTheOperation :
    ({ scheduled .reset with busy := true, cs := true, phase := .encode .e5 } : State).inbox = .reset :: [] := rfl

theorem test_witness_RequestIsAcceptedOrRefused :
    (∀ s ∈ [scheduled .request, { scheduled .request with opsel := 1, clen := 254 },
      { scheduled .request with opsel := 1, clen := 255 }, { scheduled .request with opsel := 2 },
      { scheduled .request with opsel := 3, maxlen := 254 }, { scheduled .request with opsel := 3, maxlen := 255 },
      { scheduled .request with busy := true }], s.inbox = .request :: []) ∧
    (254 : BitVec 8).toNat ≤ 254 ∧ 254 < (255 : BitVec 8).toNat := by decide

theorem test_witness_NothingRunsWhileBusy : (accept .receive State.reset).busy = true := rfl

theorem not_frame_of_length {len lcs : Byte} {body : List Byte} (h : body.length < 2) : sentByNoHost len lcs body := by
  intro p _ he
  have := congrArg List.length he
  simp [encode, frameBytes, frameHeader] at this
  omega

theorem not_frame_of_law {len lcs : Byte} {body : List Byte} (h : len + lcs ≠ 0) : sentByNoHost len lcs body := by
  intro p _ he
  simp only [encode, frameBytes, frameHeader, List.cons_append, List.cons.injEq] at he
  obtain ⟨-, -, -, h1, h2, -⟩ := he
  exact h (by rw [h1, h2]; exact add_neg8 _)

theorem test_witness_OperandsOutOfRangeAreRefused :
    ({ State.reset with clen := 255 } : State).busy = false ∧ 254 < (255 : BitVec 8).toNat ∧
    ({ State.reset with maxlen := 255, opsel := 3 } : State).opsel = 3 ∧ sentByNoHost 0x00 0x00 [] ∧
    goesOn [0x02] State.reset ∧ goesOn [0x14, 0x01, 0x14, 0x01] (aborting (exchanger 13 [])) ∧
    goesOn [0x4A, 0x01, 0x00] (aborting (exchanger 12 [])) :=
  ⟨rfl, by decide, rfl, not_frame_of_length (by decide), .inl rfl, .inr (by decide), .inr (by decide)⟩

theorem test_witness_HostWritesOnlyWhileIdle :
    (scheduled (.write (.cbuf 253 0x01))).inbox = .write (.cbuf 253 0x01) :: [] ∧ 253 < 254 ∧
    (scheduled (.write (.cbuf 254 0x01))).inbox = .write (.cbuf 254 0x01) :: [] ∧
    (scheduled (.write (.timeout 0xFFFF))).inbox = .write (.timeout 0xFFFF) :: [] := by decide

theorem test_witness_HostReadsResults :
    (scheduled (.read .busy)).inbox = .read .busy :: [] ∧
    ({ holding [0x15] with inbox := [.read (.pbuf 0)] } : State).busy = false ∧
    Memory.read (holding [0x15]).pbuf 0 = some 0x15 ∧
    Memory.read (Memory.write [] 253 0x15) 253 = some 0x15 ∧ 253 < 254 ∧
    (scheduled (.read (.pbuf 253))).inbox = .read (.pbuf 253) :: [] ∧
    (scheduled (.read (.pbuf 254))).inbox = .read (.pbuf 254) :: [] ∧
    ({ State.reset with busy := true, inbox := [.read .plen] } : State).busy = true ∧ HostRead.plen ≠ .busy := by decide

theorem test_witness_StatusTransactionReadsOneByte : (device (probe 0x01)).busy = false := rfl

theorem test_witness_WaitReadyProbesUntilReadyOrBudget :
    let s : State := { device (probe 0x00 ++ probe 0x01) with timeout := 10 }
    s.busy = false ∧ 1 ≤ s.timeout.toNat / 10 ∧ (∀ i, i < 1 → readyBit (statusAt s i) = false) ∧
    readyBit (statusAt s 1) = true ∧ (∀ i, i ≤ unready.timeout.toNat / 10 → readyBit (statusAt unready i) = false) := by
  decide

theorem test_witness_WaitReadyCompletesAndTouchesNothingElse : unready.busy = false := rfl

theorem test_witness_TimeoutsOfOneDecadeBehaveAlike :
    (9 : BitVec 16).toNat / 10 = unready.timeout.toNat / 10 ∧ exec .waitReady unready = .next (waitReady unready) ∧
    exec .awaitAck unready = .next (awaitAck unready) ∧ exec .receive unready = .next (receive unready) :=
  ⟨by decide, rfl, rfl, rfl⟩

/-- A block with the command `bytes` in `CBUF`. -/
def loaded (bytes : List Byte) : State :=
  { State.reset with cbuf := Memory.writeAll [] 0 bytes, clen := BitVec.ofNat 8 bytes.length }

theorem test_witness_EncodeSendEmitsExactlyTheFrame :
    (loaded [0x4A, 0x01, 0x00]).busy = false ∧ (loaded [0x4A, 0x01, 0x00]).clen.toNat ≤ 254 ∧
    [0x4A, 0x01, (0x00 : Byte)].length = (loaded [0x4A, 0x01, 0x00]).clen.toNat ∧
    holdsBytes (loaded [0x4A, 0x01, 0x00]).cbuf [0x4A, 0x01, 0x00] := by
  unfold holdsBytes; decide

theorem test_witness_EncodeSendCompletesAndKeepsBothLaws :
    (loaded []).busy = false ∧ (loaded []).clen.toNat ≤ 254 ∧ ({ loaded [] with clen := 254 } : State).clen.toNat ≤ 254 := by
  decide

theorem test_witness_EncodeSendTraceDependsOnlyOnTheCommand :
    let s := loaded [0x02]
    let u : State := { loaded [0x02, 0x03] with clen := 1, timeout := 7, ok := true }
    s.busy = false ∧ u.busy = false ∧ s.clen.toNat ≤ 254 ∧ u.clen = s.clen ∧ specified s.cbuf s.clen.toNat ∧
    ∀ i, i < s.clen.toNat → Memory.read u.cbuf i = Memory.read s.cbuf i := by
  unfold specified; decide

theorem test_witness_DataWriteTransactionCarriesTheCommand :
    (loaded [0x02]).busy = false ∧ (loaded [0x02]).clen.toNat ≤ 254 ∧
    specified (loaded [0x02]).cbuf (loaded [0x02]).clen.toNat := by
  unfold specified; decide

theorem test_witness_HostFrameIsSentAsItStands :
    State.reset.busy = false ∧ ([] : List Byte).length ≤ 254 ∧ (List.replicate 254 (0 : Byte)).length ≤ 254 :=
  ⟨rfl, Nat.zero_le _, List.length_replicate.le⟩

theorem test_witness_AwaitAckAcceptsExactlyThePattern :
    (readyDevice ackFrame).busy = false ∧ readyAtProbe (readyDevice ackFrame) 0 ∧ ackFrame.length = 6 ∧
    deviceGives (readyDevice ackFrame) (afterProbe 0) ackFrame ∧
    ([0x00, 0x00, 0xFF, 0x00, 0xFF, 0x01] : List Byte) ≠ ackFrame ∧
    deviceGives (readyDevice [0x00, 0x00, 0xFF, 0x00, 0xFF, 0x01]) (afterProbe 0) [0x00, 0x00, 0xFF, 0x00, 0xFF, 0x01] :=
  ⟨rfl, readyDevice_ready _, rfl, readyDevice_gives _, by decide, readyDevice_gives _⟩

theorem test_witness_AwaitAckTimesOutWithoutReading : unready.busy = false ∧ neverReady unready := by
  unfold neverReady; decide

theorem test_witness_AwaitAckCompletesAndTouchesNothingElse : State.reset.busy = false := rfl

theorem test_witness_AcknowledgmentFrameIsAccepted : (device [0x01]).busy = false := rfl

theorem test_witness_DataReadTransactionReadsWhatIsWanted :
    (∀ s ∈ [State.reset, { State.reset with opsel := 1 }, { State.reset with opsel := 2, maxlen := 255 },
      { State.reset with opsel := 3, maxlen := 254 }], s.busy = false ∧ (s.opsel = 3 → s.maxlen.toNat ≤ 254)) ∧
    (∀ x ∈ [(([0x00, 0x00, 0xFF, 0x02, 0xFF] : List Byte), (5, 0)), ([0x00, 0x00, 0xFF, 0x02, 0xFE, 0xD4], (6, 0)),
      ([0x00, 0x00, 0xFF, 0x00, 0x00, 0xD5], (6, 0)), ([0x00, 0x00, 0xFF, 0x03, 0xFD, 0xD5], (6, 0)),
      ([0x00, 0x00, 0xFF, 0x02, 0xFE, 0xD5, 0x15, 0x17], (8, 1)),
      ([0x00, 0x00, 0xFF, 0x02, 0xFE, 0xD5, 0x15, 0x16, 0x00], (9, 1))],
      (frameReads { device (gives x.1) with maxlen := 1 }, payloadReads { device (gives x.1) with maxlen := 1 }) =
        x.2) := by decide

theorem test_witness_ReceiveDeliversDeviceFramesAndRejectsHostFrames :
    let p : List Byte := List.replicate 254 0x5A
    (receiver 254 []).busy = false ∧ (receiver 254 []).maxlen.toNat ≤ 254 ∧ p.length ≤ (receiver 254 []).maxlen.toNat ∧
    readyAtProbe (receiver 254 (frameBytes 0xD5 p)) 0 ∧
    deviceGives (receiver 254 (frameBytes 0xD5 p)) (afterProbe 0) (frameBytes 0xD5 p) ∧
    deviceGives (receiver 0 (frameBytes 0xD4 [])) (afterProbe 0) (frameBytes 0xD4 []) :=
  ⟨rfl, by decide, List.length_replicate.le, receiver_ready _ _, receiver_gives _ _, receiver_gives _ _⟩

theorem test_witness_ReceiveDoesNotLookAtFramingBytes :
    let bytes : List Byte := [0xAA, 0xBB, 0xCC, lenOf [0x15], lcsOf (lenOf [0x15]), 0xD5] ++ [0x15] ++ [dcsOf 0xD5 [0x15], 0x77]
    (receiver 1 bytes).busy = false ∧ (receiver 1 bytes).maxlen.toNat ≤ 254 ∧
    [(0x15 : Byte)].length ≤ (receiver 1 bytes).maxlen.toNat ∧ readyAtProbe (receiver 1 bytes) 0 ∧
    deviceGives (receiver 1 bytes) (afterProbe 0) bytes :=
  ⟨rfl, by decide, by decide, receiver_ready _ _, receiver_gives _ _⟩

theorem test_witness_ReceiveStopsAtTheFirstFailedHeaderCheck :
    (∀ h ∈ [((0x06, 0xFB, 0xD4) : Byte × Byte × Byte), (0x06, 0xFA, 0xD4), (0x00, 0x00, 0xD5), (0x07, 0xF9, 0xD5)],
      readyAtProbe (receiver 5 [0x00, 0x00, 0xFF, h.1, h.2.1, h.2.2]) 0 ∧
      deviceGives (receiver 5 [0x00, 0x00, 0xFF, h.1, h.2.1, h.2.2]) (afterProbe 0) [0x00, 0x00, 0xFF, h.1, h.2.1, h.2.2]) ∧
    (0x06 + 0xFB : Byte) ≠ 0 ∧ (0x06 + 0xFA : Byte) = 0 ∧ (0xD4 : Byte) ≠ 0xD5 ∧ (0x07 + 0xF9 : Byte) = 0 ∧
    (5 : BitVec 8).toNat + 1 < (0x07 : Byte).toNat ∧ (5 : BitVec 8).toNat ≤ 254 :=
  ⟨fun _ _ => ⟨receiver_ready _ _, receiver_gives _ _⟩, by decide, by decide, by decide, by decide, by decide, by decide⟩

theorem test_witness_ReceiveRejectsABadDataChecksum :
    let bytes : List Byte := [0x00, 0x00, 0xFF, lenOf [0x15], lcsOf (lenOf [0x15]), 0xD5] ++ [0x15] ++ [0x17]
    (receiver 1 bytes).busy = false ∧ (receiver 1 bytes).maxlen.toNat ≤ 254 ∧
    [(0x15 : Byte)].length ≤ (receiver 1 bytes).maxlen.toNat ∧ readyAtProbe (receiver 1 bytes) 0 ∧
    (0xD5 + sum8 [0x15] + 0x17 : Byte) ≠ 0 ∧ deviceGives (receiver 1 bytes) (afterProbe 0) bytes :=
  ⟨rfl, by decide, by decide, receiver_ready _ _, by decide, receiver_gives _ _⟩

theorem test_witness_ReceiveDetectsSingleBitErrors :
    ∀ j ∈ [0, 2, 3, 4, 5, 6, 7, 8], j < [(0x15 : Byte)].length + 8 ∧
      readyAtProbe (receiver 1 (flipBit (frameBytes 0xD5 [0x15]) j 7)) 0 ∧
      deviceGives (receiver 1 (flipBit (frameBytes 0xD5 [0x15]) j 7)) (afterProbe 0)
        (flipBit (frameBytes 0xD5 [0x15]) j 7) ∧
      (receiver 1 (flipBit (frameBytes 0xD5 [0x15]) j 7)).busy = false ∧
      [(0x15 : Byte)].length ≤ (receiver 1 (flipBit (frameBytes 0xD5 [0x15]) j 7)).maxlen.toNat ∧
      (receiver 1 (flipBit (frameBytes 0xD5 [0x15]) j 7)).maxlen.toNat ≤ 254 := by
  intro j hj
  refine ⟨?_, receiver_ready _ _, receiver_gives _ _, rfl, by simp [receiver], by simp [receiver]⟩
  simp at hj ⊢; omega

theorem test_witness_ReceiveTimesOutWithoutReading :
    unready.busy = false ∧ unready.maxlen.toNat ≤ 254 ∧ neverReady unready := by
  unfold neverReady; decide

theorem test_witness_ReceiveCompletesAndTouchesNothingElse :
    (receiver 0 []).busy = false ∧ (receiver 0 []).maxlen.toNat ≤ 254 ∧ (receiver 254 []).maxlen.toNat ≤ 254 := by decide

theorem test_witness_DeviceFrameIsJudgedAsByReceive :
    (receiver 254 []).busy = false ∧ (receiver 254 []).maxlen.toNat ≤ 254 ∧ wfBody 0x00 [] = true ∧
    wfBody 0x02 [0x15, 0x16, 0x00] = true ∧ readyBit 0x01 = true := by decide

theorem test_witness_FrameThatNoHostSendsIsRejected :
    (receiver 254 []).busy = false ∧ (receiver 254 []).maxlen.toNat ≤ 254 ∧
    wfBody 0x00 [] = true ∧ sentByNoHost 0x00 0x00 [] ∧ (0x00 + 0x00 : Byte) = 0 ∧
    wfBody 0x01 [0x2C, 0x00] = true ∧ sentByNoHost 0x01 0xFE [0x2C, 0x00] ∧ (0x01 + 0xFE : Byte) ≠ 0 :=
  ⟨rfl, by decide, by decide, not_frame_of_length (by decide), by decide, by decide, not_frame_of_law (by decide),
    by decide⟩

theorem test_witness_FailureExitReleasesRecordsAndEnds :
    (Operation.receive ≠ .awaitAck) ∧ (Operation.awaitAck ≠ .receive) ∧ ({ State.reset with cs := true } : State).cs := by
  decide

theorem reset_inv : Inv State.reset :=
  inv_of_rest ⟨rfl, rfl, rfl⟩ rfl rfl rfl rfl (by simp [State.reset]) ⟨by decide, fun i h => absurd h (Nat.not_lt_zero i)⟩

theorem test_witness_StepKeepsTheInvariant : Inv State.reset ∧ step State.reset = .next State.reset := ⟨reset_inv, rfl⟩

theorem test_witness_IdleMeansReleasedAndWellShaped :
    Inv State.reset ∧ step State.reset = .next State.reset ∧ State.reset.busy = false := ⟨reset_inv, rfl, rfl⟩

theorem test_witness_OnlyTheHostWritesOperands :
    exec .ack State.reset = .next (judgeAck (readAck (withAnswers (encode .ack) State.reset))) ∧
    exec .respConfigureSecurityModule (holding [0x15]) = .next (recordSam true (holding [0x15])) ∧
    Instr.ack ≠ .getFirmwareVersion ∧ Instr.ack ≠ .configureSecurityModule ∧ Instr.ack ≠ .enumeratePassiveTarget ∧
    Instr.respConfigureSecurityModule ≠ .configureSecurityModule := ⟨rfl, rfl, by decide, by decide, by decide, by decide⟩

theorem test_witness_OkExactlyWhenErrIsNone :
    Instr.waitReady.format = .op ∧ exec .waitReady unready = .next (waitReady unready) ∧
    (Instr.frameD2h 0x00 0x00 []).format = .frame ∧ Instr.ack.format = .ack ∧
    exec (.frameD2h 0x00 0x00 []) State.reset =
      .next (frameJudged (encode (.frameD2h 0x00 0x00 [])) State.reset) := ⟨rfl, rfl, rfl, rfl, rfl⟩

theorem test_witness_TraceOnlyGrows :
    step (scheduled (.word .marker [0x02])) = .next (statusProbe State.reset) := rfl

theorem test_witness_SequencerRefinesEveryOperation :
    exec Operation.encodeSend.instr (loaded [0x02]) = .next (encodeSend (loaded [0x02])) := rfl

theorem test_witness_EveryAcceptedOperationEnds :
    operandsLegal .receive { State.reset with maxlen := 254, timeout := 0xFFFF } = true ∧
    operandsLegal .encodeSend { State.reset with clen := 254 } = true ∧ operandsLegal .waitReady State.reset = true := by
  decide

theorem test_witness_SequencesSendTheirCommandFirst :
    ofNext (exec .getFirmwareVersion (exchanger 10 firmwareFrame)) (fun _ => true) = some true ∧
    ofNext (exec .configureSecurityModule (exchanger 13 firmwareFrame)) (fun _ => true) = some true ∧
    ofNext (exec .enumeratePassiveTarget (exchanger 12 targetFrame)) (fun _ => true) = some true ∧
    State.reset.host.params.samMode = 0x01 ∧ State.reset.host.params.samIrq = 0x01 ∧
    State.reset.host.params.cardType = 0x00 := by decide

theorem test_witness_SequencesLeaveTheirOperandsAndTheBlockAtRest :
    ofNext (exec .getFirmwareVersion (exchanger 10 firmwareFrame)) (fun _ => true) = some true ∧
    ofNext (exec .configureSecurityModule (unanswered 13)) (fun _ => true) = some true ∧
    ofNext (exec .enumeratePassiveTarget (aborting (exchanger 12 targetFrame))) (fun _ => true) = some true ∧
    goesOn [0x02] (exchanger 10 firmwareFrame) ∧ ¬ goesOn [0x14, 0x01, 0x14, 0x01] (unanswered 13) ∧
    goesOn [0x4A, 0x01, 0x00] (aborting (exchanger 12 targetFrame)) := by
  unfold goesOn; decide

theorem test_witness_FirmwareQueryReturnsTheVersionWord :
    ∀ s ∈ [exchanger 10 firmwareFrame, aborting (exchanger 10 firmwareFrame)],
    s.busy = false ∧ goesOn [0x02] s ∧ s.host.params.maxlenFw.toNat ≤ 254 ∧
    ([] : List Byte).length + 5 ≤ s.host.params.maxlenFw.toNat ∧
    deliversFrame (receiveBegins [0x02] s.host.params.maxlenFw s) 0 [0x03, 0x32, 0x01, 0x06, 0x07] := by
  unfold goesOn deliversFrame readyAtProbe deviceGives; decide

theorem test_witness_FirmwareQueryFailureIsZero :
    let s := exchanger 10 (frameBytes 0xD4 [0x02])
    s.busy = false ∧ ErrKind.unexpectedDirection ≠ .none ∧
    exchange [0x02] s.host.params.maxlenFw s =
      .ok (.unexpectedDirection, receive (receiveBegins [0x02] s.host.params.maxlenFw s)) := by
  refine ⟨rfl, by decide, ?_⟩
  rw [exchange_goesOn (by decide) (.inl rfl)]
  rw [show (receive (receiveBegins [0x02] _ (exchanger 10 (frameBytes 0xD4 [0x02])))).ok = false by decide,
    show (receive (receiveBegins [0x02] _ (exchanger 10 (frameBytes 0xD4 [0x02])))).err = .unexpectedDirection by decide]
  rfl

theorem test_witness_SecurityModuleSequenceReportsTheExchange :
    (exchanger 13 []).busy = false ∧ (exchanger 13 []).host.params.maxlenSam.toNat ≤ 254 ∧
    goesOn [0x14, 0x01, 0x14, 0x01] (aborting (exchanger 13 [])) ∧ (unanswered 13).busy = false ∧
    ¬ goesOn [0x14, 0x01, 0x14, 0x01] (unanswered 13) := by
  unfold goesOn; decide

theorem test_witness_EnumerationFindsTheTarget :
    ∀ s ∈ [exchanger 12 targetFrame, aborting (exchanger 12 targetFrame)],
    s.busy = false ∧ goesOn [0x4A, 0x01, s.host.params.cardType] s ∧ s.host.params.maxlenEnum.toNat ≤ 254 ∧
    (0x04 : Byte).toNat ≤ 7 ∧ [0x04, 0x9A, 0x3C, (0x7F : Byte)].length = (0x04 : Byte).toNat ∧
    7 + 4 + 0 ≤ s.host.params.maxlenEnum.toNat ∧
    deliversFrame (receiveBegins [0x4A, 0x01, s.host.params.cardType] s.host.params.maxlenEnum s) 0
      ([0x4B, 0x01, 0x01, 0x00, 0x44, 0x00, 0x04] ++ [0x04, 0x9A, 0x3C, 0x7F] ++ []) := by
  unfold goesOn deliversFrame readyAtProbe deviceGives; decide

theorem test_witness_EnumerationReportsNoTarget :
    (∀ x ∈ [(delivering 12 [0x4A], [(0x4A : Byte)]), (aborting (delivering 12 [0x4B, 0x02]), [0x4B, 0x02])],
      x.1.busy = false ∧ goesOn [0x4A, 0x01, x.1.host.params.cardType] x.1 ∧
      x.1.host.params.maxlenEnum.toNat ≤ 254 ∧ x.2.length ≤ x.1.host.params.maxlenEnum.toNat ∧
      deliversFrame (receiveBegins [0x4A, 0x01, x.1.host.params.cardType] x.1.host.params.maxlenEnum x.1) 0 x.2) ∧
    (0x4A : Byte) ≠ 0x4B ∧ (0x02 : Byte) ≠ 0x01 := by
  unfold goesOn deliversFrame readyAtProbe deviceGives; decide

/-- Its second clause: an exchange that RECEIVE ends with a kind, and one that ABORT ends. -/
theorem test_witness_EnumerationReportsNoTarget_error :
    exchange [0x4A, 0x01, 0x00] 14 (exchanger 12 (frameBytes 0xD4 [0x4B, 0x01])) =
      .ok (.unexpectedDirection, receive (receiveBegins [0x4A, 0x01, 0x00] 14 (exchanger 12 (frameBytes 0xD4 [0x4B, 0x01])))) ∧
    exchange [0x4A, 0x01, 0x00] 14 (unanswered 12) = .ok (.timeout, sendAndAwait [0x4A, 0x01, 0x00] (unanswered 12)) := by
  constructor
  · rw [exchange_goesOn (by decide) (.inl rfl)]
    rw [show (receive (receiveBegins [0x4A, 0x01, 0x00] 14 (exchanger 12 (frameBytes 0xD4 [0x4B, 0x01])))).ok = false by decide,
      show (receive (receiveBegins [0x4A, 0x01, 0x00] 14 (exchanger 12 (frameBytes 0xD4 [0x4B, 0x01])))).err =
        .unexpectedDirection by decide]
    rfl
  · rw [exchange_aborted (by unfold goesOn; decide)]
    rw [show (sendAndAwait [0x4A, 0x01, 0x00] (unanswered 12)).err = .timeout by decide]

theorem test_witness_MeaninglessResponsesFaultTheRun :
    (∀ x ∈ [(delivering 10 [], ([] : List Byte)), (aborting (delivering 10 [0x03, 0x32, 0x01, 0x06]), [0x03, 0x32, 0x01, 0x06])],
      x.1.busy = false ∧ goesOn [0x02] x.1 ∧ x.1.host.params.maxlenFw.toNat ≤ 254 ∧
      x.2.length ≤ x.1.host.params.maxlenFw.toNat ∧ x.2.length < 5 ∧
      deliversFrame (receiveBegins [0x02] x.1.host.params.maxlenFw x.1) 0 x.2) := by
  unfold goesOn deliversFrame readyAtProbe deviceGives; decide

/-- Its second clause, at both ends of each range: empty, `4B`, `4B 01`, `4B 01` and four bytes more, `L = 8`, and
`L = 7` with six bytes. -/
theorem test_witness_MeaninglessResponsesFaultTheRun_enumeration :
    (∀ p ∈ [[], [0x4B], [0x4B, 0x01] ++ [], [0x4B, 0x01] ++ [0x01, 0x00, 0x44, 0x00],
        [0x4B, 0x01, 0x01, 0x00, 0x44, 0x00, 0x08] ++ [],
        [0x4B, 0x01, 0x01, 0x00, 0x44, 0x00, 0x07] ++ [(1 : Byte), 2, 3, 4, 5, 6]],
      (delivering 12 p).busy = false ∧ goesOn [0x4A, 0x01, 0x00] (delivering 12 p) ∧
      p.length ≤ (delivering 12 p).host.params.maxlenEnum.toNat ∧
      deliversFrame (receiveBegins [0x4A, 0x01, 0x00] (delivering 12 p).host.params.maxlenEnum (delivering 12 p)) 0 p) ∧
    goesOn [0x4A, 0x01, 0x00] (aborting (delivering 12 [0x4B])) ∧ 7 < (0x08 : Byte).toNat ∧
    [(1 : Byte), 2, 3, 4, 5, 6].length < (0x07 : Byte).toNat := by
  unfold goesOn deliversFrame readyAtProbe deviceGives; decide

theorem test_witness_HandshakePolicyDecidesTheExchange :
    firmwareCommand.length ≤ 254 ∧ (5 : BitVec 8).toNat ≤ 254 ∧
    (unanswered 10).host.params.ackPolicy = .abort ∧ (sendAndAwait firmwareCommand (unanswered 10)).ok = false ∧
    (sendAndAwait firmwareCommand (aborting (exchanger 10 firmwareFrame))).ok = true ∧
    State.reset.host.params.ackPolicy = .continue := by decide

theorem test_witness_FirmwareResponseIsReadBigEndian :
    let s := holding [0x03, 0x32, 0x01, 0x06, 0x07]
    s.busy = false ∧ 5 ≤ s.plen.toNat ∧ holdsBytes s.pbuf [0x03, 0x32, 0x01, 0x06, 0x07] ∧
    (holding [0x03, 0x32, 0x01, 0x06]).plen.toNat < 5 := by
  unfold holdsBytes; decide

theorem test_witness_SecurityModuleResponseIsNotLookedAt : (holding [0x15]).busy = false := rfl

theorem test_witness_EnumerationResponseIsValidated :
    let found := holding ([0x4B, 0x01, 0x01, 0x00, 0x44, 0x00, 0x07] ++ [1, 2, 3, 4, 5, 6, 7])
    let long := holding [0x4B, 0x01, 0x01, 0x00, 0x44, 0x00, 0x08]
    let cut := holding ([0x4B, 0x01, 0x01, 0x00, 0x44, 0x00, 0x07] ++ [1, 2, 3, 4, 5, 6])
    let short := holding [0x4B, 0x01, 0x01, 0x00, 0x44, 0x00]
    found.busy = false ∧ 7 + (0x07 : Byte).toNat ≤ found.plen.toNat ∧
    holdsBytes found.pbuf ([0x4B, 0x01, 0x01, 0x00, 0x44, 0x00, 0x07] ++ [1, 2, 3, 4, 5, 6, 7]) ∧
    1 ≤ (holding [0x4A]).plen.toNat ∧ holdsBytes (holding [0x4A]).pbuf [0x4A] ∧
    2 ≤ (holding [0x4B, 0x00]).plen.toNat ∧ holdsBytes (holding [0x4B, 0x00]).pbuf [0x4B, 0x00] ∧
    State.reset.plen.toNat = 0 ∧ (holding [0x4B]).plen.toNat = 1 ∧ holdsBytes (holding [0x4B]).pbuf [0x4B] ∧
    2 ≤ (holding [0x4B, 0x01]).plen.toNat ∧ holdsBytes (holding [0x4B, 0x01]).pbuf [0x4B, 0x01] ∧
    short.plen.toNat < 7 ∧ holdsBytes short.pbuf [0x4B, 0x01] ∧
    7 < (0x08 : Byte).toNat ∧ 7 ≤ long.plen.toNat ∧ holdsBytes long.pbuf [0x4B, 0x01, 0x01, 0x00, 0x44, 0x00, 0x08] ∧
    cut.plen.toNat < 7 + (0x07 : Byte).toNat ∧ holdsBytes cut.pbuf [0x4B, 0x01, 0x01, 0x00, 0x44, 0x00, 0x07] := by
  unfold holdsBytes; decide

end Sys2Proof.Tests
end

section
/-! Proofs of the family 10_state.md: the reset values (R48), acceptance and refusal of a request (R43), and the codes
of `ERR` (R35). -/

namespace Sys2Proof.Machine

/-! What the head of the schedule does. -/

theorem step_of_inbox_cons {s : State} {inp : Input} {rest : List Input} (h : s.inbox = inp :: rest) :
    step s = land inp { s with inbox := rest } := by
  simp only [step, h]

/-! The guards on the operands, where they let a meaning run and where they refuse it (R43). -/

theorem whenIdle_of_busy {s : State} {k} (hb : s.busy = true) : whenIdle s k = .refused .requestWhileBusy := by
  simp only [whenIdle, hb, if_true]

theorem whenClenLegal_of_legal {s : State} {k} (h : clenLegal s = true) : whenClenLegal s k = k := by
  simp only [whenClenLegal, h, if_true]

theorem whenClenLegal_of_over {s : State} {k} (h : 254 < s.clen.toNat) :
    whenClenLegal s k = .refused .clenOutOfRange :=
  if_neg (mt (clenLegal_iff s).1 (Nat.not_le.2 h))

theorem whenMaxlenLegal_of_legal {s : State} {k} (h : maxlenLegal s = true) : whenMaxlenLegal s k = k := by
  simp only [whenMaxlenLegal, h, if_true]

theorem whenMaxlenLegal_of_over {s : State} {k} (h : 254 < s.maxlen.toNat) :
    whenMaxlenLegal s k = .refused .maxlenOutOfRange :=
  if_neg (mt (maxlenLegal_iff s).1 (Nat.not_le.2 h))

/-! A request (R43). -/

@[simp] theorem Operation.ofCode_code (op : Operation) : Operation.ofCode op.code = op := by
  cases op <;> rfl

theorem request_of_busy {s : State} (hb : s.busy = true) : request s = .refused .requestWhileBusy :=
  whenIdle_of_busy hb

theorem request_of_legal {s : State} (op : Operation) (hb : s.busy = false) (hop : s.opsel = op.code)
    (hl : operandsLegal op s = true) : request s = .next (accept op s) := by
  rw [request, whenIdle_of_idle hb, hop, Operation.ofCode_code]
  cases op with
  | waitReady => rfl
  | encodeSend => exact whenClenLegal_of_legal hl
  | awaitAck => rfl
  | receive => exact whenMaxlenLegal_of_legal hl

theorem request_of_clen_over {s : State} (hb : s.busy = false) (hop : s.opsel = Operation.encodeSend.code)
    (hc : 254 < s.clen.toNat) : request s = .refused .clenOutOfRange := by
  rw [request, whenIdle_of_idle hb, hop, Operation.ofCode_code]
  exact whenClenLegal_of_over hc

theorem request_of_maxlen_over {s : State} (hb : s.busy = false) (hop : s.opsel = Operation.receive.code)
    (hm : 254 < s.maxlen.toNat) : request s = .refused .maxlenOutOfRange := by
  rw [request, whenIdle_of_idle hb, hop, Operation.ofCode_code]
  exact whenMaxlenLegal_of_over hm

/-- Settles O8: the step is `request`, and `request` accepts legal operands and refuses in the three cases. -/
theorem requestIsAcceptedOrRefused : Obligations.RequestIsAcceptedOrRefused := by
  intro s rest hin
  rw [step_of_inbox_cons hin]
  refine ⟨fun hb => ?busy, fun hb hop => ?waitReady, fun hb hop hc => ?clenOver, fun hb hop hc => ?encodeSend,
    fun hb hop => ?awaitAck, fun hb hop hm => ?maxlenOver, fun hb hop hm => ?receive⟩
  case busy => exact request_of_busy hb
  case waitReady => exact request_of_legal .waitReady hb hop rfl
  case clenOver => exact request_of_clen_over hb hop hc
  case encodeSend => exact request_of_legal .encodeSend hb hop ((clenLegal_iff _).2 hc)
  case awaitAck => exact request_of_legal .awaitAck hb hop rfl
  case maxlenOver => exact request_of_maxlen_over hb hop hm
  case receive => exact request_of_legal .receive hb hop ((maxlenLegal_iff _).2 hm)

/-! Reset (R48) and the codes of `ERR` (R35). -/

@[simp] theorem Memory.read_nil (i : Nat) : Memory.read [] i = none := rfl

/-- Settles O6: the reset state gives each register its value of R48, and lists no byte in any of the three buffers. -/
theorem resetLeavesTheBlockIdleAndReleased : Obligations.ResetLeavesTheBlockIdleAndReleased :=
  ⟨rfl, rfl, rfl, rfl, rfl, rfl, fun i => ⟨Memory.read_nil i, Memory.read_nil i, Memory.read_nil i⟩⟩

theorem ErrKind.code_toNat_le (e : ErrKind) : e.code.toNat ≤ 5 := by
  cases e <;> decide

theorem ErrKind.code_ne_of_five_lt (e : ErrKind) {c : BitVec 3} (hc : 5 < c.toNat) : e.code ≠ c := by
  rintro rfl
  exact absurd e.code_toNat_le (Nat.not_le.2 hc)

/-- Settles O13: the six codes are those of the table of R35, and no code is above 5. -/
theorem errorCodesAreZeroToFive : Obligations.ErrorCodesAreZeroToFive :=
  ⟨rfl, rfl, rfl, rfl, rfl, rfl,
    fun e => ⟨e.code_ne_of_five_lt (by decide), e.code_ne_of_five_lt (by decide)⟩⟩

end Sys2Proof.Machine
end

section
/-! Proofs of the family 44_frame_decoder.md: RECEIVE whose wait ends without readiness (R174). -/

namespace Sys2Proof.Machine

/-- RECEIVE of an idle block with a legal `MAXLEN` runs (R43). -/
theorem exec_receive_of_legal {s : State} (hb : s.busy = false) (hm : s.maxlen.toNat ≤ 254) :
    exec .receive s = .next (receive s) := by
  show whenIdle s (whenMaxlenLegal s (.next (receive s))) = _
  rw [whenIdle_of_idle hb, whenMaxlenLegal_of_legal ((maxlenLegal_iff s).2 hm)]

/-- A wait that no probe ends records all the probes of its budget, `TIMEOUT / 10 + 1`, and nothing else (R133). -/
theorem timedOutState_trace (s : State) :
    (timedOutState s).trace = s.trace ++ waitEvents (statuses s (s.timeout.toNat / 10 + 1)) := rfl

/-- The trace of a RECEIVE that times out is that of its one wait: no read transaction follows it (R174). -/
theorem receive_trace_of_neverReady {s : State} (h : neverReady s) :
    (receive s).trace = s.trace ++ waitEvents (statuses s (s.timeout.toNat / 10 + 1)) := by
  rw [receive_never h, ← timedOutState_trace]

/-- A RECEIVE that times out ends in kind Timeout, and the payload is released (R174, R236). -/
theorem receive_results_of_neverReady {s : State} (h : neverReady s) :
    failedWith .timeout (receive s) ∧ payloadLost (receive s) := by
  rw [receive_never h]
  exact ⟨⟨rfl, rfl⟩, rfl, Memory.read_nil⟩

/-- Settles O33: the instruction runs `receive`, whose wait ends without readiness, so `receive` raises Timeout on what
that wait leaves. -/
theorem receiveTimesOutWithoutReading : Obligations.ReceiveTimesOutWithoutReading := by
  intro s hb hm hn
  obtain ⟨hfail, hlost⟩ := receive_results_of_neverReady hn
  exact ⟨receive s, exec_receive_of_legal hb hm, receive_rest s, hfail, hlost, receive_trace_of_neverReady hn⟩

end Sys2Proof.Machine
end

section
/-! Proofs of the family 45_command_session.md: a firmware query whose exchange fails (R205). -/

namespace Sys2Proof.Machine

/-- The firmware query reads no response where its exchange ends in an error kind: it records the sentinel (R205). -/
theorem exec_getFirmwareVersion_of_failed {s u : State} {e : ErrKind} (hb : s.busy = false)
    (hx : exchange firmwareCommand s.host.params.maxlenFw s = .ok (e, u)) (he : e ≠ .none) :
    exec .getFirmwareVersion s = .next (versionUnknown u) := by
  show execGetFirmwareVersion s = _
  rw [execGetFirmwareVersion, whenIdle_of_idle hb, hx]
  cases e with
  | none => exact absurd rfl he
  | timeout | checksumMismatch | unexpectedDirection | bufferTooSmall | handshakeMismatch => rfl

/-- Settles O49: the query records the sentinel in the state the exchange leaves, and `exchange_host` says that the
exchange leaves the host's data as they were. -/
theorem firmwareQueryFailureIsZero : Obligations.FirmwareQueryFailureIsZero := by
  intro s u e hb hx he
  have hhost : u.host = s.host := (exchange_host (by decide) hx).1
  refine ⟨versionUnknown u, exec_getFirmwareVersion_of_failed hb hx he, ?_⟩
  rw [versionUnknown, hhost]

end Sys2Proof.Machine
end

section
/-! Proofs of the family 60_exceptions.md: everything the failure exit does (R236). `raise_eq` says once what it writes;
each lemma here reads one part of the obligation off it. -/

namespace Sys2Proof.Machine

theorem raise_rest (op : Operation) (e : ErrKind) (s : State) : atRest (raise op e s) := by
  rw [raise_eq]; exact ⟨rfl, rfl, rfl⟩

theorem raise_failedWith (op : Operation) (e : ErrKind) (s : State) : failedWith e (raise op e s) := by
  rw [raise_eq]; exact ⟨rfl, rfl⟩

theorem raise_trace (op : Operation) (e : ErrKind) (s : State) :
    (raise op e s).trace = s.trace ++ (if s.cs then [.csRelease] else []) := by
  rw [raise_eq]

theorem raise_receive_payloadLost (e : ErrKind) (s : State) : payloadLost (raise .receive e s) := by
  rw [raise_eq]; exact ⟨rfl, Memory.read_nil⟩

theorem raise_payloadKept {op : Operation} (h : op ≠ .receive) (e : ErrKind) (s : State) :
    payloadKept s (raise op e s) := by
  rw [raise_eq, if_neg h, if_neg h]; exact ⟨rfl, fun _ => rfl⟩

theorem raise_abufKept {op : Operation} (h : op ≠ .awaitAck) (e : ErrKind) (s : State) :
    abufKept s (raise op e s) := by
  rw [raise_eq, if_neg h]; exact fun _ => rfl

/-- The working registers, the counters of the bus, the device's answers, the free values and the host's data are no
part of what the failure exit writes. -/
theorem raise_frame (op : Operation) (e : ErrKind) (s : State) :
    decoderKept s (raise op e s) ∧ frameWorkKept s (raise op e s) ∧ pollerKept s (raise op e s) ∧
    (raise op e s).idx = s.idx ∧ (raise op e s).xfers = s.xfers ∧ (raise op e s).rx = s.rx ∧
    (raise op e s).draws = s.draws ∧ hostKept s (raise op e s) := by
  rw [raise_eq]
  exact ⟨⟨rfl, rfl⟩, ⟨rfl, rfl⟩, ⟨rfl, rfl⟩, rfl, rfl, rfl, rfl, rfl, rfl⟩

/-- Settles O37: what the exit writes is its rest, results and trace, and `PLEN`, `PBUF`, `ABUF` by the operation;
`raise_keeps` and `raise_frame` say that the rest of the state is left alone. -/
theorem failureExitReleasesRecordsAndEnds : Obligations.FailureExitReleasesRecordsAndEnds := by
  intro op e s
  refine ⟨raise_rest op e s, raise_failedWith op e s, raise_trace op e s, ?lost, fun h => raise_payloadKept h e s,
    fun h => raise_abufKept h e s, (raise_keeps op e s).operands, raise_frame op e s⟩
  case lost =>
    rintro rfl
    exact raise_receive_payloadLost e s

end Sys2Proof.Machine
end

section
/-! Proofs of the family 30_encoding.md: the decoder and the encoder are inverse to each other, and the host's frames
follow the layout of R91 and the two checksum laws. -/

namespace Sys2Proof

/-! Decoding what was encoded (O1). -/

theorem decodeBody_append (make : Byte → Byte → List Byte → Instr) {len lcs : Byte} {body : List Byte}
    (h : wfBody len body = true) (rest : List Byte) :
    decodeBody make len lcs (body ++ rest) = .ok (make len lcs body) := by
  have hl : body.length = bodyLength len := of_decide_eq_true h
  rw [decodeBody, if_neg (by rw [List.length_append]; omega), ← hl, List.take_left]

/-- A frame that begins with the fixed header bytes is told apart by its direction byte (R93, R96). -/
theorem decodeFrame_header (len lcs dir : Byte) (rest : List Byte) :
    decodeFrame (frameHeader len lcs dir ++ rest) =
      if dir = Config.dirH2d then decodeBody .frameH2d len lcs rest
      else if dir = Config.dirD2h then decodeBody .frameD2h len lcs rest else .error .direction := by
  simp only [frameHeader, List.cons_append, List.nil_append, decodeFrame, ne_eq, not_true_eq_false, or_self, if_false]

theorem decodeFrame_frameH2d {len lcs : Byte} {body : List Byte} (h : wfBody len body = true) (rest : List Byte) :
    decodeFrame (encode (.frameH2d len lcs body) ++ rest) = .ok (.frameH2d len lcs body) := by
  rw [encode, List.append_assoc, decodeFrame_header, if_pos rfl, decodeBody_append _ h]

theorem decodeFrame_frameD2h {len lcs : Byte} {body : List Byte} (h : wfBody len body = true) (rest : List Byte) :
    decodeFrame (encode (.frameD2h len lcs body) ++ rest) = .ok (.frameD2h len lcs body) := by
  rw [encode, List.append_assoc, decodeFrame_header, if_neg (by decide), if_pos rfl, decodeBody_append _ h]

/-- Settles O1: a frame is read back by its direction byte and the length of its body; every other word is fixed, and
its decoder reads no byte beyond it. -/
theorem decodeOfEncodeIsTheInstruction : Obligations.DecodeOfEncodeIsTheInstruction := by
  intro i rest hwf
  cases i with
  | frameH2d len lcs body => exact decodeFrame_frameH2d hwf rest
  | frameD2h len lcs body => exact decodeFrame_frameD2h hwf rest
  | waitReady | encodeSend | awaitAck | receive => rfl
  | markerDataWrite | markerStatusRead | markerDataRead | ack => rfl
  | getFirmwareVersion | configureSecurityModule | enumeratePassiveTarget => rfl
  | respFirmwareVersion | respConfigureSecurityModule | respEnumeratePassiveTarget => rfl

/-! Encoding what was decoded (O2). -/

/-- `i` is a well-formed instruction of format `f`, and `bytes` begin with its word. -/
def BeginsWith (f : Format) (i : Instr) (bytes : List Byte) : Prop :=
  i.format = f ∧ i.wellFormed = true ∧ ∃ rest, bytes = encode i ++ rest

theorem beginsWith_decodeOp {b : Byte} {i : Instr} (h : decodeOp b = .ok i) (bs : List Byte) :
    BeginsWith .op i (b :: bs) := by
  rw [decodeOp] at h
  split at h
  case isFalse => cases h
  case isTrue hb =>
    cases h
    have hcase : b = 0 ∨ b = 1 ∨ b = 2 ∨ b = 3 := by bv_omega
    rcases hcase with rfl | rfl | rfl | rfl <;> exact ⟨rfl, rfl, bs, rfl⟩

theorem beginsWith_decodeMarker {b : Byte} {i : Instr} (h : decodeMarker b = .ok i) (bs : List Byte) :
    BeginsWith .marker i (b :: bs) := by
  simp only [decodeMarker] at h
  repeat'
    split at h
    next hb => cases h; exact ⟨rfl, rfl, bs, by rw [hb]; rfl⟩
  cases h

theorem beginsWith_decodeCmd {b : Byte} {i : Instr} (h : decodeCmd b = .ok i) (bs : List Byte) :
    BeginsWith .cmd i (b :: bs) := by
  simp only [decodeCmd] at h
  repeat'
    split at h
    next hb => cases h; exact ⟨rfl, rfl, bs, by rw [hb]; rfl⟩
  cases h

theorem decodeBody_eq_ok {make : Byte → Byte → List Byte → Instr} {len lcs : Byte} {rest : List Byte} {i : Instr}
    (h : decodeBody make len lcs rest = .ok i) :
    ∃ body tail, i = make len lcs body ∧ wfBody len body = true ∧ rest = body ++ tail := by
  rw [decodeBody] at h
  split at h
  case isTrue => cases h
  case isFalse hl =>
    cases h
    refine ⟨rest.take (bodyLength len), rest.drop (bodyLength len), rfl, decide_eq_true ?_, ?_⟩
    · rw [List.length_take]; omega
    · rw [List.take_append_drop]

theorem beginsWith_decodeFrame {bytes : List Byte} {i : Instr} (h : decodeFrame bytes = .ok i) :
    BeginsWith .frame i bytes := by
  unfold decodeFrame at h
  split at h
  case h_2 => cases h
  case h_1 pre start1 start2 len lcs dir rest =>
    split at h
    case isTrue => cases h
    case isFalse hhead =>
      simp only [not_or, not_not] at hhead
      obtain ⟨rfl, rfl, rfl⟩ := hhead
      split at h
      case isTrue hd =>
        obtain ⟨body, tail, rfl, hwf, rfl⟩ := decodeBody_eq_ok h
        exact ⟨rfl, hwf, tail, by rw [hd]; rfl⟩
      split at h
      case isTrue hd =>
        obtain ⟨body, tail, rfl, hwf, rfl⟩ := decodeBody_eq_ok h
        exact ⟨rfl, hwf, tail, by rw [hd]; rfl⟩
      case isFalse => cases h

theorem beginsWith_decodeAck {bytes : List Byte} {i : Instr} (h : decodeAck bytes = .ok i) :
    BeginsWith .ack i bytes := by
  simp only [decodeAck] at h
  split at h
  case isTrue => cases h
  split at h
  case isFalse => cases h
  case isTrue hp =>
    cases h
    refine ⟨rfl, rfl, bytes.drop Config.ackPattern.length, ?_⟩
    have hsplit := List.take_append_drop Config.ackPattern.length bytes
    rw [hp] at hsplit
    exact hsplit.symm

/-- A one-byte word is read from the first byte, whatever stands after it. -/
theorem decodeFirst_eq_ok {decodeByte : Byte → Except Reject Instr} {bytes : List Byte} {i : Instr}
    (h : decodeFirst decodeByte bytes = .ok i) : ∃ b bs, bytes = b :: bs ∧ decodeByte b = .ok i := by
  cases bytes with
  | nil => cases h
  | cons b bs => exact ⟨b, bs, rfl, h⟩

/-- Settles O2: one lemma for each of the five decoders. -/
theorem decodedWordBeginsWithItsEncoding : Obligations.DecodedWordBeginsWithItsEncoding := by
  intro f bytes i h
  cases f with
  | op =>
    obtain ⟨b, bs, rfl, hb⟩ := decodeFirst_eq_ok h
    exact beginsWith_decodeOp hb bs
  | marker =>
    obtain ⟨b, bs, rfl, hb⟩ := decodeFirst_eq_ok h
    exact beginsWith_decodeMarker hb bs
  | cmd =>
    obtain ⟨b, bs, rfl, hb⟩ := decodeFirst_eq_ok h
    exact beginsWith_decodeCmd hb bs
  | frame => exact beginsWith_decodeFrame h
  | ack => exact beginsWith_decodeAck h

/-! Words of the spec, and the frames the host sends. -/

/-- Settles O3: the decoder is run on each of the nine words. -/
theorem specWordsDecode : Obligations.SpecWordsDecode := by
  unfold Obligations.SpecWordsDecode
  decide

/-- What stands after `DIR` in the frame of a payload is as long as its `LEN` announces (R91, R94). -/
theorem wfBody_payload {payload : List Byte} (h : payload.length ≤ Config.cmdMax) (dcs post : Byte) :
    wfBody (lenOf payload) (payload ++ [dcs, post]) = true :=
  decide_eq_true (by rw [bodyLength_lenOf h, List.length_append]; rfl)

/-- The frame `F(0xD4, P)` is the word of the FRAME_H2D instruction with its fields (R91). -/
theorem frameBytes_eq_encode (payload : List Byte) :
    frameBytes Config.dirH2d payload = encode (.frameH2d (lenOf payload) (lcsOf (lenOf payload))
      (payload ++ [dcsOf Config.dirH2d payload, Config.postamble])) := by
  rw [frameBytes, encode, List.append_assoc]

/-- Settles O4: the fields of the frame are `lenOf`, `lcsOf` and `dcsOf`, the two checksums solve their laws, and the
decoder reads the frame as the instruction whose word it is. -/
theorem hostFramesFollowTheLayoutAndBothLaws : Obligations.HostFramesFollowTheLayoutAndBothLaws := by
  intro payload hlen
  refine ⟨lenOf payload, lcsOf (lenOf payload), dcsOf 0xD4 payload, Machine.frameBytes_eq payload 0xD4,
    lenOf_toNat hlen, add_neg8 _, add_neg8 _, ?_⟩
  have hdecode := decodeFrame_frameH2d (lcs := lcsOf (lenOf payload))
    (wfBody_payload hlen (dcsOf Config.dirH2d payload) Config.postamble) []
  rw [← frameBytes_eq_encode, List.append_nil] at hdecode
  exact hdecode

end Sys2Proof
end

section
/-! Support for every family below: for each row of the opcode table, when it answers with a next state and with which.
Later proofs go through these equivalences and do not unfold `exec`. -/

namespace Sys2Proof.Machine

variable {s t : State}

/-! The guards. -/

theorem whenIdle_eq_next {k} : whenIdle s k = .next t ↔ s.busy = false ∧ k = .next t :=
  ⟨whenIdle_next, fun ⟨hb, hk⟩ => (whenIdle_of_idle hb).trans hk⟩

theorem whenClenLegal_eq_next {k} : whenClenLegal s k = .next t ↔ s.clen.toNat ≤ 254 ∧ k = .next t :=
  ⟨whenClenLegal_next, fun ⟨hc, hk⟩ => (whenClenLegal_of_legal ((clenLegal_iff s).2 hc)).trans hk⟩

theorem whenMaxlenLegal_eq_next {k} : whenMaxlenLegal s k = .next t ↔ s.maxlen.toNat ≤ 254 ∧ k = .next t :=
  ⟨whenMaxlenLegal_next, fun ⟨hm, hk⟩ => (whenMaxlenLegal_of_legal ((maxlenLegal_iff s).2 hm)).trans hk⟩

theorem next_eq_next {u : State} : (.next u : Host.Outcome State Fault Refusal) = .next t ↔ t = u :=
  ⟨fun h => by cases h; rfl, fun h => by rw [h]⟩

theorem whenIdle_next_eq_next {u : State} : whenIdle s (.next u) = .next t ↔ s.busy = false ∧ t = u := by
  rw [whenIdle_eq_next, next_eq_next]

theorem whenIdle_maxlen_eq_next {u : State} :
    whenIdle s (whenMaxlenLegal s (.next u)) = .next t ↔ s.busy = false ∧ s.maxlen.toNat ≤ 254 ∧ t = u := by
  rw [whenIdle_eq_next, whenMaxlenLegal_eq_next, next_eq_next]

theorem whenIdle_clen_eq_next {u : State} :
    whenIdle s (whenClenLegal s (.next u)) = .next t ↔ s.busy = false ∧ s.clen.toNat ≤ 254 ∧ t = u := by
  rw [whenIdle_eq_next, whenClenLegal_eq_next, next_eq_next]

/-! The rows of the `OP` format. -/

theorem exec_waitReady_eq_next : exec .waitReady s = .next t ↔ s.busy = false ∧ t = waitReady s := whenIdle_next_eq_next

theorem exec_encodeSend_eq_next :
    exec .encodeSend s = .next t ↔ s.busy = false ∧ s.clen.toNat ≤ 254 ∧ t = encodeSend s := whenIdle_clen_eq_next

theorem exec_awaitAck_eq_next : exec .awaitAck s = .next t ↔ s.busy = false ∧ t = awaitAck s := whenIdle_next_eq_next

theorem exec_receive_eq_next :
    exec .receive s = .next t ↔ s.busy = false ∧ s.maxlen.toNat ≤ 254 ∧ t = receive s := whenIdle_maxlen_eq_next

/-! The rows on the wire. -/

theorem exec_markerStatusRead_eq_next : exec .markerStatusRead s = .next t ↔ s.busy = false ∧ t = statusProbe s :=
  whenIdle_next_eq_next

theorem exec_markerDataWrite_eq_next :
    exec .markerDataWrite s = .next t ↔ s.busy = false ∧ s.clen.toNat ≤ 254 ∧ t = sendCommand s := whenIdle_clen_eq_next

/-- Only the reading of a whole frame asks for a legal `MAXLEN` (log 12). -/
theorem exec_markerDataRead_eq_next :
    exec .markerDataRead s = .next t ↔
      s.busy = false ∧ (Operation.ofCode s.opsel = .receive → s.maxlen.toNat ≤ 254) ∧
        t = dataRead (Operation.ofCode s.opsel) s := by
  show execMarkerDataRead s = .next t ↔ _
  rw [execMarkerDataRead, whenIdle_eq_next]
  cases Operation.ofCode s.opsel with
  | receive => simp only [whenMaxlenLegal_eq_next, next_eq_next, forall_const]
  | waitReady | encodeSend | awaitAck => simp only [next_eq_next, reduceCtorEq, false_implies, true_and]

theorem exec_frameH2d_of_sent {len lcs : Byte} {body payload : List Byte}
    (hp : hostPayload len lcs body = some payload) :
    exec (.frameH2d len lcs body) s = .next t ↔
      s.busy = false ∧ t = complete .encodeSend (succeed (sendFrame payload s)) := by
  show execFrameH2d len lcs body s = .next t ↔ _
  rw [execFrameH2d, hp]
  exact whenIdle_next_eq_next

theorem exec_frameH2d_of_judged {len lcs : Byte} {body : List Byte} (hp : hostPayload len lcs body = none) :
    exec (.frameH2d len lcs body) s = .next t ↔
      s.busy = false ∧ s.maxlen.toNat ≤ 254 ∧ t = frameJudged (encode (.frameH2d len lcs body)) s := by
  show execFrameH2d len lcs body s = .next t ↔ _
  rw [execFrameH2d, hp]
  exact whenIdle_maxlen_eq_next

theorem exec_frameD2h_eq_next {len lcs : Byte} {body : List Byte} :
    exec (.frameD2h len lcs body) s = .next t ↔
      s.busy = false ∧ s.maxlen.toNat ≤ 254 ∧ t = frameJudged (encode (.frameD2h len lcs body)) s :=
  whenIdle_maxlen_eq_next

theorem exec_ack_eq_next :
    exec .ack s = .next t ↔ s.busy = false ∧ t = judgeAck (readAck (withAnswers (encode .ack) s)) :=
  whenIdle_next_eq_next

/-! The host's readings of a response. -/

theorem exec_respFirmwareVersion_of_idle (hb : s.busy = false) : exec .respFirmwareVersion s = readVersion s :=
  whenIdle_of_idle hb

theorem exec_respConfigureSecurityModule_eq_next :
    exec .respConfigureSecurityModule s = .next t ↔ s.busy = false ∧ t = recordSam s.ok s := whenIdle_next_eq_next

theorem exec_respEnumeratePassiveTarget_of_idle (hb : s.busy = false) :
    exec .respEnumeratePassiveTarget s = readTarget s := whenIdle_of_idle hb

/-! The host's sequences, by how their exchange ends (45_command_session.md R201). The firmware query that fails is
`exec_getFirmwareVersion_of_failed`. -/

theorem exec_getFirmwareVersion_of_ok {u : State} (hb : s.busy = false)
    (hx : exchange firmwareCommand s.host.params.maxlenFw s = .ok (.none, u)) :
    exec .getFirmwareVersion s = readVersion u := by
  show execGetFirmwareVersion s = _
  rw [execGetFirmwareVersion, whenIdle_of_idle hb, hx]

theorem exec_getFirmwareVersion_of_refused {r : Refusal} (hb : s.busy = false)
    (hx : exchange firmwareCommand s.host.params.maxlenFw s = .error r) :
    exec .getFirmwareVersion s = .refused r := by
  show execGetFirmwareVersion s = _
  rw [execGetFirmwareVersion, whenIdle_of_idle hb, hx]

theorem exec_configureSecurityModule_of_ended {e : ErrKind} {u : State} (hb : s.busy = false)
    (hx : exchange (samCommand s.host.params) s.host.params.maxlenSam s = .ok (e, u)) :
    exec .configureSecurityModule s = .next (recordSam (decide (e = .none)) u) := by
  show execConfigureSecurityModule s = _
  rw [execConfigureSecurityModule, whenIdle_of_idle hb, hx]

theorem exec_configureSecurityModule_of_refused {r : Refusal} (hb : s.busy = false)
    (hx : exchange (samCommand s.host.params) s.host.params.maxlenSam s = .error r) :
    exec .configureSecurityModule s = .refused r := by
  show execConfigureSecurityModule s = _
  rw [execConfigureSecurityModule, whenIdle_of_idle hb, hx]

theorem exec_enumeratePassiveTarget_of_ok {u : State} (hb : s.busy = false)
    (hx : exchange (enumCommand s.host.params) s.host.params.maxlenEnum s = .ok (.none, u)) :
    exec .enumeratePassiveTarget s = readTarget u := by
  show execEnumeratePassiveTarget s = _
  rw [execEnumeratePassiveTarget, whenIdle_of_idle hb, hx]

theorem exec_enumeratePassiveTarget_of_failed {e : ErrKind} {u : State} (hb : s.busy = false)
    (hx : exchange (enumCommand s.host.params) s.host.params.maxlenEnum s = .ok (e, u)) (he : e ≠ .none) :
    exec .enumeratePassiveTarget s = .next (notFound u) := by
  show execEnumeratePassiveTarget s = _
  rw [execEnumeratePassiveTarget, whenIdle_of_idle hb, hx]
  cases e with
  | none => exact absurd rfl he
  | timeout | checksumMismatch | unexpectedDirection | bufferTooSmall | handshakeMismatch => rfl

theorem exec_enumeratePassiveTarget_of_refused {r : Refusal} (hb : s.busy = false)
    (hx : exchange (enumCommand s.host.params) s.host.params.maxlenEnum s = .error r) :
    exec .enumeratePassiveTarget s = .refused r := by
  show execEnumeratePassiveTarget s = _
  rw [execEnumeratePassiveTarget, whenIdle_of_idle hb, hx]

/-! What runs only while the block is idle. -/

theorem exec_of_busy (i : Instr) (hb : s.busy = true) : exec i s = .refused .requestWhileBusy := by
  cases i <;> exact whenIdle_of_busy hb

theorem idle_of_exec_next {i : Instr} (h : exec i s = .next t) : s.busy = false := by
  cases hb : s.busy with
  | false => rfl
  | true => rw [exec_of_busy i hb] at h; cases h

/-! What the three sequences have in common. -/

/-- Row `i` is the host's sequence that sends `cmd` and receives with capacity `m` (R204, R207, R208). -/
def IsSequence (i : Instr) (cmd : List Byte) (m : BitVec 8) (p : Params) : Prop :=
  (i = .getFirmwareVersion ∧ cmd = firmwareCommand ∧ m = p.maxlenFw) ∨
  (i = .configureSecurityModule ∧ cmd = samCommand p ∧ m = p.maxlenSam) ∨
  (i = .enumeratePassiveTarget ∧ cmd = enumCommand p ∧ m = p.maxlenEnum)

theorem IsSequence.length_le {i : Instr} {cmd : List Byte} {m : BitVec 8} {p : Params} (h : IsSequence i cmd m p) :
    cmd.length ≤ 4 := by
  rcases h with ⟨-, rfl, -⟩ | ⟨-, rfl, -⟩ | ⟨-, rfl, -⟩ <;> simp [firmwareCommand, samCommand, enumCommand]

/-- A sequence that answers has run its exchange to an end, and after it changed the host's own data only (R201). -/
theorem exchange_of_sequence_next {i : Instr} {cmd : List Byte} {m : BitVec 8} (hi : IsSequence i cmd m s.host.params)
    (h : exec i s = .next t) : ∃ e u, exchange cmd m s = .ok (e, u) ∧ HostOnly u t := by
  have hb := idle_of_exec_next h
  rcases hx : exchange cmd m s with r | ⟨e, u⟩
  · rcases hi with ⟨rfl, rfl, rfl⟩ | ⟨rfl, rfl, rfl⟩ | ⟨rfl, rfl, rfl⟩
    · rw [exec_getFirmwareVersion_of_refused hb hx] at h; cases h
    · rw [exec_configureSecurityModule_of_refused hb hx] at h; cases h
    · rw [exec_enumeratePassiveTarget_of_refused hb hx] at h; cases h
  · refine ⟨e, u, rfl, ?_⟩
    rcases hi with ⟨rfl, rfl, rfl⟩ | ⟨rfl, rfl, rfl⟩ | ⟨rfl, rfl, rfl⟩
    · by_cases he : e = .none
      · subst he
        rw [exec_getFirmwareVersion_of_ok hb hx] at h
        exact readVersion_hostOnly h
      · rw [exec_getFirmwareVersion_of_failed hb hx he, next_eq_next] at h
        exact h ▸ versionUnknown_hostOnly u
    · rw [exec_configureSecurityModule_of_ended hb hx, next_eq_next] at h
      exact h ▸ recordSam_hostOnly _ u
    · by_cases he : e = .none
      · subst he
        rw [exec_enumeratePassiveTarget_of_ok hb hx] at h
        exact readTarget_hostOnly h
      · rw [exec_enumeratePassiveTarget_of_failed hb hx he, next_eq_next] at h
        exact h ▸ notFound_hostOnly u

end Sys2Proof.Machine
end

section
/-! Proofs of the families 10_state.md and 20_memory.md: the step, the host port and reset (R21, R43, R49). -/

namespace Sys2Proof.Machine

/-! One step (O5). -/

theorem runWord_of_ok {f : Format} {bytes : List Byte} {i : Instr} (h : decode f bytes = .ok i) (s : State) :
    runWord f bytes s = exec i (latchOpsel i s) := by
  simp only [runWord, h]

theorem runWord_of_error {f : Format} {bytes : List Byte} {why : Reject} (h : decode f bytes = .error why) (s : State) :
    runWord f bytes s = .refused (.undecodable why) := by
  simp only [runWord, h]

theorem awaitIdle_of_busy {s : State} (hb : s.busy = true) :
    awaitIdle s = { seqStep s with inbox := .awaitIdle :: s.inbox } := if_pos hb

theorem awaitIdle_of_idle {s : State} (hb : s.busy = false) : awaitIdle s = s := if_neg (by rw [hb]; decide)

/-- Settles O5: `step` is `land` of the head of the schedule, and each entry's landing is its own equation. -/
theorem stepRunsTheDecodedInstruction : Obligations.StepRunsTheDecodedInstruction := by
  refine ⟨fun s f bytes rest hin => ?word, fun s hin => ?empty, fun s rest hin => ?pass, fun s rest hin => ?await,
    fun s p rest hin => ?params⟩
  case word =>
    rw [step_of_inbox_cons hin]
    exact ⟨fun i h => runWord_of_ok h _, fun why h => runWord_of_error h _⟩
  case empty => simp only [step, hin]
  case pass => exact step_of_inbox_cons hin
  case await =>
    rw [step_of_inbox_cons hin]
    exact ⟨fun hb => congrArg Host.Outcome.next (awaitIdle_of_busy hb),
      fun hb => congrArg Host.Outcome.next (awaitIdle_of_idle hb)⟩
  case params => exact step_of_inbox_cons hin

/-! Reset (O7). -/

theorem csReleaseIfAsserted_trace (s : State) :
    (csReleaseIfAsserted s).trace = s.trace ++ (if s.cs then [.csRelease] else []) := by
  by_cases hc : s.cs = true <;> simp [csReleaseIfAsserted, hc]

theorem exchangeCount_append (xs ys : List Event) :
    exchangeCount (xs ++ ys) = exchangeCount xs + exchangeCount ys := by
  simp only [exchangeCount, List.filter_append, List.length_append]

/-- Settles O7: the block's own fields are those of the reset state; the trace grows by the release alone, which is no
exchange. -/
theorem resetAbandonsTheOperation : Obligations.ResetAbandonsTheOperation := by
  intro s rest hin
  refine ⟨resetBlock { s with inbox := rest }, step_of_inbox_cons hin, ⟨rfl, rfl, rfl⟩, ⟨rfl, rfl⟩,
    ⟨rfl, Memory.read_nil⟩, fun i => ⟨Memory.read_nil i, Memory.read_nil i⟩, ?count, rfl,
    csReleaseIfAsserted_trace _, rfl, rfl⟩
  case count =>
    show exchangeCount (csReleaseIfAsserted { s with inbox := rest }).trace = _
    rw [csReleaseIfAsserted_trace, exchangeCount_append]
    cases s.cs <;> rfl

/-! Refusals (O9, O10). -/

/-- Settles O9: the meaning of every row is guarded by `whenIdle`. -/
theorem nothingRunsWhileBusy : Obligations.NothingRunsWhileBusy := fun i _ hb => exec_of_busy i hb

theorem whenIdle_clen_refused {s : State} {k} (hb : s.busy = false) (hc : 254 < s.clen.toNat) :
    whenIdle s (whenClenLegal s k) = .refused .clenOutOfRange := by
  rw [whenIdle_of_idle hb, whenClenLegal_of_over hc]

theorem whenIdle_maxlen_refused {s : State} {k} (hb : s.busy = false) (hm : 254 < s.maxlen.toNat) :
    whenIdle s (whenMaxlenLegal s k) = .refused .maxlenOutOfRange := by
  rw [whenIdle_of_idle hb, whenMaxlenLegal_of_over hm]

theorem exec_markerDataRead_refused {s : State} (hb : s.busy = false) (hop : s.opsel = Operation.receive.code)
    (hm : 254 < s.maxlen.toNat) : exec .markerDataRead s = .refused .maxlenOutOfRange := by
  show execMarkerDataRead s = _
  rw [execMarkerDataRead, hop, Operation.ofCode_code]
  exact whenIdle_maxlen_refused hb hm

theorem exec_frameH2d_refused {s : State} {len lcs : Byte} {body : List Byte} (hb : s.busy = false)
    (hm : 254 < s.maxlen.toNat) (hf : sentByNoHost len lcs body) :
    exec (.frameH2d len lcs body) s = .refused .maxlenOutOfRange := by
  show execFrameH2d len lcs body s = _
  rw [execFrameH2d, hostPayload_eq_none hf]
  exact whenIdle_maxlen_refused hb hm

/-- Settles O10: every row that would read the operand asks its guard first, and a sequence ends as its exchange does,
which the guard of RECEIVE refuses. -/
theorem operandsOutOfRangeAreRefused : Obligations.OperandsOutOfRangeAreRefused := by
  intro s hb
  refine ⟨fun hc => ⟨whenIdle_clen_refused hb hc, whenIdle_clen_refused hb hc⟩,
    fun hm => ⟨?receive, ?dataRead, ?d2h, ?h2d⟩, fun hm hg => ?firmware, fun hm hg => ?sam, fun hm hg => ?enum⟩
  case receive => exact whenIdle_maxlen_refused hb hm
  case dataRead => exact fun hop => exec_markerDataRead_refused hb hop hm
  case d2h => exact fun _ _ _ => whenIdle_maxlen_refused hb hm
  case h2d => exact fun _ _ _ hf => exec_frameH2d_refused hb hm hf
  case firmware => exact exec_getFirmwareVersion_of_refused hb (exchange_refused hm hg)
  case sam => exact exec_configureSecurityModule_of_refused hb (exchange_refused hm hg)
  case enum => exact exec_enumeratePassiveTarget_of_refused hb (exchange_refused hm hg)

/-! The host port (O11, O12). -/

theorem portWrite_of_busy {s : State} (w : HostWrite) (hb : s.busy = true) :
    portWrite w s = .refused .writeWhileBusy := if_pos hb

theorem portWrite_of_idle {s : State} (w : HostWrite) (hb : s.busy = false) : portWrite w s = hostWrite w s :=
  if_neg (by rw [hb]; decide)

/-- Settles O11: while the block is idle the write is `hostWrite`, whose five cases these are. -/
theorem hostWritesOnlyWhileIdle : Obligations.HostWritesOnlyWhileIdle := by
  intro s w rest hin
  rw [step_of_inbox_cons hin]
  have idle (hb : s.busy = false) : land (.write w) { s with inbox := rest } = hostWrite w { s with inbox := rest } :=
    portWrite_of_idle w hb
  refine ⟨fun hb => portWrite_of_busy w hb, ?opsel, ?timeout, ?maxlen, ?clen, ?outside, ?cbuf⟩
  case opsel => rintro hb v rfl; exact idle hb
  case timeout => rintro hb v rfl; exact idle hb
  case maxlen => rintro hb v rfl; exact idle hb
  case clen => rintro hb v rfl; exact idle hb
  case outside =>
    rintro hb i v rfl hi
    exact (idle hb).trans (if_neg (Nat.not_lt.2 hi))
  case cbuf =>
    rintro hb i v rfl hi
    exact ⟨{ s with cbuf := Memory.write s.cbuf i v, inbox := rest }, (idle hb).trans (if_pos hi),
      Memory.read_write_same _ _ _, fun j hj => Memory.read_write_other _ _ hj, rfl⟩

/-- What the host latches is the value read, or a free value while the block is busy (R21, log 9). -/
theorem latch_frame {s : State} {x : Byte × State} (hx : ∃ d, x.2 = { s with draws := d }) :
    ∃ b d, latch (if s.busy then freeDraw s else x) = { s with host := { s.host with readData := b }, draws := d } := by
  obtain ⟨d, hd⟩ := hx
  split
  case isTrue => exact ⟨Config.freeByte s.draws, s.draws + 1, rfl⟩
  case isFalse => exact ⟨x.1, d, by rw [latch, hd]⟩

/-- A read that the port answers changes the value the host has read and the count of free values, nothing else. -/
theorem portRead_next {r : HostRead} {s t : State} (h : portRead r s = .next t) :
    ∃ b d, t = { s with host := { s.host with readData := b }, draws := d } := by
  cases r with
  | busy => cases h; exact ⟨bitByte s.busy, s.draws, rfl⟩
  | ok | err | plen => cases h; exact latch_frame ⟨s.draws, rfl⟩
  | pbuf i =>
    simp only [portRead] at h
    split at h
    case isTrue => cases h; exact latch_frame (memRead_state s.pbuf i s)
    case isFalse => cases h

theorem readResult_of_idle {s : State} (v : Byte) (hb : s.busy = false) : readResult v s = latch (v, s) := by
  simp only [readResult, hb]; rfl

/-- While the block is busy a read of anything but `BUSY` gives a free value (log 9). -/
theorem portRead_of_busy {r : HostRead} {s t : State} (hb : s.busy = true) (hr : r ≠ .busy)
    (h : portRead r s = .next t) : t.host.readData = Config.freeByte s.draws := by
  cases r with
  | busy => exact absurd rfl hr
  | ok | err | plen => cases h; simp only [readResult, hb, if_true]; rfl
  | pbuf i =>
    simp only [portRead, hb, if_true] at h
    split at h
    case isTrue => cases h; rfl
    case isFalse => cases h

theorem portRead_pbuf_of_idle {s : State} {i : Nat} {b : Byte} (hb : s.busy = false) (hi : i < 254)
    (hv : Memory.read s.pbuf i = some b) : portRead (.pbuf i) s = .next (latch (b, s)) := by
  simp only [portRead, hb, memRead_of_listed hv]
  exact if_pos hi

/-- Settles O12: the value of each read by `readResult` and `memRead`, its frame by `portRead_next`. -/
theorem hostReadsResults : Obligations.HostReadsResults := by
  intro s r rest hin
  rw [step_of_inbox_cons hin]
  refine ⟨?busy, ?ok, ?err, ?plen, ?pbuf, ?outside, ?free, ?frame⟩
  case busy => rintro rfl; exact ⟨_, rfl, rfl⟩
  case ok => rintro hb rfl; exact ⟨_, congrArg Host.Outcome.next (readResult_of_idle _ hb), rfl⟩
  case err => rintro hb rfl; exact ⟨_, congrArg Host.Outcome.next (readResult_of_idle _ hb), rfl⟩
  case plen => rintro hb rfl; exact ⟨_, congrArg Host.Outcome.next (readResult_of_idle _ hb), rfl⟩
  case pbuf => rintro hb i b rfl hi hv; exact ⟨_, portRead_pbuf_of_idle hb hi hv, rfl⟩
  case outside => rintro i rfl hi; exact if_neg (Nat.not_lt.2 hi)
  case free => exact fun hb hr t h => portRead_of_busy (s := { s with inbox := rest }) hb hr h
  case frame =>
    intro t h
    obtain ⟨b, d, rfl⟩ := portRead_next h
    rfl

end Sys2Proof.Machine
end

section
/-! Proofs of the invariant of the machine, and of what every step keeps (R28, R29, R36, R85). -/

namespace Sys2Proof.Machine

/-! Every row keeps the invariant. -/

theorem HostOnly.inv {s t : State} (h : HostOnly s t) (hs : Inv s) : Inv t := by
  obtain ⟨x, d, -, rfl⟩ := h
  exact hs.outside rfl

theorem withAnswers_inv {s : State} (h : Inv s) (hb : s.busy = false) (bytes : List Byte) : Inv (withAnswers bytes s) :=
  h.of_same hb ⟨rfl, rfl⟩ rfl rfl rfl rfl rfl rfl rfl rfl

theorem exec_frameH2d_inv {len lcs : Byte} {body : List Byte} {s t : State} (h : Inv s)
    (he : exec (.frameH2d len lcs body) s = .next t) : Inv t := by
  cases hp : hostPayload len lcs body with
  | some payload =>
    obtain ⟨hb, rfl⟩ := (exec_frameH2d_of_sent hp).1 he
    exact succeed_inv (sendFrame_inv h hb payload) (by rw [sendFrame_eq]; exact hb) _
  | none =>
    obtain ⟨hb, hm, rfl⟩ := (exec_frameH2d_of_judged hp).1 he
    exact frameJudged_inv h hb hm _

theorem sequence_inv {i : Instr} {cmd : List Byte} {m : BitVec 8} {s t : State}
    (hi : IsSequence i cmd m s.host.params) (h : Inv s) (he : exec i s = .next t) : Inv t := by
  obtain ⟨e, u, hx, ht⟩ := exchange_of_sequence_next hi he
  exact ht.inv (exchange_inv h (idle_of_exec_next he) (hi.length_le.trans (by decide)) hx).1

theorem exec_inv {i : Instr} {s t : State} (h : Inv s) (he : exec i s = .next t) : Inv t := by
  have hb := idle_of_exec_next he
  cases i with
  | waitReady =>
    obtain ⟨-, rfl⟩ := exec_waitReady_eq_next.1 he
    exact waitReady_inv h hb
  | encodeSend =>
    obtain ⟨-, hc, rfl⟩ := exec_encodeSend_eq_next.1 he
    exact encodeSend_inv h hb hc
  | awaitAck =>
    obtain ⟨-, rfl⟩ := exec_awaitAck_eq_next.1 he
    exact awaitAck_inv h hb
  | receive =>
    obtain ⟨-, hm, rfl⟩ := exec_receive_eq_next.1 he
    exact receive_inv_whole h hb hm
  | markerDataWrite =>
    obtain ⟨-, hc, rfl⟩ := exec_markerDataWrite_eq_next.1 he
    exact sendCommand_inv h hb hc
  | markerStatusRead =>
    obtain ⟨-, rfl⟩ := exec_markerStatusRead_eq_next.1 he
    exact statusProbe_inv h hb
  | markerDataRead =>
    obtain ⟨-, hm, rfl⟩ := exec_markerDataRead_eq_next.1 he
    exact dataRead_inv h hb _ hm
  | frameH2d len lcs body => exact exec_frameH2d_inv h he
  | frameD2h len lcs body =>
    obtain ⟨-, hm, rfl⟩ := exec_frameD2h_eq_next.1 he
    exact frameJudged_inv h hb hm _
  | ack =>
    obtain ⟨-, rfl⟩ := exec_ack_eq_next.1 he
    exact judgeAck_inv (readAck_inv (withAnswers_inv h hb _) hb) (by rw [readAck_eq]; exact hb)
  | getFirmwareVersion => exact sequence_inv (.inl ⟨rfl, rfl, rfl⟩) h he
  | configureSecurityModule => exact sequence_inv (.inr (.inl ⟨rfl, rfl, rfl⟩)) h he
  | enumeratePassiveTarget => exact sequence_inv (.inr (.inr ⟨rfl, rfl, rfl⟩)) h he
  | respFirmwareVersion => exact readVersion_inv h hb (exec_respFirmwareVersion_of_idle hb ▸ he)
  | respConfigureSecurityModule =>
    obtain ⟨-, rfl⟩ := exec_respConfigureSecurityModule_eq_next.1 he
    exact (recordSam_hostOnly _ s).inv h
  | respEnumeratePassiveTarget => exact readTarget_inv h hb (exec_respEnumeratePassiveTarget_of_idle hb ▸ he)

/-! Every entry of the schedule keeps it. -/

/-- An `OP` word is the host's write of `OPSEL`, and nothing else changes before a word runs (R103). -/
theorem latchOpsel_eq (i : Instr) (s : State) : ∃ v, latchOpsel i s = { s with opsel := v } := by
  cases i with
  | waitReady | encodeSend | awaitAck | receive => exact ⟨_, rfl⟩
  | markerDataWrite | markerStatusRead | markerDataRead | frameH2d | frameD2h | ack => exact ⟨s.opsel, rfl⟩
  | getFirmwareVersion | configureSecurityModule | enumeratePassiveTarget => exact ⟨s.opsel, rfl⟩
  | respFirmwareVersion | respConfigureSecurityModule | respEnumeratePassiveTarget => exact ⟨s.opsel, rfl⟩

theorem runWord_next {f : Format} {bytes : List Byte} {s t : State} (h : runWord f bytes s = .next t) :
    ∃ i, exec i (latchOpsel i s) = .next t := by
  cases hd : decode f bytes with
  | ok i => exact ⟨i, runWord_of_ok hd s ▸ h⟩
  | error why => rw [runWord_of_error hd] at h; cases h

theorem runWord_inv {f : Format} {bytes : List Byte} {s t : State} (h : Inv s) (he : runWord f bytes s = .next t) :
    Inv t := by
  obtain ⟨i, hi⟩ := runWord_next he
  obtain ⟨v, hv⟩ := latchOpsel_eq i s
  have hb := idle_of_exec_next hi
  rw [hv] at hi hb
  exact exec_inv (s := { s with opsel := v }) (h.of_same hb ⟨rfl, rfl⟩ rfl rfl rfl rfl rfl rfl rfl rfl) hi

theorem request_next {s t : State} (h : request s = .next t) :
    ∃ op, s.busy = false ∧ operandsLegal op s = true ∧ t = accept op s := by
  rw [request, whenIdle_eq_next] at h
  obtain ⟨hb, h⟩ := h
  cases hop : Operation.ofCode s.opsel with
  | waitReady | awaitAck =>
    rw [hop] at h
    exact ⟨_, hb, rfl, next_eq_next.1 h⟩
  | encodeSend =>
    simp only [hop, whenClenLegal_eq_next, next_eq_next] at h
    exact ⟨.encodeSend, hb, (clenLegal_iff s).2 h.1, h.2⟩
  | receive =>
    simp only [hop, whenMaxlenLegal_eq_next, next_eq_next] at h
    exact ⟨.receive, hb, (maxlenLegal_iff s).2 h.1, h.2⟩

theorem hostWrite_inv {w : HostWrite} {s t : State} (h : Inv s) (hb : s.busy = false)
    (he : hostWrite w s = .next t) : Inv t := by
  cases w with
  | opsel v | timeout v | maxlen v | clen v =>
    cases he
    exact h.of_same hb ⟨rfl, rfl⟩ rfl rfl rfl rfl rfl rfl rfl rfl
  | cbuf i v =>
    simp only [hostWrite] at he
    split at he
    case isFalse => cases he
    case isTrue hi =>
      cases he
      obtain ⟨hr, ht⟩ := h.rest hb
      exact inv_of_rest hr ht (Memory.wf_write v h.cbuf_wf hi) h.pbuf_wf h.abuf_wf h.ok_err h.payload

theorem portWrite_inv {w : HostWrite} {s t : State} (h : Inv s) (he : portWrite w s = .next t) : Inv t := by
  cases hb : s.busy with
  | true => rw [portWrite_of_busy w hb] at he; cases he
  | false => exact hostWrite_inv h hb (portWrite_of_idle w hb ▸ he)

theorem awaitIdle_inv {s : State} (h : Inv s) : Inv (awaitIdle s) := by
  cases hb : s.busy with
  | true => rw [awaitIdle_of_busy hb]; exact (seqStep_inv h).outside rfl
  | false => rw [awaitIdle_of_idle hb]; exact h

/-- Wherever a reset lands, releasing chip-select leaves a well-shaped trace (R49, log 20). -/
theorem traceState_reset {s : State} (h : Inv s) : traceState (csReleaseIfAsserted s).trace = some .released := by
  rw [csReleaseIfAsserted_trace, traceState_append h.shaped]
  cases hbus : s.phase.bus with
  | released =>
    have hc : ¬ s.cs = true := fun hc => h.selected_iff.1 hc hbus
    rw [if_neg hc]; rfl
  | selected | marked =>
    have hc : s.cs = true := h.selected_iff.2 (by rw [hbus]; decide)
    rw [if_pos hc]; rfl

theorem resetBlock_inv {s : State} (h : Inv s) : Inv (resetBlock s) :=
  inv_of_rest ⟨rfl, rfl, rfl⟩ (traceState_reset h) (Memory.wf_nil _) (Memory.wf_nil _) (Memory.wf_nil _)
    (fun _ => rfl) ⟨Nat.zero_le _, specified_zero _⟩

theorem land_inv {inp : Input} {s t : State} (h : Inv s) (he : land inp s = .next t) : Inv t := by
  cases inp with
  | pass => cases he; exact seqStep_inv h
  | awaitIdle => cases he; exact awaitIdle_inv h
  | word f bytes => exact runWord_inv h he
  | request =>
    obtain ⟨op, hb, hl, rfl⟩ := request_next he
    exact accept_inv h hb op hl
  | write w => exact portWrite_inv h he
  | read r =>
    obtain ⟨b, d, rfl⟩ := portRead_next he
    exact h.outside rfl
  | setParams p => cases he; exact h.outside rfl
  | reset => cases he; exact resetBlock_inv h

/-- What a step is: the block's own, or the landing of the head of the schedule. -/
theorem step_next {s t : State} (h : step s = .next t) :
    t = seqStep s ∨ ∃ inp rest, s.inbox = inp :: rest ∧ land inp { s with inbox := rest } = .next t := by
  cases hin : s.inbox with
  | nil => simp only [step, hin, next_eq_next] at h; exact .inl h
  | cons inp rest => exact .inr ⟨inp, rest, rfl, step_of_inbox_cons hin ▸ h⟩

theorem step_inv {s t : State} (h : Inv s) (he : step s = .next t) : Inv t := by
  rcases step_next he with rfl | ⟨inp, rest, -, hl⟩
  · exact seqStep_inv h
  · exact land_inv (s := { s with inbox := rest }) (h.outside rfl) hl

/-- Settles O39: one lemma for the numbered step of the block, one for each entry of the schedule, and for a word one
for each row of the table. -/
theorem stepKeepsTheInvariant : Obligations.StepKeepsTheInvariant := fun _ _ h he => step_inv h he

/-- Settles O38: the reset state is at rest, with an empty trace and empty buffers. -/
theorem resetSatisfiesTheInvariant : Obligations.ResetSatisfiesTheInvariant :=
  inv_of_rest ⟨rfl, rfl, rfl⟩ rfl (Memory.wf_nil _) (Memory.wf_nil _) (Memory.wf_nil _) (fun _ => rfl)
    ⟨Nat.zero_le _, specified_zero _⟩

/-- Settles O40: the next state has the invariant, which says both of a block that is not busy. -/
theorem idleMeansReleasedAndWellShaped : Obligations.IdleMeansReleasedAndWellShaped := by
  intro s t h he hb
  obtain ⟨⟨-, -, hcs⟩, htrace⟩ := (step_inv h he).rest hb
  exact ⟨hcs, htrace⟩

/-! What every row keeps (O41, O43). -/

theorem HostOnly.keeps {s t : State} (h : HostOnly s t) : Keeps s t := by
  obtain ⟨x, d, -, rfl⟩ := h
  exact ⟨rfl, rfl, rfl, rfl, rfl, List.prefix_rfl⟩

theorem withAnswers_keeps (bytes : List Byte) (s : State) : Keeps s (withAnswers bytes s) :=
  ⟨rfl, rfl, rfl, rfl, rfl, List.prefix_rfl⟩

theorem openRead_keeps (s : State) : Keeps s (openRead s) := by
  rw [openRead_eq]; exact ⟨rfl, rfl, rfl, rfl, rfl, List.prefix_append _ _⟩

theorem csRelease_keeps (s : State) : Keeps s (csRelease s) := ⟨rfl, rfl, rfl, rfl, rfl, List.prefix_append _ _⟩

theorem dataRead_keeps (op : Operation) (s : State) : Keeps s (dataRead op s) := by
  cases op with
  | waitReady | encodeSend => exact (openRead_keeps s).trans (csRelease_keeps _)
  | awaitAck => exact readAck_keeps s
  | receive => exact (readFrame_keeps s).trans (csReleaseIfAsserted_keeps _)

/-- The host's three sequences, the only rows that write operands (45_command_session.md R201). -/
def sequences : List Instr := [.getFirmwareVersion, .configureSecurityModule, .enumeratePassiveTarget]

theorem exec_keeps {i : Instr} {s t : State} (hi : i ∉ sequences) (he : exec i s = .next t) : Keeps s t := by
  have hb := idle_of_exec_next he
  cases i with
  | waitReady =>
    obtain ⟨-, rfl⟩ := exec_waitReady_eq_next.1 he
    exact waitReady_keeps s
  | encodeSend =>
    obtain ⟨-, hc, rfl⟩ := exec_encodeSend_eq_next.1 he
    exact encodeSend_keeps hc
  | awaitAck =>
    obtain ⟨-, rfl⟩ := exec_awaitAck_eq_next.1 he
    exact awaitAck_keeps s
  | receive =>
    obtain ⟨-, -, rfl⟩ := exec_receive_eq_next.1 he
    exact receive_keeps s
  | markerDataWrite =>
    obtain ⟨-, hc, rfl⟩ := exec_markerDataWrite_eq_next.1 he
    exact sendCommand_keeps hc
  | markerStatusRead =>
    obtain ⟨-, rfl⟩ := exec_markerStatusRead_eq_next.1 he
    exact statusProbe_keeps s
  | markerDataRead =>
    obtain ⟨-, -, rfl⟩ := exec_markerDataRead_eq_next.1 he
    exact dataRead_keeps _ s
  | frameH2d len lcs body =>
    cases hp : hostPayload len lcs body with
    | some payload =>
      obtain ⟨-, rfl⟩ := (exec_frameH2d_of_sent hp).1 he
      exact (sendFrame_keeps payload s).trans ((succeed_keeps _).trans (complete_keeps _ _))
    | none =>
      obtain ⟨-, -, rfl⟩ := (exec_frameH2d_of_judged hp).1 he
      exact frameJudged_keeps _ s
  | frameD2h len lcs body =>
    obtain ⟨-, -, rfl⟩ := exec_frameD2h_eq_next.1 he
    exact frameJudged_keeps _ s
  | ack =>
    obtain ⟨-, rfl⟩ := exec_ack_eq_next.1 he
    exact (withAnswers_keeps _ s).trans ((readAck_keeps _).trans (judgeAck_keeps _))
  | getFirmwareVersion | configureSecurityModule | enumeratePassiveTarget => exact absurd hi (by decide)
  | respFirmwareVersion => exact (readVersion_hostOnly (exec_respFirmwareVersion_of_idle hb ▸ he)).keeps
  | respConfigureSecurityModule =>
    obtain ⟨-, rfl⟩ := exec_respConfigureSecurityModule_eq_next.1 he
    exact (recordSam_hostOnly _ s).keeps
  | respEnumeratePassiveTarget => exact (readTarget_hostOnly (exec_respEnumeratePassiveTarget_of_idle hb ▸ he)).keeps

/-- Settles O41: `seqStep_kept` for the block's own steps, `exec_keeps` for the rows. -/
theorem onlyTheHostWritesOperands : Obligations.OnlyTheHostWritesOperands := by
  refine ⟨fun s => ?step, fun i s t h1 h2 h3 he => (exec_keeps (by simp [sequences, h1, h2, h3]) he).operands⟩
  case step =>
    obtain ⟨hopsel, htimeout, hmaxlen, hclen, hcbuf, -⟩ := seqStep_kept s
    exact ⟨hopsel, htimeout, hmaxlen, hclen, fun i => by rw [hcbuf]⟩

/-! The trace (O43). -/

/-- What ENCODE_SEND adds to the trace, the handshake after it leaves there. -/
theorem sendAndAwait_trace (cmd : List Byte) (s : State) :
    (encodeSend (loadCommand cmd s)).trace <+: (sendAndAwait cmd s).trace :=
  (awaitAck_keeps (loadAck (encodeSend (loadCommand cmd s)))).trace

/-- An exchange that ends has ended with its RECEIVE, or with the handshake it does not go on from (R201). -/
theorem exchange_ended {cmd : List Byte} {m : BitVec 8} {e : ErrKind} {s u : State}
    (h : exchange cmd m s = .ok (e, u)) :
    (goesOn cmd s ∧ u = receive (receiveBegins cmd m s)) ∨ (¬ goesOn cmd s ∧ u = sendAndAwait cmd s) := by
  by_cases hg : goesOn cmd s
  case neg =>
    simp only [exchange_aborted hg, Except.ok.injEq, Prod.mk.injEq] at h
    exact .inr ⟨hg, h.2.symm⟩
  case pos =>
    by_cases hm : m.toNat ≤ 254
    · simp only [exchange_goesOn hm hg, Except.ok.injEq, Prod.mk.injEq] at h
      exact .inl ⟨hg, h.2.symm⟩
    · rw [exchange_refused (Nat.not_le.1 hm) hg] at h
      cases h

theorem exchange_trace {cmd : List Byte} {m : BitVec 8} {e : ErrKind} {s u : State}
    (h : exchange cmd m s = .ok (e, u)) : (sendAndAwait cmd s).trace <+: u.trace := by
  rcases exchange_ended h with ⟨-, hu⟩ | ⟨-, hu⟩
  · rw [hu]; exact (receive_keeps (receiveBegins cmd m s)).trace
  · rw [hu]

/-- The trace of a sequence begins with that of its ENCODE_SEND (R201). -/
theorem sequence_trace {i : Instr} {cmd : List Byte} {m : BitVec 8} {s t : State}
    (hi : IsSequence i cmd m s.host.params) (he : exec i s = .next t) :
    (encodeSend (loadCommand cmd s)).trace <+: t.trace := by
  obtain ⟨e, u, hx, ht⟩ := exchange_of_sequence_next hi he
  exact (sendAndAwait_trace cmd s).trans ((exchange_trace hx).trans ht.keeps.trace)

theorem loadCommand_clen_le {cmd : List Byte} (s : State) (hl : cmd.length ≤ 254) :
    (loadCommand cmd s).clen.toNat ≤ 254 := (loadCommand_clen cmd s hl).trans_le hl

theorem sequence_trace_grows {i : Instr} {cmd : List Byte} {m : BitVec 8} {s t : State}
    (hi : IsSequence i cmd m s.host.params) (he : exec i s = .next t) : s.trace <+: t.trace :=
  (encodeSend_keeps (loadCommand_clen_le s (hi.length_le.trans (by decide)))).trace.trans (sequence_trace hi he)

theorem exec_trace_grows {i : Instr} {s t : State} (he : exec i s = .next t) : s.trace <+: t.trace := by
  by_cases hi : i ∈ sequences
  case neg => exact (exec_keeps hi he).trace
  case pos =>
    simp only [sequences, List.mem_cons, List.not_mem_nil, or_false] at hi
    rcases hi with rfl | rfl | rfl
    · exact sequence_trace_grows (.inl ⟨rfl, rfl, rfl⟩) he
    · exact sequence_trace_grows (.inr (.inl ⟨rfl, rfl, rfl⟩)) he
    · exact sequence_trace_grows (.inr (.inr ⟨rfl, rfl, rfl⟩)) he

theorem runWord_trace_grows {f : Format} {bytes : List Byte} {s t : State} (he : runWord f bytes s = .next t) :
    s.trace <+: t.trace := by
  obtain ⟨i, hi⟩ := runWord_next he
  obtain ⟨v, hv⟩ := latchOpsel_eq i s
  rw [hv] at hi
  exact exec_trace_grows (s := { s with opsel := v }) hi

theorem portWrite_trace {w : HostWrite} {s t : State} (he : portWrite w s = .next t) : t.trace = s.trace := by
  cases hb : s.busy with
  | true => rw [portWrite_of_busy w hb] at he; cases he
  | false =>
    rw [portWrite_of_idle w hb] at he
    cases w with
    | opsel v | timeout v | maxlen v | clen v => cases he; rfl
    | cbuf i v =>
      simp only [hostWrite] at he
      split at he <;> cases he
      rfl

theorem seqStep_trace_grows (s : State) : s.trace <+: (seqStep s).trace := by
  obtain ⟨-, -, -, -, -, htrace⟩ := seqStep_kept s
  exact htrace

theorem land_trace_grows {inp : Input} {s t : State} (he : land inp s = .next t) : s.trace <+: t.trace := by
  cases inp with
  | pass => cases he; exact seqStep_trace_grows s
  | awaitIdle =>
    cases he
    cases hb : s.busy with
    | true => rw [awaitIdle_of_busy hb]; exact seqStep_trace_grows s
    | false => rw [awaitIdle_of_idle hb]
  | word f bytes => exact runWord_trace_grows he
  | request => obtain ⟨op, -, -, rfl⟩ := request_next he; exact List.prefix_rfl
  | write w => rw [portWrite_trace he]
  | read r => obtain ⟨b, d, rfl⟩ := portRead_next he; exact List.prefix_rfl
  | setParams p => cases he; exact List.prefix_rfl
  | reset => cases he; exact (csReleaseIfAsserted_keeps s).trace

/-- Settles O43: the same split as O39, each part adding events at the end of the trace only. -/
theorem traceOnlyGrows : Obligations.TraceOnlyGrows := by
  intro s t he
  rcases step_next he with rfl | ⟨inp, rest, -, hl⟩
  · exact seqStep_trace_grows s
  · exact land_trace_grows (s := { s with inbox := rest }) hl

/-! The results (O42). -/

/-- `OK = 1` exactly when `ERR = NONE` (R36). -/
def resultsAgree (s : State) : Prop := s.ok = true ↔ s.err = .none

theorem succeeded.resultsAgree {s : State} (h : succeeded s) : resultsAgree s := iff_of_true h.1 h.2

theorem failedWith.resultsAgree {e : ErrKind} {s : State} (h : failedWith e s) (he : e ≠ .none) : resultsAgree s :=
  iff_of_false (by rw [h.1]; decide) (by rw [h.2]; exact he)

theorem waitReady_resultsAgree (s : State) : resultsAgree (waitReady s) := by
  rcases ready_or_never s with ⟨k, hk⟩ | hk
  · rw [waitReady_ready hk]; exact succeeded.resultsAgree ⟨rfl, rfl⟩
  · rw [waitReady_never hk]; exact failedWith.resultsAgree (e := .timeout) ⟨rfl, rfl⟩ (by decide)

theorem judgeAck_resultsAgree {s : State} (hcs : s.cs = false) : resultsAgree (judgeAck s) := by
  rw [judgeAck_eq hcs, resultsAgree]
  cases ackMatches s <;> simp

theorem judgeFrame_resultsAgree (s : State) : resultsAgree (judgeFrame (readFrame s)) := by
  obtain ⟨e, u, hr, -, hkind, -⟩ := readFrame_exact s
  rw [hr]
  rcases hkind with rfl | rfl | rfl | rfl
  · exact succeeded.resultsAgree ⟨rfl, rfl⟩
  all_goals exact failedWith.resultsAgree (raise_failedWith _ _ _) (by decide)

theorem frameJudged_resultsAgree (frame : List Byte) (s : State) : resultsAgree (frameJudged frame s) :=
  judgeFrame_resultsAgree (withAnswers frame s)

/-- Settles O42: each operation ends in `succeed` or in a kind of failure that is not `NONE`. -/
theorem okExactlyWhenErrIsNone : Obligations.OkExactlyWhenErrIsNone := by
  intro i s t hf he
  change resultsAgree t
  cases i with
  | waitReady =>
    obtain ⟨-, rfl⟩ := exec_waitReady_eq_next.1 he
    exact waitReady_resultsAgree s
  | encodeSend =>
    obtain ⟨-, -, rfl⟩ := exec_encodeSend_eq_next.1 he
    exact succeeded.resultsAgree ⟨rfl, rfl⟩
  | awaitAck =>
    obtain ⟨-, rfl⟩ := exec_awaitAck_eq_next.1 he
    exact awaitAck_ok_iff s
  | receive =>
    obtain ⟨-, -, rfl⟩ := exec_receive_eq_next.1 he
    exact receive_ok_iff s
  | frameH2d len lcs body =>
    cases hp : hostPayload len lcs body with
    | some payload =>
      obtain ⟨-, rfl⟩ := (exec_frameH2d_of_sent hp).1 he
      exact succeeded.resultsAgree ⟨rfl, rfl⟩
    | none =>
      obtain ⟨-, -, rfl⟩ := (exec_frameH2d_of_judged hp).1 he
      exact frameJudged_resultsAgree _ s
  | frameD2h len lcs body =>
    obtain ⟨-, -, rfl⟩ := exec_frameD2h_eq_next.1 he
    exact frameJudged_resultsAgree _ s
  | ack =>
    obtain ⟨-, rfl⟩ := exec_ack_eq_next.1 he
    exact judgeAck_resultsAgree (by rw [readAck_eq])
  | markerDataWrite | markerStatusRead | markerDataRead => exact absurd hf (by decide)
  | getFirmwareVersion | configureSecurityModule | enumeratePassiveTarget => exact absurd hf (by decide)
  | respFirmwareVersion | respConfigureSecurityModule | respEnumeratePassiveTarget => exact absurd hf (by decide)

end Sys2Proof.Machine
end

section
/-! Proofs of the family 41_ready_poller.md, and of the status transaction the poller is made of (R72, R131 to R133). -/

namespace Sys2Proof.Machine

/-- Settles O14: the row is the status probe, and `statusProbe_eq` writes out every field after it. -/
theorem statusTransactionReadsOneByte : Obligations.StatusTransactionReadsOneByte := by
  intro s hb
  refine ⟨statusProbe s, exec_markerStatusRead_eq_next.2 ⟨hb, rfl⟩, ?_⟩
  rw [statusProbe_eq]
  exact ⟨rfl, rfl, rfl, rfl, rfl, rfl, rfl, rfl, ⟨rfl, rfl, rfl, rfl, fun _ => rfl⟩, ⟨rfl, fun _ => rfl⟩, fun _ => rfl,
    ⟨rfl, rfl⟩, ⟨rfl, rfl⟩, ⟨rfl, rfl⟩, ⟨rfl, rfl⟩, rfl, rfl⟩

/-! How long a wait sleeps (R133). -/

theorem ticksSlept_append (xs ys : List Event) : ticksSlept (xs ++ ys) = ticksSlept xs + ticksSlept ys := by
  induction xs with
  | nil => exact (Nat.zero_add _).symm
  | cons e xs ih => cases e <;> simp [ticksSlept, ih, Nat.add_assoc]

/-- One delay of ten ticks stands between two probes, and none after the last. -/
theorem ticksSlept_waitEvents (b : Byte) (bs : List Byte) : ticksSlept (waitEvents (b :: bs)) = 10 * bs.length := by
  induction bs generalizing b with
  | nil => rfl
  | cons c cs ih =>
    rw [waitEvents_cons _ (List.cons_ne_nil c cs), ticksSlept_append, ticksSlept_append, ih, List.length_cons]
    show 0 + (10 + 0) + 10 * cs.length = _
    omega

theorem ticksSlept_statuses (s : State) (n : Nat) : ticksSlept (waitEvents (statuses s (n + 1))) = 10 * n := by
  rw [statuses_succ, ticksSlept_waitEvents, List.length_map, List.length_range]

theorem elapsed_waited {s : State} {n sleeps : Nat} (h : 10 * sleeps < 2 ^ 17) :
    (waited (clearElapsed s) n sleeps).elapsed.toNat = 10 * sleeps := by
  show (0#17 + BitVec.ofNat 17 (10 * sleeps)).toNat = _
  rw [BitVec.zero_add, BitVec.toNat_ofNat, Nat.mod_eq_of_lt h]

theorem lt_probeBudget {s : State} {k : Nat} (h : k ≤ s.timeout.toNat / 10) : k < probeBudget s := Nat.lt_succ_of_le h

/-- Settles O15: a wait has the form `waited`, with one more probe than sleeps where a probe is ready, and as many
where none is. -/
theorem waitReadyProbesUntilReadyOrBudget : Obligations.WaitReadyProbesUntilReadyOrBudget := by
  intro s hb
  have hlt := s.timeout.isLt
  refine ⟨fun k hk hn hr => ?ready, fun hn => ?never⟩
  case ready =>
    refine ⟨waitReady s, exec_waitReady_eq_next.2 ⟨hb, rfl⟩, ?_⟩
    rw [waitReady_ready ⟨lt_probeBudget hk, hn, hr⟩]
    exact ⟨⟨rfl, rfl⟩, rfl, elapsed_waited (n := k + 1) (by omega), rfl, ticksSlept_statuses s k, by omega⟩
  case never =>
    refine ⟨waitReady s, exec_waitReady_eq_next.2 ⟨hb, rfl⟩, ?_⟩
    rw [waitReady_never fun i hi => hn i (Nat.le_of_lt_succ hi)]
    exact ⟨⟨rfl, rfl⟩, elapsed_waited (n := probeBudget s) (by show 10 * (s.timeout.toNat / 10 + 1) < _; omega), rfl,
      ticksSlept_statuses s _⟩

/-- What WAIT_READY leaves as it was (R132). -/
theorem waitReady_frame (s : State) :
    payloadKept s (waitReady s) ∧ abufKept s (waitReady s) ∧ decoderKept s (waitReady s) ∧
      frameWorkKept s (waitReady s) ∧ (waitReady s).idx = s.idx ∧ (waitReady s).draws = s.draws ∧
      hostKept s (waitReady s) := by
  rcases ready_or_never s with ⟨k, hk⟩ | hk
  · rw [waitReady_ready hk]
    exact ⟨⟨rfl, fun _ => rfl⟩, fun _ => rfl, ⟨rfl, rfl⟩, ⟨rfl, rfl⟩, rfl, rfl, rfl, rfl⟩
  · rw [waitReady_never hk]
    exact ⟨⟨rfl, fun _ => rfl⟩, fun _ => rfl, ⟨rfl, rfl⟩, ⟨rfl, rfl⟩, rfl, rfl, rfl, rfl⟩

/-- WAIT_READY ends at rest, and its result is bit 0 of the last status byte (R132). -/
theorem waitReady_result (s : State) :
    atRest (waitReady s) ∧ (readyBit (waitReady s).statb = true → succeeded (waitReady s)) ∧
      (readyBit (waitReady s).statb = false → failedWith .timeout (waitReady s)) := by
  rcases ready_or_never s with ⟨k, hk⟩ | hk
  · rw [waitReady_ready hk]
    obtain ⟨-, -, hlast⟩ := hk
    exact ⟨⟨rfl, rfl, rfl⟩, fun _ => ⟨rfl, rfl⟩, fun h => absurd (hlast.symm.trans h) (by decide)⟩
  · rw [waitReady_never hk]
    have hlast := hk (probeBudget s - 1) (Nat.lt_succ_self _)
    exact ⟨⟨rfl, rfl, rfl⟩, fun h => absurd (hlast.symm.trans h) (by decide), fun _ => ⟨rfl, rfl⟩⟩

/-- Settles O16: the outcome is `waitReady_result`, the frame `waitReady_keeps` and `waitReady_frame`. -/
theorem waitReadyCompletesAndTouchesNothingElse : Obligations.WaitReadyCompletesAndTouchesNothingElse := by
  intro s hb
  obtain ⟨hrest, hok, hfail⟩ := waitReady_result s
  obtain ⟨hpayload, habuf, hdecoder, hwork, hframe⟩ := waitReady_frame s
  exact ⟨waitReady s, exec_waitReady_eq_next.2 ⟨hb, rfl⟩, hrest, hok, hfail, (waitReady_keeps s).operands, hpayload,
    habuf, hdecoder, hwork, hframe⟩

/-- Settles O17: each of the three operations commutes with setting `TIMEOUT` within its decade. -/
theorem timeoutsOfOneDecadeBehaveAlike : Obligations.TimeoutsOfOneDecadeBehaveAlike := by
  rintro i s t v (rfl | rfl | rfl) hv he
  · obtain ⟨hb, rfl⟩ := exec_waitReady_eq_next.1 he
    exact exec_waitReady_eq_next.2 ⟨hb, (waitReady_setTimeout hv).symm⟩
  · obtain ⟨hb, rfl⟩ := exec_awaitAck_eq_next.1 he
    exact exec_awaitAck_eq_next.2 ⟨hb, (awaitAck_setTimeout hv).symm⟩
  · obtain ⟨hb, hm, rfl⟩ := exec_receive_eq_next.1 he
    exact exec_receive_eq_next.2 ⟨hb, hm, (receive_setTimeout hv).symm⟩

end Sys2Proof.Machine
end

section
/-! Proofs of the family 42_frame_encoder.md: what ENCODE_SEND and the data-write transaction send and leave (R141 to
R144). -/

namespace Sys2Proof.Machine

/-- `LEN` of a payload of `n` bytes is `n + 1` (R94). -/
theorem lenOf_of_length {payload : List Byte} {n : BitVec 8} (h : payload.length = n.toNat) :
    lenOf payload = n + 1 := by
  rw [lenOf, h, BitVec.ofNat_add, BitVec.ofNat_toNat, BitVec.setWidth_eq]; rfl

/-- With `CBUF` specified, ENCODE_SEND sends the frame of its bytes. -/
theorem encodeSend_of_holdsBytes {s : State} {c : List Byte} (hc : s.clen.toNat ≤ 254) (hl : c.length = s.clen.toNat)
    (hb : holdsBytes s.cbuf c) :
    (encodeSend s).trace = s.trace ++ writeEvents (frameBytes Config.dirH2d c) ∧
      (encodeSend s).xfers = s.xfers + (c.length + 9) := by
  rw [encodeSend, sendCommand_of_holdsBytes hl hc hb, sendFrame_eq]
  exact ⟨rfl, rfl⟩

/-- Settles O18: the bytes of the frame are written out by `frameBytes_eq`. -/
theorem encodeSendEmitsExactlyTheFrame : Obligations.EncodeSendEmitsExactlyTheFrame := by
  intro s c hb hc hl hholds
  obtain ⟨htrace, hxfers⟩ := encodeSend_of_holdsBytes hc hl hholds
  refine ⟨encodeSend s, exec_encodeSend_eq_next.2 ⟨hb, hc, rfl⟩, ?_, hxfers⟩
  rw [htrace, frameBytes_eq, lenOf_of_length hl]
  rfl

/-- What the data-write transaction leaves as it was, whatever it carries (R142). -/
theorem sendFrame_frame (payload : List Byte) (s : State) :
    payloadKept s (sendFrame payload s) ∧ abufKept s (sendFrame payload s) ∧ decoderKept s (sendFrame payload s) ∧
      pollerKept s (sendFrame payload s) ∧ resultsKept s (sendFrame payload s) ∧
      sequencerKept s (sendFrame payload s) ∧ hostKept s (sendFrame payload s) := by
  rw [sendFrame_eq]
  exact ⟨⟨rfl, fun _ => rfl⟩, fun _ => rfl, ⟨rfl, rfl⟩, ⟨rfl, rfl⟩, ⟨rfl, rfl⟩, ⟨rfl, rfl⟩, rfl, rfl⟩

/-- What the data-write transaction sends and counts (R141, R143). -/
theorem sendFrame_effect (payload : List Byte) (s : State) :
    (sendFrame payload s).trace = s.trace ++ writeEvents (frameBytes Config.dirH2d payload) ∧
      (sendFrame payload s).cs = false ∧ (sendFrame payload s).len = lenOf payload ∧
      (sendFrame payload s).csum = Config.dirH2d + sum8 payload ∧
      (sendFrame payload s).idx = BitVec.ofNat 8 payload.length ∧ (sendFrame payload s).draws = s.draws := by
  rw [sendFrame_eq]
  exact ⟨rfl, rfl, rfl, rfl, rfl, rfl⟩

theorem ofNat_length {payload : List Byte} {n : BitVec 8} (h : payload.length = n.toNat) :
    BitVec.ofNat 8 payload.length = n := by
  rw [h, BitVec.ofNat_toNat, BitVec.setWidth_eq]

/-- Settles O19: ENCODE_SEND is the data-write transaction of some payload that agrees with `CBUF`, and completion. -/
theorem encodeSendCompletesAndKeepsBothLaws : Obligations.EncodeSendCompletesAndKeepsBothLaws := by
  intro s hb hc
  obtain ⟨bs, d, hl, hagree, hdraws, he⟩ := encodeSend_eq hc
  obtain ⟨htrace, hcs, hlen, hcsum, hidx, -⟩ := sendFrame_effect bs s
  obtain ⟨hpayload, habuf, hdecoder, hpoller, -, -, hhost⟩ := sendFrame_frame bs s
  have hkeeps := (encodeSend_keeps hc).operands
  refine ⟨encodeSend s, bs, exec_encodeSend_eq_next.2 ⟨hb, hc, rfl⟩, ?_⟩
  rw [he] at hkeeps ⊢
  refine ⟨⟨rfl, rfl, hcs⟩, ⟨rfl, rfl⟩, hl, hagree, ⟨lcsOf (lenOf bs), dcsOf 0xD4 bs, ?length, add_neg8 _, ?sent⟩,
    hlen.trans (lenOf_of_length hl), hcsum, hidx.trans (ofNat_length hl), hkeeps, hpayload, habuf, hdecoder, hpoller,
    hdraws, hhost⟩
  case length => rw [hlen]; exact add_neg8 _
  case sent => simp only [hlen, htrace, frameBytes_eq]; rfl

/-- A buffer that is specified up to `n` holds some `n` bytes. -/
theorem exists_holdsBytes_of_specified {m : Memory} {n : Nat} (h : specified m n) :
    ∃ bytes, bytes.length = n ∧ holdsBytes m bytes := by
  refine ⟨(List.range n).map fun i => (Memory.read m i).getD 0, by simp, fun i hi => ?_⟩
  obtain ⟨b, hb⟩ := Option.isSome_iff_exists.1 (h i (by simpa using hi))
  simp [hb]

/-- Settles O20: the bytes that `CBUF` of the one state holds, `CBUF` of the other holds too, and both send their
frame. -/
theorem encodeSendTraceDependsOnlyOnTheCommand : Obligations.EncodeSendTraceDependsOnlyOnTheCommand := by
  intro s u hbs hbu hc hclen hspec hsame
  obtain ⟨bytes, hl, hholds⟩ := exists_holdsBytes_of_specified hspec
  have hholds' : holdsBytes u.cbuf bytes := fun i hi => (hsame i (hl ▸ hi)).trans (hholds i hi)
  exact ⟨encodeSend s, encodeSend u, writeEvents (frameBytes Config.dirH2d bytes),
    exec_encodeSend_eq_next.2 ⟨hbs, hc, rfl⟩, exec_encodeSend_eq_next.2 ⟨hbu, hclen ▸ hc, rfl⟩,
    (encodeSend_of_holdsBytes hc hl hholds).1, (encodeSend_of_holdsBytes (hclen ▸ hc) (hclen ▸ hl) hholds').1⟩

/-- Settles O21: the row is `sendCommand`, the data-write transaction of some payload that agrees with `CBUF`. -/
theorem dataWriteTransactionCarriesTheCommand : Obligations.DataWriteTransactionCarriesTheCommand := by
  intro s hb hc
  obtain ⟨bs, d, hl, hagree, hdraws, he⟩ := sendCommand_eq hc
  obtain ⟨htrace, hcs, hlen, hcsum, hidx, -⟩ := sendFrame_effect bs s
  obtain ⟨hpayload, habuf, hdecoder, hpoller, hresults, hsequencer, hhost⟩ := sendFrame_frame bs s
  have hkeeps := (sendCommand_keeps hc).operands
  refine ⟨sendCommand s, bs, exec_markerDataWrite_eq_next.2 ⟨hb, hc, rfl⟩, hl, hagree, ?_⟩
  rw [he] at hkeeps ⊢
  exact ⟨htrace, hcs, hlen.trans (lenOf_of_length hl), hcsum, hidx.trans (ofNat_length hl), hkeeps, hpayload, habuf,
    hdecoder, hpoller, hresults, hsequencer, hdraws, hhost⟩

/-- Settles O22: `hostPayload` finds the payload again, and the row sends its frame and completes. -/
theorem hostFrameIsSentAsItStands : Obligations.HostFrameIsSentAsItStands := by
  intro s payload hb hl
  obtain ⟨htrace, hcs, hlen, hcsum, hidx, hdraws⟩ := sendFrame_effect payload s
  obtain ⟨hpayload, habuf, hdecoder, hpoller, -, -, hhost⟩ := sendFrame_frame payload s
  refine ⟨complete .encodeSend (succeed (sendFrame payload s)),
    (exec_frameH2d_of_sent (hostPayload_frame hl)).2 ⟨hb, rfl⟩, ⟨rfl, rfl, hcs⟩, ⟨rfl, rfl⟩, htrace, ?len, hcsum, ?idx,
    (sendFrame_keeps payload s).operands, hpayload, habuf, hdecoder, hpoller, hdraws, hhost⟩
  case len => exact (congrArg BitVec.toNat hlen).trans (lenOf_toNat hl)
  case idx =>
    refine (congrArg BitVec.toNat hidx).trans ?_
    rw [BitVec.toNat_ofNat, Nat.mod_eq_of_lt (by omega)]

end Sys2Proof.Machine
end

section
/-! Proofs of the family 43_ack_handshake.md: AWAIT_ACK and the acknowledgment frame (R156 to R162). -/

namespace Sys2Proof.Machine

/-- The comparison of step 8, by the six bytes that stand in `ABUF` (R158). -/
theorem judgeAck_result {s : State} {m : Memory} {bytes : List Byte} (hcs : s.cs = false)
    (habuf : s.abuf = Memory.writeAll m 0 bytes) (hl : bytes.length = 6) :
    (bytes = Config.ackPattern → succeeded (judgeAck s)) ∧
      (bytes ≠ Config.ackPattern → failedWith .handshakeMismatch (judgeAck s)) := by
  rw [judgeAck_eq hcs]
  refine ⟨fun h => ?_, fun h => ?_⟩
  · rw [(ackMatches_iff habuf hl).2 h]; exact ⟨rfl, rfl⟩
  · rw [Bool.eq_false_iff.2 (mt (ackMatches_iff habuf hl).1 h)]; exact ⟨rfl, rfl⟩

/-- Steps 3 to 10 of AWAIT_ACK: the block ends at rest, one read transaction of six bytes later (R158, R159). -/
theorem judgeAck_readAck (s : State) :
    atRest (judgeAck (readAck s)) ∧ (judgeAck (readAck s)).trace = s.trace ++ readEvents (given s 1 6) ∧
      (given s 1 6 = Config.ackPattern → succeeded (judgeAck (readAck s))) ∧
      (given s 1 6 ≠ Config.ackPattern → failedWith .handshakeMismatch (judgeAck (readAck s))) := by
  have hcs : (readAck s).cs = false := by rw [readAck_eq]
  refine ⟨?rest, ?trace, judgeAck_result (m := s.abuf) hcs (by rw [readAck_eq]) (given_length s 1 6)⟩
  case rest => rw [judgeAck_eq hcs]; exact ⟨rfl, rfl, hcs⟩
  case trace => rw [judgeAck_eq hcs, readAck_eq]

/-- What steps 3 to 10 leave as they were; `ABUF` is unspecified afterwards (R39, R157). -/
theorem judgeAck_readAck_frame (s : State) :
    (∀ i, Memory.read (judgeAck (readAck s)).abuf i = none) ∧ payloadKept s (judgeAck (readAck s)) ∧
      decoderKept s (judgeAck (readAck s)) ∧ frameWorkKept s (judgeAck (readAck s)) ∧
      pollerKept s (judgeAck (readAck s)) ∧ (judgeAck (readAck s)).draws = s.draws ∧
      hostKept s (judgeAck (readAck s)) := by
  rw [judgeAck_eq (by rw [readAck_eq]), readAck_eq]
  exact ⟨Memory.read_nil, ⟨rfl, fun _ => rfl⟩, ⟨rfl, rfl⟩, ⟨rfl, rfl⟩, ⟨rfl, rfl⟩, rfl, rfl, rfl⟩

/-- Settles O23: after the wait, the six bytes the device gives are those compared with the pattern. -/
theorem awaitAckAcceptsExactlyThePattern : Obligations.AwaitAckAcceptsExactlyThePattern := by
  intro s k a hb hk hl hgives
  have hgiven : given (readyState s k) 1 6 = a := (given_readyState s k 1 6).trans (given_eq hgives hl)
  obtain ⟨hrest, htrace, hmatch, hmismatch⟩ := judgeAck_readAck (readyState s k)
  rw [hgiven] at htrace hmatch hmismatch
  refine ⟨awaitAck s, exec_awaitAck_eq_next.2 ⟨hb, rfl⟩, ?_⟩
  rw [awaitAck_ready hk]
  exact ⟨hrest, htrace, hmatch, hmismatch⟩

/-- Settles O24: AWAIT_ACK ends with its wait, which no read transaction follows. -/
theorem awaitAckTimesOutWithoutReading : Obligations.AwaitAckTimesOutWithoutReading := by
  intro s hb hn
  refine ⟨awaitAck s, exec_awaitAck_eq_next.2 ⟨hb, rfl⟩, ?_⟩
  rw [awaitAck_never hn, ← timedOutState_trace]
  exact ⟨⟨rfl, rfl, rfl⟩, ⟨rfl, rfl⟩, rfl⟩

/-- The three outcomes of AWAIT_ACK (R157). -/
theorem awaitAck_outcome (s : State) :
    succeeded (awaitAck s) ∨ failedWith .timeout (awaitAck s) ∨ failedWith .handshakeMismatch (awaitAck s) := by
  rcases ready_or_never s with ⟨k, hk⟩ | hk
  · obtain ⟨-, -, hmatch, hmismatch⟩ := judgeAck_readAck (readyState s k)
    rw [awaitAck_ready hk]
    by_cases h : given (readyState s k) 1 6 = Config.ackPattern
    · exact .inl (hmatch h)
    · exact .inr (.inr (hmismatch h))
  · rw [awaitAck_never hk]
    exact .inr (.inl ⟨rfl, rfl⟩)

/-- What AWAIT_ACK leaves (R39, R157). -/
theorem awaitAck_frame (s : State) :
    (∀ i, Memory.read (awaitAck s).abuf i = none) ∧ decoderKept s (awaitAck s) ∧ frameWorkKept s (awaitAck s) ∧
      (awaitAck s).draws = s.draws ∧ hostKept s (awaitAck s) := by
  rcases ready_or_never s with ⟨k, hk⟩ | hk
  · obtain ⟨habuf, -, hdecoder, hwork, -, hdraws, hhost⟩ := judgeAck_readAck_frame (readyState s k)
    rw [awaitAck_ready hk]
    exact ⟨habuf, hdecoder, hwork, hdraws, hhost⟩
  · rw [awaitAck_never hk]
    exact ⟨Memory.read_nil, ⟨rfl, rfl⟩, ⟨rfl, rfl⟩, rfl, rfl, rfl⟩

/-- Settles O25: the outcome is `awaitAck_outcome`, the frame `awaitAck_keeps` and `awaitAck_frame`. -/
theorem awaitAckCompletesAndTouchesNothingElse : Obligations.AwaitAckCompletesAndTouchesNothingElse := by
  intro s hb
  obtain ⟨hrest, hpayload⟩ := awaitAck_rest s
  obtain ⟨habuf, hdecoder, hwork, hframe⟩ := awaitAck_frame s
  exact ⟨awaitAck s, exec_awaitAck_eq_next.2 ⟨hb, rfl⟩, hrest, awaitAck_outcome s, habuf, (awaitAck_keeps s).operands,
    hpayload, hdecoder, hwork, hframe⟩

/-- A device that is given the bytes to answer gives them after the exchange of the marker (log 13). -/
theorem withAnswers_gives (bytes : List Byte) (s : State) : deviceGives (withAnswers bytes s) 1 bytes :=
  deviceGives_of_rx s.rx rfl

/-- Settles O26: the six bytes the row gives are the pattern. -/
theorem acknowledgmentFrameIsAccepted : Obligations.AcknowledgmentFrameIsAccepted := by
  intro s hb
  have hgiven : given (withAnswers (encode .ack) s) 1 6 = Config.ackPattern :=
    given_eq (withAnswers_gives (encode .ack) s) rfl
  obtain ⟨hrest, htrace, hmatch, -⟩ := judgeAck_readAck (withAnswers (encode .ack) s)
  obtain ⟨-, hpayload, hdecoder, hwork, hpoller, hdraws, hhost⟩ := judgeAck_readAck_frame (withAnswers (encode .ack) s)
  have hkeeps := (withAnswers_keeps (encode .ack) s).trans ((readAck_keeps _).trans (judgeAck_keeps _))
  rw [hgiven] at htrace
  refine ⟨_, exec_ack_eq_next.2 ⟨hb, rfl⟩, hrest, hmatch hgiven, htrace, ?rx, ?xfers, hkeeps.operands, hpayload,
    hdecoder, hwork, hpoller, hdraws, hhost⟩
  case rx => rw [judgeAck_eq (by rw [readAck_eq]), readAck_eq]; rfl
  case xfers => rw [judgeAck_eq (by rw [readAck_eq]), readAck_eq]; rfl

end Sys2Proof.Machine
end

section
/-! Proofs of the family 20_memory.md, the data-read transaction by itself (R74, log 12): how many bytes each operation
wants of it, and where they are put. -/

namespace Sys2Proof.Machine

theorem Operation.exists_code (c : BitVec 2) : ∃ op : Operation, c = op.code := by
  have hcase : c = 0 ∨ c = 1 ∨ c = 2 ∨ c = 3 := by bv_omega
  rcases hcase with rfl | rfl | rfl | rfl
  · exact ⟨.waitReady, rfl⟩
  · exact ⟨.encodeSend, rfl⟩
  · exact ⟨.awaitAck, rfl⟩
  · exact ⟨.receive, rfl⟩

/-- Under an operation that reads no frame, chip-select is released after the marker. -/
theorem csRelease_openRead (s : State) :
    csRelease (openRead s) =
      { s with trace := s.trace ++ readEvents [], rx := s.rx.drop 1, xfers := s.xfers + 1, cs := false } := by
  rw [openRead_eq]
  ext1 <;> simp [readEvents]

/-- Under RECEIVE, the bytes its checks decide are read and the transaction is closed whatever they say. -/
theorem dataRead_receive_eq (s : State) :
    ∃ u : State, dataRead .receive s =
      { s with
        len := u.len, lcsr := u.lcsr, dirr := u.dirr, csum := u.csum, idx := u.idx, cs := false
        pbuf := Memory.writeAll s.pbuf 0 (given s 7 (payloadReads s))
        trace := s.trace ++ readEvents (given s 1 (frameReads s))
        rx := s.rx.drop (frameReads s + 1), xfers := s.xfers + (frameReads s + 1) } := by
  obtain ⟨e, u, hr, -, -, hu⟩ := readFrame_exact s
  refine ⟨u, ?_⟩
  rw [dataRead, hr, hu]
  cases e with
  | none => ext1 <;> simp [csReleaseIfAsserted, readEvents]
  | some e => ext1 <;> simp [csReleaseIfAsserted, readEvents]

theorem read_writeAll_given (m : Memory) (s : State) {k n j : Nat} (hj : j < n) :
    Memory.read (Memory.writeAll m 0 (given s k n)) j = some (answerAt s (k + j)) := by
  have hread := Memory.read_writeAll (given s k n) m 0 (j := j) (by rwa [given_length])
  rw [Nat.zero_add] at hread
  rw [hread]
  simp [given]

theorem read_writeAll_given_above (m : Memory) (s : State) {k n j : Nat} (hj : n ≤ j) :
    Memory.read (Memory.writeAll m 0 (given s k n)) j = Memory.read m j :=
  Memory.read_writeAll_above _ _ (by rw [given_length]; omega)

/-- Settles O27: the operation `OPSEL` names decides the transaction, each of the four has its equation. -/
theorem dataReadTransactionReadsWhatIsWanted : Obligations.DataReadTransactionReadsWhatIsWanted := by
  intro s hb hm
  obtain ⟨op, hop⟩ := Operation.exists_code s.opsel
  have hexec : exec .markerDataRead s = .next (dataRead op s) := by
    refine exec_markerDataRead_eq_next.2 ⟨hb, fun h => hm ?_, by rw [hop, Operation.ofCode_code]⟩
    rw [hop, Operation.ofCode_code] at h
    rw [hop, h]; rfl
  have hkeeps := (dataRead_keeps op s).operands
  rw [hop]
  cases op with
  | waitReady | encodeSend =>
    refine ⟨_, 0, hexec, ?_⟩
    rw [dataRead, csRelease_openRead] at hkeeps ⊢
    exact ⟨rfl, rfl, rfl, rfl, fun _ => ⟨rfl, rfl⟩, fun h => absurd h (by decide), fun h => absurd h (by decide),
      fun _ => ⟨⟨rfl, fun _ => rfl⟩, ⟨rfl, rfl⟩, rfl, rfl⟩, fun _ _ => rfl, rfl, hkeeps, ⟨rfl, rfl⟩, ⟨rfl, rfl⟩,
      ⟨rfl, rfl⟩, rfl, rfl, rfl⟩
  | awaitAck =>
    refine ⟨_, 6, hexec, ?_⟩
    rw [dataRead, readAck_eq] at hkeeps ⊢
    exact ⟨rfl, rfl, rfl, rfl, fun h => absurd h (by decide),
      fun _ => ⟨rfl, fun j hj => read_writeAll_given s.abuf s hj⟩, fun h => absurd h (by decide),
      fun _ => ⟨⟨rfl, fun _ => rfl⟩, ⟨rfl, rfl⟩, rfl, rfl⟩, fun h => absurd rfl h, rfl, hkeeps, ⟨rfl, rfl⟩, ⟨rfl, rfl⟩,
      ⟨rfl, rfl⟩, rfl, rfl, rfl⟩
  | receive =>
    obtain ⟨u, hu⟩ := dataRead_receive_eq s
    refine ⟨_, frameReads s, hexec, ?_⟩
    rw [hu] at hkeeps ⊢
    exact ⟨rfl, rfl, rfl, rfl, fun h => absurd h (by decide), fun h => absurd h (by decide),
      fun _ => ⟨rfl, fun j hj => read_writeAll_given s.pbuf s hj, fun j hj => read_writeAll_given_above s.pbuf s hj⟩,
      fun h => absurd rfl h, fun _ _ => rfl, rfl, hkeeps, ⟨rfl, rfl⟩, ⟨rfl, rfl⟩, ⟨rfl, rfl⟩, rfl, rfl, rfl⟩

end Sys2Proof.Machine
end

section
/-! Proofs of the family 44_frame_decoder.md: RECEIVE before a ready device, by the bytes the device gives (R171 to
R187). -/

namespace Sys2Proof.Machine

/-! Frames that pass (O28, O29). -/

/-- Settles O29: `receive_good_results` asks nothing of the four framing bytes. -/
theorem receiveDoesNotLookAtFramingBytes : Obligations.ReceiveDoesNotLookAtFramingBytes := by
  intro s k p x y z post hb hm hp hk hgives
  obtain ⟨hok, hplen, hpbuf, hrest, -⟩ := receive_good_results hp hm hk hgives
  exact ⟨receive s, exec_receive_of_legal hb hm, hok, hplen, hpbuf, hrest⟩

/-! The header checks, each with what it leaves (O30). The header is `x y z LEN LCS DIR`. -/

section Header

variable {s : State} {k : Nat} {x y z len lcs dir : Byte}

/-- How a RECEIVE ends that a check fails: at rest, in kind `e`, no payload, the bytes read up to the check in its one
read transaction (R173, R236). -/
def failsAfterReading (s : State) (k : Nat) (e : ErrKind) (bytes : List Byte) : Prop :=
  atRest (receive s) ∧ failedWith e (receive s) ∧ payloadLost (receive s) ∧
    (receive s).trace = s.trace ++ waitEvents (statuses s (k + 1)) ++ readEvents bytes

theorem failsAfterReading.kind {e : ErrKind} {bytes : List Byte} (h : failsAfterReading s k e bytes) :
    failedWith e (receive s) := by
  obtain ⟨-, hfail, -⟩ := h
  exact hfail

theorem receive_badLength (hk : readyAtProbe s k) (hgives : deviceGives s (afterProbe k) [x, y, z, len, lcs])
    (hlaw : len + lcs ≠ 0) : failsAfterReading s k .checksumMismatch [x, y, z, len, lcs] := by
  have hlen : answerAt (readyState s k) 4 = len := answerAt_ready_gives (j := 3) hgives (by simp)
  have hlcs : answerAt (readyState s k) 5 = lcs := answerAt_ready_gives (j := 4) hgives (by simp)
  have hgiven : given (readyState s k) 1 5 = [x, y, z, len, lcs] :=
    (given_ready_gives (m := 0) hgives (by simp)).trans rfl
  refine receive_failed hk (readFrame_badLength (by rw [hlen, hlcs]; exact decide_eq_false hlaw)) rfl ?_
  rw [← hgiven]
  exact List.append_assoc _ _ _

/-- The state in which the direction is checked has read the six bytes of the header. -/
theorem dirRead_trace (hgives : deviceGives s (afterProbe k) [x, y, z, len, lcs, dir]) :
    (dirRead (readyState s k)).trace = s.trace ++ waitEvents (statuses s (k + 1)) ++
      ([.csAssert, .write Config.mRead] ++ List.map Event.read [x, y, z, len, lcs, dir]) := by
  have hgiven : given (readyState s k) 1 6 = [x, y, z, len, lcs, dir] :=
    (given_ready_gives (m := 0) hgives (by simp)).trans rfl
  rw [← hgiven]
  exact List.append_assoc _ _ _

theorem header_answers (hgives : deviceGives s (afterProbe k) [x, y, z, len, lcs, dir]) :
    answerAt (readyState s k) 4 = len ∧ answerAt (readyState s k) 5 = lcs ∧ answerAt (readyState s k) 6 = dir :=
  ⟨answerAt_ready_gives (j := 3) hgives (by simp), answerAt_ready_gives (j := 4) hgives (by simp),
    answerAt_ready_gives (j := 5) hgives (by simp)⟩

variable (hk : readyAtProbe s k) (hgives : deviceGives s (afterProbe k) [x, y, z, len, lcs, dir])
  (hlaw : len + lcs = 0)

include hk hgives hlaw

theorem receive_badDirection (hdir : dir ≠ 0xD5) :
    failsAfterReading s k .unexpectedDirection [x, y, z, len, lcs, dir] := by
  obtain ⟨hlen, hlcs, hd⟩ := header_answers hgives
  exact receive_failed hk (readFrame_badDirection (by rw [hlen, hlcs]; exact decide_eq_true hlaw)
    (by rw [hd]; exact hdir)) rfl (dirRead_trace hgives)

theorem receive_lenZero (hdir : dir = 0xD5) (hzero : len = 0) :
    failsAfterReading s k .bufferTooSmall [x, y, z, len, lcs, dir] := by
  obtain ⟨hlen, hlcs, hd⟩ := header_answers hgives
  exact receive_failed hk (readFrame_lenZero (by rw [hlen, hlcs]; exact decide_eq_true hlaw) (hd.trans hdir)
    (hlen.trans hzero)) rfl (dirRead_trace hgives)

theorem receive_overCapacity (hdir : dir = 0xD5) (hover : s.maxlen.toNat + 1 < len.toNat) :
    failsAfterReading s k .bufferTooSmall [x, y, z, len, lcs, dir] := by
  obtain ⟨hlen, hlcs, hd⟩ := header_answers hgives
  have hne : len ≠ 0 := by rintro rfl; exact absurd hover (Nat.not_lt_zero _)
  have hcap : s.maxlen.toNat < (len - 1).toNat := by have := toNat_sub_one hne; omega
  exact receive_failed hk (readFrame_overCapacity (by rw [hlen, hlcs]; exact decide_eq_true hlaw) (hd.trans hdir)
    (by rw [hlen]; exact hne) (by rw [hlen]; exact hcap)) rfl (dirRead_trace hgives)

end Header

/-- Settles O30: one lemma for each check, in the order of the checks. -/
theorem receiveStopsAtTheFirstFailedHeaderCheck : Obligations.ReceiveStopsAtTheFirstFailedHeaderCheck := by
  intro s k x y z len lcs dir hb hm hk hgives
  have hexec := exec_receive_of_legal hb hm
  have hfive : deviceGives s (afterProbe k) [x, y, z, len, lcs] :=
    (deviceGives_append (xs := [x, y, z, len, lcs]) (ys := [dir]).1 hgives).1
  exact ⟨fun hlaw => ⟨_, hexec, receive_badLength hk hfive hlaw⟩,
    fun hlaw hdir => ⟨_, hexec, receive_badDirection hk hgives hlaw hdir⟩,
    fun hlaw hdir hzero => ⟨_, hexec, receive_lenZero hk hgives hlaw hdir hzero⟩,
    fun hlaw hdir hover => ⟨_, hexec, receive_overCapacity hk hgives hlaw hdir hover⟩⟩

/-- Settles O28: a device frame passes every check, a host frame fails the check of the direction. -/
theorem receiveDeliversDeviceFramesAndRejectsHostFrames :
    Obligations.ReceiveDeliversDeviceFramesAndRejectsHostFrames := by
  intro s k p hb hm hp hk
  refine ⟨fun hgives => ?device, fun hgives => ?host⟩
  case device =>
    rw [frameBytes_eq] at hgives
    obtain ⟨hok, hplen, hpbuf, -, htrace⟩ := receive_good_results hp hm hk hgives
    exact ⟨receive s, exec_receive_of_legal hb hm, hok, hplen, hpbuf, by rw [htrace, frameBytes_eq]⟩
  case host =>
    rw [frameBytes_eq, List.append_assoc] at hgives
    exact ⟨receive s, exec_receive_of_legal hb hm,
      (receive_badDirection hk (deviceGives_append.1 hgives).1 (add_neg8 _) (by decide)).kind⟩

/-- Settles O31: `receive_badData`, in which nothing is read after the data checksum. -/
theorem receiveRejectsABadDataChecksum : Obligations.ReceiveRejectsABadDataChecksum := by
  intro s k p x y z dcs hb hm hp hk hlaw hgives
  exact ⟨receive s, exec_receive_of_legal hb hm, receive_badData hm hp hk hlaw hgives⟩

/-! One flipped bit (O32). -/

/-- `b` with bit `k` flipped. -/
def flipped (b : Byte) (k : Nat) : Byte := b ^^^ BitVec.twoPow 8 k

theorem flipBit_length (bytes : List Byte) (j k : Nat) : (flipBit bytes j k).length = bytes.length :=
  List.length_modify _ _ _

section Flip

variable {s : State} {k b : Nat} {p : List Byte}

/-- A flipped bit of the payload is detected by the data checksum: the sum changes, `LEN` does not. -/
theorem receive_payloadFlipped (hm : s.maxlen.toNat ≤ 254) (hp : p.length ≤ s.maxlen.toNat) (hk : readyAtProbe s k)
    (hb : b < 8) {i : Nat} (hi : i < p.length)
    (hgives : deviceGives s (afterProbe k)
      ([0x00, 0x00, 0xFF, lenOf p, lcsOf (lenOf p), 0xD5] ++ flipBit p i b ++ [dcsOf 0xD5 p])) :
    failedWith .checksumMismatch (receive s) := by
  have hlen : lenOf p = lenOf (flipBit p i b) := by rw [lenOf, lenOf, flipBit_length]
  have hsum : sum8 (flipBit p i b) ≠ sum8 p := sum8_modify_ne (fun c => xor_twoPow_ne c hb) p i hi
  have hlaw : 0xD5 + sum8 (flipBit p i b) + dcsOf 0xD5 p ≠ 0 :=
    add_ne_zero_left (add_neg8 (0xD5 + sum8 p)) fun h => hsum (add_left_cancel h)
  rw [hlen] at hgives
  obtain ⟨-, hfail, -⟩ := receive_badData hm (by rwa [flipBit_length]) hk hlaw hgives
  exact hfail

/-- A flipped bit of the data checksum itself breaks its law. -/
theorem receive_dcsFlipped (hm : s.maxlen.toNat ≤ 254) (hp : p.length ≤ s.maxlen.toNat) (hk : readyAtProbe s k)
    (hb : b < 8)
    (hgives : deviceGives s (afterProbe k)
      ([0x00, 0x00, 0xFF, lenOf p, lcsOf (lenOf p), 0xD5] ++ p ++ [flipped (dcsOf 0xD5 p) b])) :
    failedWith .checksumMismatch (receive s) := by
  have hlaw : 0xD5 + sum8 p + flipped (dcsOf 0xD5 p) b ≠ 0 :=
    add_ne_zero_right (add_neg8 (0xD5 + sum8 p)) (xor_twoPow_ne _ hb)
  obtain ⟨-, hfail, -⟩ := receive_badData hm hp hk hlaw hgives
  exact hfail

end Flip

/-- The header of a frame and what follows it: a flip in the first six bytes is one of the header alone. -/
theorem flipBit_header (p : List Byte) {j : Nat} (b : Nat) (hj : j < 6) :
    flipBit (frameBytes 0xD5 p) j b =
      flipBit [0x00, 0x00, 0xFF, lenOf p, lcsOf (lenOf p), 0xD5] j b ++ p ++ [dcsOf 0xD5 p, 0x00] := by
  rw [frameBytes_eq, List.append_assoc, flipBit_append_left _ _ _ _ hj, List.append_assoc]

theorem flipBit_payload (p : List Byte) {i : Nat} (b : Nat) (hi : i < p.length) :
    flipBit (frameBytes 0xD5 p) (6 + i) b =
      [0x00, 0x00, 0xFF, lenOf p, lcsOf (lenOf p), 0xD5] ++ flipBit p i b ++ [dcsOf 0xD5 p, 0x00] := by
  rw [frameBytes_eq, flipBit_append_left _ _ _ _ (by simp; omega)]
  exact congrArg (· ++ _) (flipBit_append_right [0x00, 0x00, 0xFF, lenOf p, lcsOf (lenOf p), 0xD5] p i b)

/-- A flip behind the payload is one of `DCS` and the postamble alone. -/
theorem flipBit_trailer (p : List Byte) (i b : Nat) :
    flipBit (frameBytes 0xD5 p) (p.length + 6 + i) b =
      [0x00, 0x00, 0xFF, lenOf p, lcsOf (lenOf p), 0xD5] ++ p ++ flipBit [dcsOf 0xD5 p, 0x00] i b := by
  rw [frameBytes_eq, ← flipBit_append_right, List.length_append, Nat.add_comm p.length 6]
  rfl

/-- A flip in the preamble or the start code changes one of the three bytes that RECEIVE drops. -/
theorem flipBit_dropped (x y z len lcs dir : Byte) {j : Nat} (b : Nat) (hj : j ≤ 2) :
    ∃ x' y' z', flipBit [x, y, z, len, lcs, dir] j b = [x', y', z', len, lcs, dir] := by
  have hcase : j = 0 ∨ j = 1 ∨ j = 2 := by omega
  rcases hcase with rfl | rfl | rfl
  · exact ⟨flipped x b, y, z, rfl⟩
  · exact ⟨x, flipped y b, z, rfl⟩
  · exact ⟨x, y, flipped z b, rfl⟩

/-- The six bytes of the header, of a device that gives the flipped frame. -/
theorem header_gives {s : State} {m j b : Nat} {p : List Byte} (hj : j < 6)
    (hgives : deviceGives s m (flipBit (frameBytes 0xD5 p) j b)) :
    deviceGives s m (flipBit [0x00, 0x00, 0xFF, lenOf p, lcsOf (lenOf p), 0xD5] j b) := by
  rw [flipBit_header p b hj, List.append_assoc] at hgives
  exact (deviceGives_append.1 hgives).1

theorem receive_lengthFlipped {s : State} {k j b : Nat} {p : List Byte} (hk : readyAtProbe s k) (hb : b < 8)
    (hj : j = 3 ∨ j = 4) (hgives : deviceGives s (afterProbe k) (flipBit (frameBytes 0xD5 p) j b)) :
    failedWith .checksumMismatch (receive s) := by
  have hsplit (len lcs : Byte) (h : deviceGives s (afterProbe k) ([0x00, 0x00, 0xFF, len, lcs] ++ [0xD5]))
      (hlaw : len + lcs ≠ 0) : failedWith .checksumMismatch (receive s) :=
    (receive_badLength hk (deviceGives_append.1 h).1 hlaw).kind
  have hheader := header_gives (by omega) hgives
  rcases hj with rfl | rfl
  · exact hsplit (flipped (lenOf p) b) _ hheader (add_ne_zero_left (add_neg8 _) (xor_twoPow_ne _ hb))
  · exact hsplit _ (flipped (lcsOf (lenOf p)) b) hheader (add_ne_zero_right (add_neg8 _) (xor_twoPow_ne _ hb))

theorem receive_dirFlipped {s : State} {k b : Nat} {p : List Byte} (hk : readyAtProbe s k) (hb : b < 8)
    (hgives : deviceGives s (afterProbe k) (flipBit (frameBytes 0xD5 p) 5 b)) :
    failedWith .unexpectedDirection (receive s) :=
  (receive_badDirection (dir := flipped 0xD5 b) hk (header_gives (by omega) hgives) (add_neg8 _)
    (xor_twoPow_ne _ hb)).kind

/-- A flip in a byte that RECEIVE does not look at leaves an acceptable frame. -/
theorem flipBit_unlooked {p : List Byte} {j : Nat} (b : Nat) (hj : j ≤ 2 ∨ j = p.length + 7) :
    ∃ x y z post, flipBit (frameBytes 0xD5 p) j b =
      [x, y, z, lenOf p, lcsOf (lenOf p), 0xD5] ++ p ++ [dcsOf 0xD5 p, post] := by
  rcases hj with hj | rfl
  · obtain ⟨x, y, z, h⟩ := flipBit_dropped 0x00 0x00 0xFF (lenOf p) (lcsOf (lenOf p)) 0xD5 b hj
    exact ⟨x, y, z, 0x00, by rw [flipBit_header p b (by omega), h]⟩
  · exact ⟨0x00, 0x00, 0xFF, flipped 0x00 b, flipBit_trailer p 1 b⟩

/-- Settles O32: the flip is placed in the header, the payload or the trailer, and each place has its lemma. -/
theorem receiveDetectsSingleBitErrors : Obligations.ReceiveDetectsSingleBitErrors := by
  intro s k p j b hb hm hp hk hj hb8 hgives
  refine ⟨receive s, exec_receive_of_legal hb hm, ?check, ?direction, fun h => ?framing⟩
  case check =>
    rintro (h | h | ⟨h6, hlast⟩)
    · exact receive_lengthFlipped hk hb8 (.inl h) hgives
    · exact receive_lengthFlipped hk hb8 (.inr h) hgives
    obtain ⟨i, rfl⟩ : ∃ i, j = 6 + i := ⟨j - 6, by omega⟩
    by_cases hi : i < p.length
    · rw [flipBit_payload p b hi] at hgives
      exact receive_payloadFlipped hm hp hk hb8 hi
        (deviceGives_append (ys := [0x00]).1 (by rwa [List.append_assoc])).1
    · obtain rfl : i = p.length := by omega
      have htrailer := flipBit_trailer p 0 b
      rw [Nat.add_zero, Nat.add_comm] at htrailer
      rw [htrailer] at hgives
      exact receive_dcsFlipped hm hp hk hb8 (deviceGives_append (ys := [0x00]).1 (by rwa [List.append_assoc])).1
  case direction => rintro rfl; exact receive_dirFlipped hk hb8 hgives
  case framing =>
    obtain ⟨x, y, z, post, hframe⟩ := flipBit_unlooked b h
    rw [hframe] at hgives
    obtain ⟨hok, hplen, hpbuf, -⟩ := receive_good_results hp hm hk hgives
    exact ⟨hok, hplen, hpbuf⟩

end Sys2Proof.Machine
end

section
/-! Proofs of the family 44_frame_decoder.md: what RECEIVE makes of any answers, and the FRAME rows judged as RECEIVE
judges (R171 to R187, log 13). -/

namespace Sys2Proof.Machine

/-- The verdict on the frame the device gives in a read transaction begun now: the first check that fails, in the order
of R184. -/
def verdict (s : State) : Option ErrKind :=
  if answerAt s 4 + answerAt s 5 ≠ 0 then some .checksumMismatch
  else if answerAt s 6 ≠ Config.dirD2h then some .unexpectedDirection
  else if headerPasses s = false then some .bufferTooSmall
  else if Config.dirD2h + sum8 (given s 7 (payloadReads s)) + answerAt s (7 + payloadReads s) ≠ 0 then
    some .checksumMismatch
  else none

/-- RECEIVE's own reading reaches this verdict. -/
theorem readFrame_verdict (s : State) : (readFrame s).1 = verdict s := by
  rw [verdict]
  split
  case isTrue hz => rw [readFrame_badLength (decide_eq_false hz)]
  case isFalse hz =>
  have hz : answerAt s 4 + answerAt s 5 = 0 := not_not.1 hz
  have hlaw : lengthLaw (answerAt s 4) (answerAt s 5) = true := decide_eq_true hz
  split
  case isTrue hd => rw [readFrame_badDirection hlaw hd]
  case isFalse hd =>
  have hd : answerAt s 6 = Config.dirD2h := not_not.1 hd
  split
  case isTrue hh =>
    by_cases h0 : answerAt s 4 = 0
    · rw [readFrame_lenZero hlaw hd h0]
    · have hcap : s.maxlen.toNat < (answerAt s 4 - 1).toNat := by
        by_contra hcap
        have hsub := toNat_sub_one h0
        exact absurd ((headerPasses_iff s).2 ⟨hz, hd, h0, by omega⟩) (by rw [hh]; decide)
      rw [readFrame_overCapacity hlaw hd h0 hcap]
  case isFalse hh =>
  have hh : headerPasses s = true := by simpa using hh
  obtain ⟨-, -, h0, -⟩ := (headerPasses_iff s).1 hh
  have hm : (answerAt s 4 - 1).toNat = payloadReads s := by rw [payloadReads, if_pos hh, (toNat_sub_one h0).1]
  split
  case isTrue hdata => rw [readFrame_badData hlaw hd h0 hm (payloadReads_le s) (decide_eq_false hdata)]
  case isFalse hdata => rw [readFrame_good hlaw hd h0 hm (payloadReads_le s) (decide_eq_true (not_not.1 hdata))]

theorem verdict_kinds (s : State) :
    verdict s = none ∨ verdict s = some .checksumMismatch ∨ verdict s = some .unexpectedDirection ∨
      verdict s = some .bufferTooSmall := by
  obtain ⟨e, u, hr, -, hkinds, -⟩ := readFrame_exact s
  rw [← readFrame_verdict, hr]
  exact hkinds

/-- What RECEIVE leaves once the device is ready: all that the verdict and the counts of R173 decide; the working
registers are those of `w`. -/
def judged (s w : State) : State :=
  { s with
    len := w.len, lcsr := w.lcsr, dirr := w.dirr, csum := w.csum, idx := w.idx, cs := false
    ok := (verdict s).isNone, err := (verdict s).getD .none
    plen := if verdict s = none then BitVec.ofNat 8 (payloadReads s) else 0
    pbuf := if verdict s = none then Memory.writeAll s.pbuf 0 (given s 7 (payloadReads s)) else []
    trace := s.trace ++ readEvents (given s 1 (frameReads s))
    rx := s.rx.drop (frameReads s + 1), xfers := s.xfers + (frameReads s + 1), phase := .idle, busy := false }

theorem judgeFrame_readFrame (s : State) : ∃ w, judgeFrame (readFrame s) = judged s w := by
  obtain ⟨e, u, hr, hlen, -, hu⟩ := readFrame_exact s
  have hv : verdict s = e := by rw [← readFrame_verdict, hr]
  refine ⟨u, ?_⟩
  rw [hr]
  cases e with
  | none =>
    have hplen : u.len = BitVec.ofNat 8 (payloadReads s) := by
      rw [← hlen rfl, BitVec.ofNat_toNat, BitVec.setWidth_eq]
    rw [judgeFrame_good, hu]
    simp only [judged, hv]
    ext1 <;> simp [readEvents, hplen]
  | some e =>
    rw [judgeFrame_bad, raise_eq, hu]
    simp only [judged, hv]
    ext1 <;> simp [readEvents]

/-! What the verdict says of `judged`. -/

section Judged

variable {s w : State}

theorem judged_rest (s w : State) : atRest (judged s w) := ⟨rfl, rfl, rfl⟩

theorem judged_failed {e : ErrKind} (h : verdict s = some e) :
    failedWith e (judged s w) ∧ payloadLost (judged s w) := by
  simp only [judged, h]
  exact ⟨⟨rfl, rfl⟩, rfl, Memory.read_nil⟩

theorem judged_succeeded (hm : s.maxlen.toNat ≤ 254) (h : verdict s = none) :
    succeeded (judged s w) ∧ (judged s w).plen.toNat = payloadReads s ∧
      (judged s w).pbuf = Memory.writeAll s.pbuf 0 (given s 7 (payloadReads s)) := by
  simp only [judged, h]
  refine ⟨⟨rfl, rfl⟩, ?_, rfl⟩
  have hle := payloadReads_le s
  show (BitVec.ofNat 8 (payloadReads s)).toNat = _
  rw [BitVec.toNat_ofNat, Nat.mod_eq_of_lt (by omega)]

/-- A payload that is received fits, is specified, and leaves `PBUF` beyond it as it was (R38, R179). -/
theorem judged_payload (hm : s.maxlen.toNat ≤ 254) (h : verdict s = none) :
    (judged s w).plen.toNat ≤ s.maxlen.toNat ∧ specified (judged s w).pbuf (judged s w).plen.toNat ∧
      ∀ i, (judged s w).plen.toNat ≤ i → Memory.read (judged s w).pbuf i = Memory.read s.pbuf i := by
  obtain ⟨-, hplen, hpbuf⟩ := judged_succeeded (w := w) hm h
  rw [hplen, hpbuf]
  exact ⟨payloadReads_le s, fun i hi => by rw [read_writeAll_given s.pbuf s hi]; rfl,
    fun i hi => read_writeAll_given_above s.pbuf s hi⟩

end Judged

/-- The outcome of RECEIVE (R172): a payload, or no payload and one of the four kinds. -/
def receiveOutcome (s t : State) : Prop :=
  (succeeded t ∧ t.plen.toNat ≤ s.maxlen.toNat ∧ specified t.pbuf t.plen.toNat ∧
      ∀ i, t.plen.toNat ≤ i → Memory.read t.pbuf i = Memory.read s.pbuf i) ∨
    (payloadLost t ∧ (failedWith .timeout t ∨ failedWith .checksumMismatch t ∨ failedWith .unexpectedDirection t ∨
      failedWith .bufferTooSmall t))

theorem judged_outcome {s : State} (hm : s.maxlen.toNat ≤ 254) (w : State) : receiveOutcome s (judged s w) := by
  rcases verdict_kinds s with h | h | h | h
  · exact .inl ⟨(judged_succeeded hm h).1, judged_payload hm h⟩
  · exact .inr ⟨(judged_failed h).2, .inr (.inl (judged_failed h).1)⟩
  · exact .inr ⟨(judged_failed h).2, .inr (.inr (.inl (judged_failed h).1))⟩
  · exact .inr ⟨(judged_failed h).2, .inr (.inr (.inr (judged_failed h).1))⟩

theorem receive_outcome {s : State} (hm : s.maxlen.toNat ≤ 254) : receiveOutcome s (receive s) := by
  rcases ready_or_never s with ⟨k, hk⟩ | hk
  · obtain ⟨w, hw⟩ := judgeFrame_readFrame (readyState s k)
    rw [receive_ready hk, hw]
    exact judged_outcome (s := readyState s k) hm w
  · obtain ⟨hfail, hlost⟩ := receive_results_of_neverReady hk
    exact .inr ⟨hlost, .inl hfail⟩

theorem receive_draws (s : State) : (receive s).draws = s.draws := by
  rcases ready_or_never s with ⟨k, hk⟩ | hk
  · obtain ⟨w, hw⟩ := judgeFrame_readFrame (readyState s k)
    rw [receive_ready hk, hw]; rfl
  · rw [receive_never hk]; rfl

/-- Settles O34: the outcome is `receive_outcome`, the frame `receive_keeps`, `receive_host` and `receive_draws`. -/
theorem receiveCompletesAndTouchesNothingElse : Obligations.ReceiveCompletesAndTouchesNothingElse := by
  intro s hb hm
  obtain ⟨hhost, hinbox, habuf, -⟩ := receive_host s
  exact ⟨receive s, exec_receive_of_legal hb hm, receive_rest s, receive_outcome hm, (receive_keeps s).operands,
    fun i => by rw [habuf], receive_draws s, hhost, hinbox⟩

/-! A frame given as an instruction (O35, O36). -/

/-- Of the device's answers, what is left of a frame that was read in part is dropped, and its further ones stay. -/
theorem drop_unread {frame further : List Byte} {n : Nat} (hn : n ≤ frame.length) :
    ((0 :: frame ++ further).drop (n + 1)).drop (((0 :: frame ++ further).drop (n + 1)).length - further.length) =
      further := by
  have hdrop : (0 :: frame ++ further).drop (n + 1) = frame.drop n ++ further :=
    List.drop_append_of_le_length (Nat.succ_le_succ hn)
  rw [hdrop, List.length_append, Nat.add_sub_cancel, List.drop_left]

/-- What a given frame leaves that is read within its bytes. -/
theorem frameJudged_frame {frame : List Byte} {s : State} (hn : frameReads (withAnswers frame s) ≤ frame.length) :
    (frameJudged frame s).rx = s.rx ∧ abufKept s (frameJudged frame s) ∧ pollerKept s (frameJudged frame s) ∧
      (frameJudged frame s).draws = s.draws ∧ hostKept s (frameJudged frame s) ∧
      (frameJudged frame s).xfers = s.xfers + (frameReads (withAnswers frame s) + 1) := by
  obtain ⟨w, hw⟩ := judgeFrame_readFrame (withAnswers frame s)
  rw [frameJudged, hw]
  exact ⟨drop_unread (frame := frame) hn, fun _ => rfl, ⟨rfl, rfl⟩, rfl, ⟨rfl, rfl⟩, rfl⟩

theorem given_frame {s : State} {m n : Nat} {frame : List Byte} (h : deviceGives s m frame) (hn : n ≤ frame.length) :
    given s m n = frame.take n := by
  rw [← List.take_append_drop n frame, deviceGives_append] at h
  rw [given_eq h.1 (by rw [List.length_take]; omega)]

theorem frameJudged_trace {frame : List Byte} {s : State} (hn : frameReads (withAnswers frame s) ≤ frame.length) :
    (frameJudged frame s).trace = s.trace ++ readEvents (frame.take (frameReads (withAnswers frame s))) := by
  obtain ⟨w, hw⟩ := judgeFrame_readFrame (withAnswers frame s)
  rw [← given_frame (withAnswers_gives frame s) hn, frameJudged, hw]
  rfl

/-- The header of a frame that a device gives now. -/
theorem header_answerAt {s : State} {len lcs dir : Byte} {body : List Byte}
    (h : deviceGives s 1 (frameHeader len lcs dir ++ body)) :
    answerAt s 4 = len ∧ answerAt s 5 = lcs ∧ answerAt s 6 = dir :=
  ⟨h 3 (by simp [frameHeader]), h 4 (by simp [frameHeader]), h 5 (by simp [frameHeader])⟩

theorem frameReads_of_not_passes {s : State} (h : headerPasses s = false) : frameReads s ≤ 6 := by
  rw [frameReads, if_pos h]
  split <;> omega

/-- Of a frame whose `LEN` counts its bytes no byte is missing to RECEIVE (R100, R173). -/
theorem frameReads_le_frame {s : State} {len lcs dir : Byte} {body : List Byte}
    (h : deviceGives s 1 (frameHeader len lcs dir ++ body)) (hwf : wfBody len body = true) :
    frameReads s ≤ (frameHeader len lcs dir ++ body).length := by
  have hl : (frameHeader len lcs dir ++ body).length = 6 + bodyLength len := by
    rw [List.length_append, show body.length = bodyLength len from of_decide_eq_true hwf]; rfl
  rw [hl]
  cases hh : headerPasses s with
  | false => exact (frameReads_of_not_passes hh).trans (Nat.le_add_right _ _)
  | true =>
    obtain ⟨hlen, -, -⟩ := header_answerAt h
    obtain ⟨-, -, h0, -⟩ := (headerPasses_iff s).1 hh
    have hreads : payloadReads s = len.toNat - 1 := by rw [payloadReads, if_pos hh, hlen]
    have hbody : bodyLength len = len.toNat + 1 := if_neg (hlen ▸ h0)
    have hpos : 0 < len.toNat := hlen ▸ (toNat_sub_one h0).2
    have hbounds := frameReads_bounds s
    omega

theorem frameJudged_rest (frame : List Byte) (s : State) : atRest (frameJudged frame s) := by
  obtain ⟨w, hw⟩ := judgeFrame_readFrame (withAnswers frame s)
  rw [frameJudged, hw]
  exact judged_rest (withAnswers frame s) w

/-- How a given frame ends that a check fails (R236). -/
theorem frameJudged_failed {frame : List Byte} {s : State} {e : ErrKind}
    (hv : verdict (withAnswers frame s) = some e) :
    failedWith e (frameJudged frame s) ∧ payloadLost (frameJudged frame s) := by
  obtain ⟨w, hw⟩ := judgeFrame_readFrame (withAnswers frame s)
  obtain ⟨⟨hok, herr⟩, hplen, hpbuf⟩ := judged_failed (w := w) hv
  rw [frameJudged, hw]
  exact ⟨⟨hok, herr⟩, hplen, hpbuf⟩

/-- A frame with host direction fails the length checksum or, after it, the check of the direction (R187). -/
theorem hostFrame_verdict {s : State} {len lcs : Byte} {body : List Byte}
    (h : deviceGives s 1 (frameHeader len lcs Config.dirH2d ++ body)) :
    (len + lcs ≠ 0 → verdict s = some .checksumMismatch ∧ frameReads s = 5) ∧
      (len + lcs = 0 → verdict s = some .unexpectedDirection ∧ frameReads s = 6) := by
  obtain ⟨hlen, hlcs, hdir⟩ := header_answerAt h
  have hd : answerAt s 6 ≠ Config.dirD2h := by rw [hdir]; decide
  have hpasses : headerPasses s = false := decide_eq_false fun ⟨_, h, _⟩ => hd h
  rw [verdict, frameReads, hlen, hlcs, if_pos hd, if_pos hpasses]
  refine ⟨fun hlaw => ?_, fun hlaw => ?_⟩
  · rw [if_pos hlaw, if_pos hlaw]; exact ⟨rfl, rfl⟩
  · rw [if_neg (not_not.2 hlaw), if_neg (not_not.2 hlaw)]; exact ⟨rfl, rfl⟩

theorem take_five_frameHeader (len lcs dir : Byte) (body : List Byte) :
    (frameHeader len lcs dir ++ body).take 5 = [0x00, 0x00, 0xFF, len, lcs] := rfl

theorem take_six_frameHeader (len lcs dir : Byte) (body : List Byte) :
    (frameHeader len lcs dir ++ body).take 6 = [0x00, 0x00, 0xFF, len, lcs, dir] := rfl

/-- Settles O36: of the checks only the length checksum can come before that of the direction, which `0xD4` fails. -/
theorem frameThatNoHostSendsIsRejected : Obligations.FrameThatNoHostSendsIsRejected := by
  intro s len lcs body hb hm hwf hsent
  refine ⟨_, (exec_frameH2d_of_judged (hostPayload_eq_none hsent)).2 ⟨hb, hm, rfl⟩, ?_⟩
  rw [encode]
  have hgives := withAnswers_gives (frameHeader len lcs Config.dirH2d ++ body) s
  have hreads := frameReads_le_frame hgives hwf
  have htrace := frameJudged_trace hreads
  obtain ⟨hrx, habuf, hpoller, hdraws, hhost, -⟩ := frameJudged_frame hreads
  have hkeeps := (frameJudged_keeps (frameHeader len lcs Config.dirH2d ++ body) s).operands
  have hrest := frameJudged_rest (frameHeader len lcs Config.dirH2d ++ body) s
  obtain ⟨hbad, hgood⟩ := hostFrame_verdict hgives
  by_cases hlaw : len + lcs = 0
  case neg =>
    obtain ⟨hverdict, hcount⟩ := hbad hlaw
    obtain ⟨hfail, hlost⟩ := frameJudged_failed hverdict
    rw [hcount, take_five_frameHeader] at htrace
    exact ⟨hrest, hlost, fun _ => ⟨hfail, htrace⟩, fun h => absurd h hlaw, hrx, hkeeps, habuf, hpoller, hdraws, hhost⟩
  case pos =>
    obtain ⟨hverdict, hcount⟩ := hgood hlaw
    obtain ⟨hfail, hlost⟩ := frameJudged_failed hverdict
    rw [hcount, take_six_frameHeader] at htrace
    exact ⟨hrest, hlost, fun h => absurd hlaw h, fun _ => ⟨hfail, htrace⟩, hrx, hkeeps, habuf, hpoller, hdraws, hhost⟩

/-! Two devices that give the same frame are read and judged alike. -/

section Alike

variable {a b : State} {frame : List Byte}

theorem answerAt_alike (ha : deviceGives a 1 frame) (hb : deviceGives b 1 frame) {j : Nat} (hj : j < frame.length) :
    answerAt a (1 + j) = answerAt b (1 + j) := (ha j hj).trans (hb j hj).symm

theorem given_alike (ha : deviceGives a 1 frame) (hb : deviceGives b 1 frame) {m n : Nat}
    (hn : m + n ≤ frame.length) : given a (1 + m) n = given b (1 + m) n := by
  refine List.map_congr_left fun j hj => ?_
  rw [Nat.add_assoc]
  exact answerAt_alike ha hb (by have := List.mem_range.1 hj; omega)

variable (ha : deviceGives a 1 frame) (hb : deviceGives b 1 frame) (hm : a.maxlen = b.maxlen)
  (hn : frameReads a ≤ frame.length) (hl : 6 ≤ frame.length)

include ha hb hm hl

theorem headerPasses_alike : headerPasses a = headerPasses b := by
  have h4 : answerAt a 4 = answerAt b 4 := answerAt_alike ha hb (j := 3) (by omega)
  have h5 : answerAt a 5 = answerAt b 5 := answerAt_alike ha hb (j := 4) (by omega)
  have h6 : answerAt a 6 = answerAt b 6 := answerAt_alike ha hb (j := 5) (by omega)
  rw [headerPasses, headerPasses, h4, h5, h6, hm]

theorem payloadReads_alike : payloadReads a = payloadReads b := by
  have h4 : answerAt a 4 = answerAt b 4 := answerAt_alike ha hb (j := 3) (by omega)
  rw [payloadReads, payloadReads, headerPasses_alike ha hb hm hl, h4]

include hn

/-- The payload and the data checksum stand in the frame, where the header passes. -/
theorem payload_alike (hh : headerPasses a = true) :
    given a 7 (payloadReads a) = given b 7 (payloadReads b) ∧
      answerAt a (7 + payloadReads a) = answerAt b (7 + payloadReads b) := by
  obtain ⟨hz, -⟩ := (headerPasses_iff a).1 hh
  have hreads : payloadReads a + 7 ≤ frameReads a := by
    rw [frameReads, if_neg (not_not.2 hz), if_neg (by rw [hh]; decide)]
    split <;> omega
  rw [← payloadReads_alike ha hb hm hl]
  refine ⟨given_alike ha hb (m := 6) (by omega), ?_⟩
  have hdcs := answerAt_alike ha hb (j := 6 + payloadReads a) (by omega)
  rwa [← Nat.add_assoc] at hdcs

theorem frame_alike :
    verdict a = verdict b ∧ frameReads a = frameReads b ∧
      given a 7 (payloadReads a) = given b 7 (payloadReads b) := by
  have h4 : answerAt a 4 = answerAt b 4 := answerAt_alike ha hb (j := 3) (by omega)
  have h5 : answerAt a 5 = answerAt b 5 := answerAt_alike ha hb (j := 4) (by omega)
  have h6 : answerAt a 6 = answerAt b 6 := answerAt_alike ha hb (j := 5) (by omega)
  have hpasses := headerPasses_alike ha hb hm hl
  cases hh : headerPasses a with
  | true =>
    obtain ⟨hpayload, hdcs⟩ := payload_alike ha hb hm hn hl hh
    have hreads := payloadReads_alike ha hb hm hl
    refine ⟨?_, ?_, hpayload⟩
    · rw [verdict, verdict, h4, h5, h6, hpasses, hpayload, hdcs]
    · rw [frameReads, frameReads, h4, h5, hpasses, hpayload, hdcs, hreads]
  | false =>
    have hh' : headerPasses b = false := hpasses ▸ hh
    refine ⟨?_, ?_, ?_⟩
    · rw [verdict, verdict, h4, h5, h6, if_pos hh, if_pos hh']
    · rw [frameReads, frameReads, h4, h5, if_pos hh, if_pos hh']
    · rw [payloadReads, payloadReads, hh, hh']; rfl

end Alike

/-- The results agree where the verdict and the payload do. -/
theorem judged_alike {a b : State} (hv : verdict a = verdict b) (hr : payloadReads a = payloadReads b)
    (hp : given a 7 (payloadReads a) = given b 7 (payloadReads b)) (hpbuf : a.pbuf = b.pbuf) (w w' : State) :
    (judged a w).ok = (judged b w').ok ∧ (judged a w).err = (judged b w').err ∧
      (judged a w).plen = (judged b w').plen ∧ (judged a w).pbuf = (judged b w').pbuf := by
  rw [judged, judged, hv, hp, hr, hpbuf]
  exact ⟨rfl, rfl, rfl, rfl⟩

/-- The device of the comparison: ready at the first probe, giving `frame` after it. -/
def scripted (junk status junk' : Byte) (frame : List Byte) (s : State) : State :=
  { s with rx := [junk, status, junk'] ++ frame ++ s.rx }

section Scripted

variable {junk status junk' : Byte} {frame : List Byte} {s : State}

theorem scripted_ready (h : readyBit status = true) : readyAtProbe (scripted junk status junk' frame s) 0 :=
  ⟨Nat.succ_pos _, fun _ hi => absurd hi (Nat.not_lt_zero _), h⟩

theorem scripted_gives : deviceGives (readyState (scripted junk status junk' frame s) 0) 1 frame :=
  deviceGives_of_rx s.rx rfl

variable (hr : readyBit status = true) (hn : frameReads (withAnswers frame s) ≤ frame.length) (hl : 6 ≤ frame.length)

include hr hn hl

/-- RECEIVE from that device reads after its probe what the instruction reads of the frame. -/
theorem receive_scripted_reads :
    (receive (scripted junk status junk' frame s)).trace =
        s.trace ++ waitEvents [status] ++ readEvents (frame.take (frameReads (withAnswers frame s))) ∧
      (receive (scripted junk status junk' frame s)).xfers =
        s.xfers + 2 + (frameReads (withAnswers frame s) + 1) := by
  have hgives : deviceGives (readyState (scripted junk status junk' frame s) 0) 1 frame := scripted_gives
  obtain ⟨-, hcount, -⟩ := frame_alike (withAnswers_gives frame s) hgives rfl hn hl
  obtain ⟨w, hw⟩ := judgeFrame_readFrame (readyState (scripted junk status junk' frame s) 0)
  rw [receive_ready (scripted_ready hr), hw, ← given_frame hgives hn, hcount]
  exact ⟨rfl, rfl⟩

/-- And it judges it as the instruction does. -/
theorem receive_scripted_results :
    (frameJudged frame s).ok = (receive (scripted junk status junk' frame s)).ok ∧
      (frameJudged frame s).err = (receive (scripted junk status junk' frame s)).err ∧
      (frameJudged frame s).plen = (receive (scripted junk status junk' frame s)).plen ∧
      (frameJudged frame s).pbuf = (receive (scripted junk status junk' frame s)).pbuf := by
  have hgives : deviceGives (readyState (scripted junk status junk' frame s) 0) 1 frame := scripted_gives
  obtain ⟨hv, -, hpayload⟩ := frame_alike (withAnswers_gives frame s) hgives rfl hn hl
  have hreads := payloadReads_alike (withAnswers_gives frame s) hgives rfl hl
  obtain ⟨w, hw⟩ := judgeFrame_readFrame (withAnswers frame s)
  obtain ⟨w', hw'⟩ := judgeFrame_readFrame (readyState (scripted junk status junk' frame s) 0)
  rw [receive_ready (scripted_ready hr), hw', frameJudged, hw]
  exact judged_alike hv hreads hpayload rfl w w'

end Scripted

/-- Settles O35: the row and RECEIVE read from devices that give the same frame, so they make the same transaction and
reach the same verdict. -/
theorem deviceFrameIsJudgedAsByReceive : Obligations.DeviceFrameIsJudgedAsByReceive := by
  intro s len lcs body junk status junk' hb hm hwf hr
  rw [encode]
  have hreads := frameReads_le_frame (withAnswers_gives (frameHeader len lcs Config.dirD2h ++ body) s) hwf
  have hl : 6 ≤ (frameHeader len lcs Config.dirD2h ++ body).length := by
    rw [List.length_append]; exact Nat.le_add_right _ _
  obtain ⟨hsent, hcount⟩ := receive_scripted_reads (junk := junk) (junk' := junk') hr hreads hl
  obtain ⟨hok, herr, hplen, hpbuf⟩ := receive_scripted_results (junk := junk) (junk' := junk') hr hreads hl
  obtain ⟨hrx, habuf, hpoller, hdraws, hhost, hxfers⟩ := frameJudged_frame hreads
  exact ⟨frameJudged (frameHeader len lcs Config.dirD2h ++ body) s, _, _, exec_frameD2h_eq_next.2 ⟨hb, hm, rfl⟩,
    exec_receive_of_legal hb hm, hreads, frameJudged_trace hreads, hsent, hxfers, hcount, hok, herr, hplen,
    fun i => congrArg (Memory.read · i) hpbuf, frameJudged_rest _ s, hrx, (frameJudged_keeps _ s).operands, habuf,
    hpoller, hdraws, hhost⟩

end Sys2Proof.Machine
end

section
/-! Proofs of the family 10_state.md 6: the sequencer refines every operation and ends it within its bound (R40 to R44,
R239). -/

namespace Sys2Proof.Machine

/-- The operation as a whole, from acceptance to completion. -/
def wholeOperation : Operation → State → State
  | .waitReady => waitReady
  | .encodeSend => encodeSend
  | .awaitAck => awaitAck
  | .receive => receive

theorem exec_instr_next {op : Operation} {s t : State} (h : exec op.instr s = .next t) : t = wholeOperation op s := by
  cases op with
  | waitReady => exact (exec_waitReady_eq_next.1 h).2
  | encodeSend => obtain ⟨-, -, ht⟩ := exec_encodeSend_eq_next.1 h; exact ht
  | awaitAck => exact (exec_awaitAck_eq_next.1 h).2
  | receive => obtain ⟨-, -, ht⟩ := exec_receive_eq_next.1 h; exact ht

/-- No operation reads `BUSY`, which its acceptance sets. -/
theorem whole_setBusy (op : Operation) (s : State) : wholeOperation op (setBusy s) = wholeOperation op s := by
  cases op with
  | waitReady => exact waitReady_setBusy s
  | encodeSend => exact encodeSend_setBusy s
  | awaitAck => exact awaitAck_setBusy s
  | receive => exact receive_setBusy s

theorem whole_rest (op : Operation) (s : State) :
    (wholeOperation op s).busy = false ∧ (wholeOperation op s).phase = .idle := by
  cases op with
  | waitReady => exact ⟨rfl, rfl⟩
  | encodeSend => exact ⟨rfl, rfl⟩
  | awaitAck => obtain ⟨⟨hb, hp, -⟩, -⟩ := awaitAck_rest s; exact ⟨hb, hp⟩
  | receive => obtain ⟨hb, hp, -⟩ := receive_rest s; exact ⟨hb, hp⟩

/-! From the step after the poll to the end. -/

theorem seqRun_polled_waitReady (r : Bool) (s : State) :
    seqRun 2 (goTo (.polled .waitReady r) s) = complete .waitReady (recordPoll r s) := by
  rw [seqRun_succ, seqStep_polled, polledStep, recordPoll_goTo, goTo_goTo, seqRun_succ, seqStep_waitReady3, seqRun_zero]

theorem seqRun_polled_awaitAck (r : Bool) (s : State) :
    ∃ k, k ≤ 15 ∧ seqRun k (goTo (.polled .awaitAck r) s) =
      if r then judgeAck (readAck s) else raise .awaitAck .timeout s := by
  cases r with
  | true => exact ⟨14 + 1, by omega, by rw [seqRun_succ, seqStep_polled, polledStep, goTo_goTo, seqRun_ack]; rfl⟩
  | false => exact ⟨0 + 1, by omega, by rw [seqRun_succ, seqStep_polled, polledStep, raise_goTo]; rfl⟩

theorem seqRun_polled_receive (r : Bool) (s : State) :
    ∃ k, k ≤ 281 ∧ seqRun k (goTo (.polled .receive r) s) =
      if r then judgeFrame (readFrame s) else raise .receive .timeout s := by
  cases r with
  | true =>
    obtain ⟨k, hk, h⟩ := seqRun_readFrame s
    exact ⟨k + 1, by omega, by rw [seqRun_succ, seqStep_polled, polledStep, goTo_goTo, h]; rfl⟩
  | false => exact ⟨0 + 1, by omega, by rw [seqRun_succ, seqStep_polled, polledStep, raise_goTo]; rfl⟩

/-- ENCODE_SEND: eleven steps to its loop, one for each byte of `CBUF`, one to leave it, five after it (R141). -/
theorem seqRun_encodeSend (s : State) :
    seqRun (5 + (s.clen.toNat + 1) + 11) (goTo (.encode .e1) s) = encodeSend s := by
  have hidx : (startFrame (s.clen + 1) s).idx.toNat + s.clen.toNat = (startFrame (s.clen + 1) s).clen.toNat := by
    rw [startFrame_eq]; exact Nat.zero_add _
  rw [seqRun_startFrame, seqRun_sendFromCbuf _ _ _ hidx, seqRun_endFrame]
  rfl

/-- The poll, and what follows it, of the operations that begin with one (R42). -/
theorem seqRun_after_poll {p : Poller} {s t : State} {bound : Nat}
    (h : ∃ k, k ≤ bound ∧ seqRun k (goTo (.polled p (pollReady s).1) (pollReady s).2) = t) :
    ∃ n, n ≤ 9 * probeBudget s + 1 + bound ∧ seqRun n (goTo (.poll p .p1) s) = t := by
  obtain ⟨j, hj, hpoll⟩ := seqRun_poll p s
  obtain ⟨k, hk, hrest⟩ := h
  exact ⟨j + k, by omega, by rw [seqRun_add, hpoll, hrest]⟩

theorem seqRun_entry (op : Operation) (s : State) :
    ∃ n, n ≤ stepBound s ∧ seqRun n (goTo op.entry s) = wholeOperation op s := by
  cases op with
  | waitReady =>
    obtain ⟨n, hn, h⟩ := seqRun_after_poll (s := s) ⟨2, le_rfl, seqRun_polled_waitReady _ _⟩
    exact ⟨n, by unfold stepBound; omega, h⟩
  | encodeSend =>
    have hlt := s.clen.isLt
    exact ⟨5 + (s.clen.toNat + 1) + 11, by unfold stepBound; omega, seqRun_encodeSend s⟩
  | awaitAck =>
    obtain ⟨n, hn, h⟩ := seqRun_after_poll (s := s) (seqRun_polled_awaitAck _ _)
    exact ⟨n, by unfold stepBound; omega, h⟩
  | receive =>
    obtain ⟨n, hn, h⟩ := seqRun_after_poll (s := s) (seqRun_polled_receive _ _)
    exact ⟨n, by unfold stepBound; omega, h⟩

/-- An accepted request, one numbered step at a time, reaches what the operation as a whole gives. -/
theorem seqRun_accept (op : Operation) (s : State) :
    ∃ n, n ≤ stepBound s ∧ seqRun n (accept op s) = wholeOperation op s := by
  obtain ⟨n, hn, h⟩ := seqRun_entry op (setBusy s)
  exact ⟨n, hn, h.trans (whole_setBusy op s)⟩

/-- Settles O44: what `exec` gives is the whole operation, which `seqRun_accept` reaches. -/
theorem sequencerRefinesEveryOperation : Obligations.SequencerRefinesEveryOperation := by
  intro op s t h
  obtain rfl := exec_instr_next h
  exact seqRun_accept op s

/-- Settles O45: the operation has ended after some number of steps within the bound, and an idle block stays as it
is. -/
theorem everyAcceptedOperationEnds : Obligations.EveryAcceptedOperationEnds := by
  intro op s _
  obtain ⟨n, hn, h⟩ := seqRun_accept op s
  obtain ⟨hb, hp⟩ := whole_rest op s
  have hend : seqRun (stepBound s) (accept op s) = wholeOperation op s := by
    rw [← Nat.add_sub_cancel' hn, seqRun_add, h, seqRun_idle _ hp]
  rw [hend]
  exact ⟨hb, hp⟩

end Sys2Proof.Machine
end

section
/-! Proofs of the family 45_command_session.md: the exchange and the host's three sequences (R201 to R211). -/

namespace Sys2Proof.Machine

/-! What the two operations before RECEIVE send and leave (R201). -/

theorem holdsBytes_writeAll (m : Memory) (bytes : List Byte) : holdsBytes (Memory.writeAll m 0 bytes) bytes := by
  intro i hi
  have hread := Memory.read_writeAll bytes m 0 hi
  rwa [Nat.zero_add] at hread

theorem encodeSend_loadCommand_trace {cmd : List Byte} (s : State) (hl : cmd.length ≤ 254) :
    (encodeSend (loadCommand cmd s)).trace = s.trace ++ writeEvents (frameBytes Config.dirH2d cmd) :=
  (encodeSend_of_holdsBytes (loadCommand_clen_le s hl) (loadCommand_clen cmd s hl).symm
    (holdsBytes_writeAll s.cbuf cmd)).1

theorem sequence_sends {i : Instr} {cmd : List Byte} {m : BitVec 8} {s t : State}
    (hi : IsSequence i cmd m s.host.params) (he : exec i s = .next t) :
    s.trace ++ writeEvents (frameBytes Config.dirH2d cmd) <+: t.trace := by
  rw [← encodeSend_loadCommand_trace s (hi.length_le.trans (by decide))]
  exact sequence_trace hi he

/-- The frames of the three commands, with the default codes and card type 0 (R204, R207, R208). -/
theorem command_frames :
    frameBytes Config.dirH2d firmwareCommand = [0x00, 0x00, 0xFF, 0x02, 0xFE, 0xD4, 0x02, 0x2A, 0x00] ∧
      frameBytes Config.dirH2d [0x14, 0x01, Config.samTimeout, 0x01] =
        [0x00, 0x00, 0xFF, 0x05, 0xFB, 0xD4, 0x14, 0x01, 0x14, 0x01, 0x02, 0x00] ∧
      frameBytes Config.dirH2d [0x4A, 0x01, 0x00] =
        [0x00, 0x00, 0xFF, 0x04, 0xFC, 0xD4, 0x4A, 0x01, 0x00, 0xE1, 0x00] := by decide

/-- Settles O46: the frame each sequence sends is that of its command. -/
theorem sequencesSendTheirCommandFirst : Obligations.SequencesSendTheirCommandFirst := by
  intro s t
  obtain ⟨hfirmware, hsam, henum⟩ := command_frames
  refine ⟨fun he => ?firmware, fun he hmode hirq => ?sam, fun he hcard => ?enum⟩
  case firmware =>
    rw [← hfirmware]
    exact sequence_sends (.inl ⟨rfl, rfl, rfl⟩) he
  case sam =>
    have hsent := sequence_sends (.inr (.inl ⟨rfl, rfl, rfl⟩)) he
    rwa [samCommand, hmode, hirq, hsam] at hsent
  case enum =>
    have hsent := sequence_sends (.inr (.inr ⟨rfl, rfl, rfl⟩)) he
    rwa [enumCommand, hcard, henum] at hsent

theorem encodeSend_payloadKept {s : State} (hc : s.clen.toNat ≤ 254) : payloadKept s (encodeSend s) := by
  obtain ⟨bs, d, -, -, -, he⟩ := encodeSend_eq hc
  rw [he, sendFrame_eq]
  exact ⟨rfl, fun _ => rfl⟩

/-- The operands after the handshake, which the host wrote for it and for the command before it. -/
theorem sendAndAwait_leaves {cmd : List Byte} (s : State) (hl : cmd.length ≤ 254) :
    (sendAndAwait cmd s).clen = BitVec.ofNat 8 cmd.length ∧
      (sendAndAwait cmd s).cbuf = Memory.writeAll s.cbuf 0 cmd ∧ (sendAndAwait cmd s).maxlen = s.maxlen ∧
      (sendAndAwait cmd s).opsel = 2 ∧ (sendAndAwait cmd s).timeout = 10 ∧ payloadKept s (sendAndAwait cmd s) := by
  have hencode := encodeSend_keeps (loadCommand_clen_le s hl)
  have hawait := awaitAck_keeps (loadAck (encodeSend (loadCommand cmd s)))
  obtain ⟨-, hplen, hpbuf⟩ := awaitAck_rest (loadAck (encodeSend (loadCommand cmd s)))
  obtain ⟨hplen', hpbuf'⟩ := encodeSend_payloadKept (loadCommand_clen_le s hl)
  exact ⟨hawait.clen.trans hencode.clen, hawait.cbuf.trans hencode.cbuf, hawait.maxlen.trans hencode.maxlen,
    hawait.opsel, hawait.timeout, hplen.trans hplen', fun i => (hpbuf i).trans (hpbuf' i)⟩

/-! What an exchange leaves (O47). -/

/-- The block after an exchange: at rest, `CLEN` and `CBUF` those of the command, `ABUF` unspecified. -/
theorem exchange_leaves {cmd : List Byte} {m : BitVec 8} {e : ErrKind} {s u : State} (hl : cmd.length ≤ 254)
    (hx : exchange cmd m s = .ok (e, u)) :
    atRest u ∧ u.clen = BitVec.ofNat 8 cmd.length ∧ u.cbuf = Memory.writeAll s.cbuf 0 cmd ∧ u.abuf = [] := by
  obtain ⟨hclen, hcbuf, -⟩ := sendAndAwait_leaves s hl
  obtain ⟨-, -, habuf, -⟩ := awaitAck_host (loadAck (encodeSend (loadCommand cmd s)))
  rcases exchange_ended hx with ⟨-, rfl⟩ | ⟨-, rfl⟩
  · have hreceive := receive_keeps (receiveBegins cmd m s)
    obtain ⟨-, -, habuf', -⟩ := receive_host (receiveBegins cmd m s)
    exact ⟨receive_rest _, hreceive.clen.trans hclen, hreceive.cbuf.trans hcbuf, habuf'.trans habuf⟩
  · obtain ⟨hrest, -⟩ := awaitAck_rest (loadAck (encodeSend (loadCommand cmd s)))
    exact ⟨hrest, hclen, hcbuf, habuf⟩

/-- The operands that are those of RECEIVE where the exchange goes on to it, and of AWAIT_ACK where it does not. -/
theorem exchange_operands {cmd : List Byte} {m : BitVec 8} {e : ErrKind} {s u : State} (hl : cmd.length ≤ 254)
    (hx : exchange cmd m s = .ok (e, u)) :
    (goesOn cmd s → u.opsel = 3 ∧ u.timeout = 1000 ∧ u.maxlen = m) ∧
      (¬ goesOn cmd s → u.opsel = 2 ∧ u.timeout = 10 ∧ u.maxlen = s.maxlen ∧ payloadKept s u) := by
  rcases exchange_ended hx with ⟨hg, rfl⟩ | ⟨hg, rfl⟩
  · have hreceive := receive_keeps (receiveBegins cmd m s)
    exact ⟨fun _ => ⟨hreceive.opsel, hreceive.timeout, hreceive.maxlen⟩, fun hn => absurd hg hn⟩
  · obtain ⟨-, -, hmaxlen, hopsel, htimeout, hpayload⟩ := sendAndAwait_leaves s hl
    exact ⟨fun h => absurd h hg, fun _ => ⟨hopsel, htimeout, hmaxlen, hpayload⟩⟩

/-- Settles O47: what the exchange leaves, the host's reading of the response leaves too. -/
theorem sequencesLeaveTheirOperandsAndTheBlockAtRest : Obligations.SequencesLeaveTheirOperandsAndTheBlockAtRest := by
  intro i cmd m s t hi he
  have hi : IsSequence i cmd m s.host.params := hi
  have hl : cmd.length ≤ 254 := hi.length_le.trans (by decide)
  obtain ⟨e, u, hx, x, d, hparams, rfl⟩ := exchange_of_sequence_next hi he
  obtain ⟨hrest, hclen, hcbuf, habuf⟩ := exchange_leaves hl hx
  obtain ⟨hgoes, hstops⟩ := exchange_operands hl hx
  obtain ⟨hhost, hinbox⟩ := exchange_host hl hx
  refine ⟨hrest, ?clen, ?command, fun j hj => ?above, fun j => ?abuf, hparams.trans (by rw [hhost]), hinbox,
    fun hg => ?goes, fun hg => ?stops⟩
  case clen =>
    show u.clen.toNat = _
    rw [hclen]; exact loadCommand_clen cmd s hl
  case command =>
    show holdsBytes u.cbuf cmd
    rw [hcbuf]; exact holdsBytes_writeAll s.cbuf cmd
  case above =>
    show Memory.read u.cbuf j = _
    rw [hcbuf]; exact Memory.read_writeAll_above _ _ (by omega)
  case abuf =>
    show Memory.read u.abuf j = none
    rw [habuf]; exact Memory.read_nil j
  case goes =>
    obtain ⟨hopsel, htimeout, hmaxlen⟩ := hgoes hg
    exact ⟨hopsel, congrArg BitVec.toNat htimeout, hmaxlen⟩
  case stops =>
    obtain ⟨hopsel, htimeout, hmaxlen, hpayload⟩ := hstops hg
    exact ⟨hopsel, congrArg BitVec.toNat htimeout, hmaxlen, hpayload⟩

/-! The exchange by its policy (O50, O54). -/

/-- Settles O54: the exchange goes on or not as `goesOn` says, and each case has its equation. -/
theorem handshakePolicyDecidesTheExchange : Obligations.HandshakePolicyDecidesTheExchange := by
  intro cmd m s _
  refine ⟨fun habort hok => exchange_aborted ?_, fun hg hm => exchange_goesOn hm hg⟩
  rintro (h | h)
  · rw [habort] at h; cases h
  · rw [hok] at h; cases h

/-- The kind an exchange reports of its RECEIVE is none exactly if RECEIVE succeeded. -/
theorem receive_kind (s : State) :
    decide ((if (receive s).ok then ErrKind.none else (receive s).err) = .none) = (receive s).ok := by
  have hiff := receive_ok_iff s
  cases hok : (receive s).ok with
  | true => rfl
  | false =>
    rw [hok] at hiff
    exact decide_eq_false fun h => absurd (hiff.2 h) (by decide)

theorem sendAndAwait_failed {cmd : List Byte} {s : State} (hg : ¬ goesOn cmd s) :
    (sendAndAwait cmd s).err ≠ .none :=
  fun h => hg (.inr ((awaitAck_ok_iff (loadAck (encodeSend (loadCommand cmd s)))).2 h))

/-- An exchange leaves the host's own data to the sequence it is part of (R201). -/
theorem sequence_exchange_host {i : Instr} {cmd : List Byte} {m : BitVec 8} {e : ErrKind} {s u : State}
    (hi : IsSequence i cmd m s.host.params) (hx : exchange cmd m s = .ok (e, u)) : u.host = s.host :=
  (exchange_host (hi.length_le.trans (by decide)) hx).1

/-- Settles O50: the sequence records whether the kind is none, and changes nothing else of the host's. -/
theorem securityModuleSequenceReportsTheExchange : Obligations.SecurityModuleSequenceReportsTheExchange := by
  rintro s cmd hb rfl hcap
  have answers {e : ErrKind} {u : State}
      (hx : exchange (samCommand s.host.params) s.host.params.maxlenSam s = .ok (e, u)) :
      exec .configureSecurityModule s = .next (recordSam (decide (e = .none)) u) ∧
        (recordSam (decide (e = .none)) u).host = { s.host with samOk := decide (e = .none) } :=
    ⟨exec_configureSecurityModule_of_ended hb hx,
      by rw [recordSam, sequence_exchange_host (.inr (.inl ⟨rfl, rfl, rfl⟩)) hx]⟩
  by_cases hg : goesOn (samCommand s.host.params) s
  · have hx := exchange_goesOn (hcap.resolve_right (not_not.2 hg)) hg
    obtain ⟨hexec, hhost⟩ := answers hx
    exact ⟨_, _, _, hx, hexec, by rw [hhost], by rw [hhost]; exact decide_eq_true_iff,
      fun _ => by rw [hhost]; exact receive_kind _, fun h => absurd hg h⟩
  · have hx := exchange_aborted (m := s.host.params.maxlenSam) hg
    obtain ⟨hexec, hhost⟩ := answers hx
    exact ⟨_, _, _, hx, hexec, by rw [hhost], by rw [hhost]; exact decide_eq_true_iff, fun h => absurd h hg,
      fun _ => by rw [hhost]; exact decide_eq_false (sendAndAwait_failed hg)⟩

/-! Delivered responses (O48, O51 to O53). -/

/-- An exchange that goes on to a RECEIVE to which the device delivers `p` ends in `Ok(p)` (R187, R201). -/
theorem exchange_delivered {i : Instr} {cmd : List Byte} {m : BitVec 8} {s : State} {k : Nat} {p : List Byte}
    (hi : IsSequence i cmd m s.host.params) (hg : goesOn cmd s) (hm : m.toNat ≤ 254) (hp : p.length ≤ m.toNat)
    (hd : deliversFrame (receiveBegins cmd m s) k p) :
    ∃ u, exchange cmd m s = .ok (.none, u) ∧ u.plen.toNat = p.length ∧ holdsBytes u.pbuf p ∧ u.host = s.host := by
  obtain ⟨hok, hplen, hpbuf⟩ := receive_delivered (s := receiveBegins cmd m s) hm hp hd
  have hx := exchange_goesOn hm hg
  rw [hok] at hx
  exact ⟨_, hx, hplen, hpbuf, sequence_exchange_host hi hx⟩

section Delivered

variable {s : State} {k : Nat} {p : List Byte} (hb : s.busy = false)

include hb

/-- A firmware query to which `p` is delivered reads it from a state that differs in the block only. -/
theorem firmwareQuery_delivered (hg : goesOn firmwareCommand s) (hm : s.host.params.maxlenFw.toNat ≤ 254)
    (hp : p.length ≤ s.host.params.maxlenFw.toNat)
    (hd : deliversFrame (receiveBegins firmwareCommand s.host.params.maxlenFw s) k p) :
    ∃ u, exec .getFirmwareVersion s = readVersion u ∧ u.plen.toNat = p.length ∧ holdsBytes u.pbuf p ∧
      u.host = s.host := by
  obtain ⟨u, hx, h⟩ := exchange_delivered (.inl ⟨rfl, rfl, rfl⟩) hg hm hp hd
  exact ⟨u, exec_getFirmwareVersion_of_ok hb hx, h⟩

theorem enumeration_delivered (hg : goesOn (enumCommand s.host.params) s)
    (hm : s.host.params.maxlenEnum.toNat ≤ 254) (hp : p.length ≤ s.host.params.maxlenEnum.toNat)
    (hd : deliversFrame (receiveBegins (enumCommand s.host.params) s.host.params.maxlenEnum s) k p) :
    ∃ u, exec .enumeratePassiveTarget s = readTarget u ∧ u.plen.toNat = p.length ∧ holdsBytes u.pbuf p ∧
      u.host = s.host := by
  obtain ⟨u, hx, h⟩ := exchange_delivered (.inr (.inr ⟨rfl, rfl, rfl⟩)) hg hm hp hd
  exact ⟨u, exec_enumeratePassiveTarget_of_ok hb hx, h⟩

end Delivered

/-- Settles O48: the delivered response is read by `readVersion_holds`, whatever stands at offset 0. -/
theorem firmwareQueryReturnsTheVersionWord : Obligations.FirmwareQueryReturnsTheVersionWord := by
  intro s k p0 p1 p2 p3 p4 rest hb hg hm hp hd
  obtain ⟨u, hexec, hplen, hpbuf, hhost⟩ :=
    firmwareQuery_delivered (p := p0 :: p1 :: p2 :: p3 :: p4 :: rest) hb hg hm hp hd
  refine ⟨_, hexec.trans (readVersion_holds hpbuf (by rw [hplen]; exact Nat.le_add_left 5 _)), word32_toNat p1 p2 p3 p4,
    ?_⟩
  rw [← hhost]

/-- Settles O51: the delivered response is read by `readTarget_found`. -/
theorem enumerationFindsTheTarget : Obligations.EnumerationFindsTheTarget := by
  intro s k tg sens1 sens2 sel l ident rest hb hg hm hl7 hl hp hd
  obtain ⟨u, hexec, hplen, hpbuf, hhost⟩ :=
    enumeration_delivered hb hg hm (by simp only [List.length_append, List.length_cons, List.length_nil]; omega) hd
  refine ⟨_, hexec.trans (readTarget_found hl7 hl ?_ hpbuf), ?_⟩
  · simp only [hplen, List.length_append, List.length_cons, List.length_nil]; omega
  · rw [← hhost]

/-- A response with another code, or with another count, is no target (R209). -/
theorem readTarget_notFound {u : State} {code : Byte} {rest : List Byte} (hplen : u.plen.toNat = (code :: rest).length)
    (hpbuf : holdsBytes u.pbuf (code :: rest))
    (h : code ≠ 0x4B ∨ ∃ count rest', rest = count :: rest' ∧ count ≠ 0x01) : readTarget u = .next (notFound u) := by
  by_cases hcode : code = 0x4B
  case neg => exact readTarget_code hcode (by rw [hplen]; exact Nat.le_add_left 1 _) hpbuf
  case pos =>
    obtain ⟨count, rest', rfl, hcount⟩ := h.resolve_left (not_not.2 hcode)
    subst hcode
    exact readTarget_count hcount (by rw [hplen]; exact Nat.le_add_left 2 _) hpbuf

/-- Settles O52: no target is found in such a response, and a failed exchange is not read at all. -/
theorem enumerationReportsNoTarget : Obligations.EnumerationReportsNoTarget := by
  intro s hb
  refine ⟨fun k code rest hg hm hp hother hd => ?response, fun e u hx he => ?failed⟩
  case response =>
    obtain ⟨u, hexec, hplen, hpbuf, hhost⟩ := enumeration_delivered (p := code :: rest) hb hg hm hp hd
    exact ⟨notFound u, hexec.trans (readTarget_notFound hplen hpbuf hother), by rw [notFound, hhost]⟩
  case failed =>
    exact ⟨notFound u, exec_enumeratePassiveTarget_of_failed hb hx he,
      by rw [notFound, sequence_exchange_host (.inr (.inr ⟨rfl, rfl, rfl⟩)) hx]⟩

theorem readVersion_short {u : State} (h : u.plen.toNat < 5) : readVersion u = .fault .readBeyondPayload := if_pos h

/-- Settles O53: the readings of the delivered response fault, one lemma for each place where they stop. -/
theorem meaninglessResponsesFaultTheRun : Obligations.MeaninglessResponsesFaultTheRun := by
  intro s k p hb
  refine ⟨fun hg hm hp hd hshort => ?firmware, fun hg hm hp hd => ?enum⟩
  case firmware =>
    obtain ⟨u, hexec, hplen, -⟩ := firmwareQuery_delivered hb hg hm hp hd
    exact hexec.trans (readVersion_short (hplen ▸ hshort))
  case enum =>
    obtain ⟨u, hexec, hplen, hpbuf, -⟩ := enumeration_delivered hb hg hm hp hd
    rw [hexec]
    refine ⟨?few, ?short, ?identifier⟩
    case few =>
      rintro (rfl | rfl)
      · exact readTarget_empty hplen
      · exact readTarget_single hplen hpbuf
    case short =>
      rintro rest rfl hrest
      simp only [List.length_append, List.length_cons, List.length_nil] at hplen
      exact readTarget_short (by omega) (by omega) hpbuf
    case identifier =>
      rintro tg sens1 sens2 sel l rest rfl
      simp only [List.length_append, List.length_cons, List.length_nil] at hplen
      exact ⟨fun hl => readTarget_long (by omega) hl hpbuf,
        fun hl hrest => readTarget_cut (by omega) hl (by omega) hpbuf⟩

/-! The response rows (O55 to O57). -/

/-- Settles O55: the row is `readVersion`, on a `PBUF` that holds five bytes and on a short one. -/
theorem firmwareResponseIsReadBigEndian : Obligations.FirmwareResponseIsReadBigEndian := by
  intro s hb
  rw [exec_respFirmwareVersion_of_idle hb]
  exact ⟨fun p0 p1 p2 p3 p4 hplen hpbuf =>
    ⟨_, readVersion_holds hpbuf hplen, word32_toNat p1 p2 p3 p4, rfl⟩, readVersion_short⟩

/-- Settles O56: the row is `recordSam` of `OK`, which reads no byte of `PBUF`. -/
theorem securityModuleResponseIsNotLookedAt : Obligations.SecurityModuleResponseIsNotLookedAt :=
  fun _ hb => exec_respConfigureSecurityModule_eq_next.2 ⟨hb, rfl⟩

/-- Settles O57: the row is `readTarget`, which has one lemma for each way a response can be. -/
theorem enumerationResponseIsValidated : Obligations.EnumerationResponseIsValidated := by
  intro s hb
  rw [exec_respEnumeratePassiveTarget_of_idle hb]
  refine ⟨fun tg sens1 sens2 sel l ident hl7 hl hplen hpbuf => ?found, fun code hcode hplen hpbuf => ?code,
    fun count hcount hplen hpbuf => ?count, readTarget_empty, fun hplen hpbuf => ?single,
    fun hplen hshort hpbuf => ?short, fun tg sens1 sens2 sel l hl hplen hpbuf => ?long,
    fun tg sens1 sens2 sel l hl hplen hcut hpbuf => ?cut⟩
  case found => exact readTarget_found hl7 hl hplen (by rwa [List.append_nil])
  case code => exact readTarget_code hcode hplen hpbuf
  case count => exact readTarget_count hcount hplen hpbuf
  case single => exact readTarget_single hplen hpbuf
  case short => exact readTarget_short hplen hshort hpbuf
  case long => exact readTarget_long hplen hl hpbuf
  case cut => exact readTarget_cut hplen hl hcut hpbuf

end Sys2Proof.Machine
end
